-- ==== Sys2Proof/Word.lean ====
section
/-! DEFINITION. The machine's word, byte and cell (spec/00_scope.md R11, R15, R16; spec/10_state.md R31, R36, R42). -/

namespace Sys2Proof

/-- A register or memory word: 16 bits (R11). -/
abbrev Word := BitVec 16

/-- One byte lane of a word (spec/20_memory.md R80). -/
abbrev Byte := BitVec 8

/-- The content of a cell that "may hold `Undefined`" (R16): an accumulator (R31), a stack slot (R36) or a bank
register (R42). `undef` is the spec's own marker, which the debugger can see (spec/41_register_file.md R171). -/
inductive Cell where
  | undef
  | val (w : Word)
deriving DecidableEq, Repr, Inhabited

end Sys2Proof
end

