-- ==== Sys2Proof/Config.lean ====
section
/-! DEFINITION. The configuration of one machine: every OPEN parameter of spec/00_scope.md R12, functions included, as plain
data, and the opaque free values. A state carries its configuration and no step changes it, so a statement about every state holds
for every value of every parameter held here. -/

namespace Sys2Proof

/-- The six CPU interrupt levels L0..L5 (spec/60_exceptions.md R270). -/
inductive Level where
  | l0 | l1 | l2 | l3 | l4 | l5
deriving DecidableEq, Repr, Inhabited

/-- The two general ports (spec/42_peripheral_bank.md R212). -/
inductive Port where
  | a | b
deriving DecidableEq, Repr, Inhabited

/-- Which NAND register a written value came from (R213). -/
inductive NandKind where
  | cmd | addrLo | addrHi
deriving DecidableEq, Repr, Inhabited

/-- The two parameter words of a DMA channel (spec/43_dma.md R241). -/
inductive Slot where
  | p0 | p1
deriving DecidableEq, Repr, Inhabited

/-- The registers of the bank (spec/30_encoding.md R106). `rsv k` is RSV k, `dmaP c s` is DMA_P0_c or DMA_P1_c, and
`extra k` is the register that entry k of EXTRA_REGS adds (R217). -/
inductive Reg where
  | bankCtrl
  | rsv (k : Nat)
  | rndStatus
  | dmaP (c : Fin 7) (s : Slot)
  | dmaTrigger
  | dmaStatus
  | portA
  | portB
  | nandCmd
  | nandAddrLo
  | nandAddrHi
  | csCtrl
  | waitEnter
  | irqStatus
  | irqAck
  | irqEnable
  | extra (k : Nat)
deriving DecidableEq, Repr, Inhabited

/-- The three behaviour kinds of a descriptor (R200). -/
inductive RegKind where
  | storage | trigger | computed
deriving DecidableEq, Repr, Inhabited

/-- `OFF(r)` of every named base register (R106). NRSV is the length of `rsv`. -/
structure Offsets where
  bankCtrl   : Word
  rsv        : List Word
  rndStatus  : Word
  dmaP0      : Vector Word 7
  dmaP1      : Vector Word 7
  dmaTrigger : Word
  dmaStatus  : Word
  portA      : Word
  portB      : Word
  nandCmd    : Word
  nandAddrLo : Word
  nandAddrHi : Word
  csCtrl     : Word
  waitEnter  : Word
  irqStatus  : Word
  irqAck     : Word
  irqEnable  : Word
deriving DecidableEq, Repr

/-- `MEM_KIND` (spec/20_memory.md R75). -/
inductive MemKind where
  | ram | rom | io
deriving DecidableEq, Repr, Inhabited

/-- The words `first..last` have kind `kind`. -/
structure KindRange where
  first : Word
  last  : Word
  kind  : MemKind
deriving DecidableEq, Repr

/-- `NONDET_MODE` (R210). -/
inductive NondetMode where
  | draw | fixed
deriving DecidableEq, Repr, Inhabited

/-- `DMA_LAYOUT` (R240). -/
inductive DmaLayout where
  | addrLen | addrLoHi
deriving DecidableEq, Repr, Inhabited

/-- Word expressions: of a program, and of a function of the configuration. In a program `pc` is the address and `word` the
word the program was selected by (for a bank action: the offset and the written value), and `var k` is the result of the
k-th call made so far, 0 where that call returns nothing. In a function of the configuration `var k` is its k-th argument
and `pc` and `word` are 0. Every function from words to a word has such an expression: at the least, one nested choice on
the arguments' values (log entry 16). -/
inductive Expr where
  | lit (v : Word)
  | pc
  | word
  | var (k : Nat)
  | not (a : Expr)
  | and (a b : Expr)
  | or (a b : Expr)
  | xor (a b : Expr)
  | add (a b : Expr)
  | sub (a b : Expr)
  | shl (a : Expr) (n : Nat)
  | shr (a : Expr) (n : Nat)
  | eq (a b : Expr)
  | ult (a b : Expr)
  | ite (c t e : Expr)
deriving DecidableEq, Repr, Inhabited

/-- The primitives `ISA_EXEC` may call, and no others (spec/40_engine.md R139). A 2-bit operand is the low two bits
of its expression, an 8-bit one the low eight; a byte address is a word address and a lane (the lane's bit 0).
`fetch k` is `FETCH(PC + k)` (R137), k = 0 included by the model's choice (log entry 37). -/
inductive IsaPrim where
  | acRead (i : Expr)
  | acWrite (i v : Expr)
  | pcWrite (v : Expr)
  | frRead
  | frWrite (v : Expr)
  | spRead
  | spWrite (v : Expr)
  | stackPush (v : Expr)
  | stackPop
  | intReturn
  | jcRead (j : Expr)
  | memRead16 (a : Expr)
  | memWrite16 (a v : Expr)
  | memRead8 (a lane : Expr)
  | memWrite8 (a lane b : Expr)
  | fetch (k : Nat)
deriving DecidableEq, Repr, Inhabited

/-- What an EXTRA_REGS write action may call: the operations of the spec that act on the block (R217), the primitives
of R139 among them. `regRead` and `regWrite` read and write a register with its own rule; `fetch` is FETCH of a word address
(spec/20_memory.md R79). -/
inductive BankPrim where
  | isa (p : IsaPrim)
  | regRead (r : Reg)
  | regWrite (r : Reg) (v : Expr)
  | dmaWriteParam (c : Fin 7) (s : Slot) (v : Expr)
  | dmaReadParam (c : Fin 7) (s : Slot)
  | fetch (a : Expr)
  | dmaTrigger (c : Fin 7)
  | csRecompute
  | waitEnter
  | aggVectorFetch
deriving DecidableEq, Repr, Inhabited

/-- What an EXTRA_REGS read function may call: the register's own last written value, a register as it reads, a draw,
and the operations of the spec that change nothing (R84). -/
inductive ReadPrim where
  | stored
  | regRead (r : Reg)
  | draw
  | acRead (i : Expr)
  | frRead
  | spRead
  | jcRead (j : Expr)
  | memRead16 (a : Expr)
  | memRead8 (a lane : Expr)
  | fetch (a : Expr)
  | dmaReadParam (c : Fin 7) (s : Slot)
  | aggVectorFetch
deriving DecidableEq, Repr, Inhabited

/-- A program over primitives `π` that ends with a leaf of type `ω`. `call p k` performs p, appends its result to the
results so far and goes on with k; `cond c t e` goes on with t where c is not 0 and with e where it is. Every
terminating program over finitely many primitive results has this form. -/
inductive Prog (π ω : Type) where
  | done (o : ω)
  | call (p : π) (k : Prog π ω)
  | cond (c : Expr) (t e : Prog π ω)
deriving DecidableEq, Repr

/-- One row of the table `ISA_EXEC`: the program of every word w at every address pc with
`w & wMask = wMatch` and `pc & pcMask = pcMatch` (R136). Its leaf is the nominal cycle count of `Done(n)`. -/
structure IsaEntry where
  wMask   : Word
  wMatch  : Word
  pcMask  : Word
  pcMatch : Word
  prog    : Prog IsaPrim Nat
deriving DecidableEq, Repr

/-- One entry of `EXTRA_REGS` (R217): its offset, its kind, its read function and its write action. -/
structure ExtraReg where
  off   : Word
  kind  : RegKind
  read  : Prog ReadPrim Expr
  write : Prog BankPrim Unit
deriving DecidableEq, Repr

/-- The FR positions of the enables of L1..L5, `IE_BIT(l)` (R274). The spec gives their defaults and no range: that any of the
sixteen positions may be one, the hard-wired bits 0 and 15 and the flag outputs 11..14 among them, is the model's choice.
DESIGN CHOICE, log entry 35. -/
structure IeBits where
  l1 : Fin 16
  l2 : Fin 16
  l3 : Fin 16
  l4 : Fin 16
  l5 : Fin 16
deriving DecidableEq, Repr

/-- The collaborators a machine consumes (spec/00_scope.md R13). R13 lists the video and the audio source line; the internal
source is a collaborator line too by spec/60_exceptions.md R290, and counting it here is the model's choice (log entry 32). -/
inductive Collaborator where
  | flagOutput (k : Fin 4)
  | jumpCondition (j : Fin 3)
  | port (p : Port)
  | csRemap
  | externalMemory
  | nandTransfer
  | videoLine
  | audioLine
  | internalLine
  | entropy
  | debugHook
deriving DecidableEq, Repr

/-- The five region descriptors have the result type of `CS_MAP`, which the spec leaves open (R221); a descriptor is
held as two words, for example the first and the last word of the region. DESIGN CHOICE, log entry 15. -/
structure Region where
  lo : Word
  hi : Word
deriving DecidableEq, Repr, Inhabited

/-- The regions cs0..cs4 (R45). -/
structure CsRegions where
  r0 : Region
  r1 : Region
  r2 : Region
  r3 : Region
  r4 : Region
deriving DecidableEq, Repr, Inhabited

/-- `INT_VECTOR(l, v)` (spec/60_exceptions.md R278): for each level l, a function of the vector value v, `var 0`. -/
structure IntVectors where
  l0 : Expr
  l1 : Expr
  l2 : Expr
  l3 : Expr
  l4 : Expr
  l5 : Expr
deriving DecidableEq, Repr

/-- One region descriptor as a function of arguments. -/
structure RegionExpr where
  lo : Expr
  hi : Expr
deriving DecidableEq, Repr

/-- `CS_MAP(base, ctrl)` (R221): the five regions as functions of base, `var 0`, and ctrl, `var 1`. That the base is a word
is the model's choice (log entry 33). -/
structure CsMap where
  r0 : RegionExpr
  r1 : RegionExpr
  r2 : RegionExpr
  r3 : RegionExpr
  r4 : RegionExpr
deriving DecidableEq, Repr

/-- `DMA_XFER_LOHI(p0, p1)` (spec/43_dma.md R245): the target word address and the word count as functions of p0, `var 0`,
and p1, `var 1`. The spec bounds no count: it is held as its digits in base 2^16, the least significant first. -/
structure XferLoHi where
  addr  : Expr
  count : List Expr
deriving DecidableEq, Repr

/-- The OPEN parameters of R12. The functions among them are held as expressions of their arguments: DESIGN CHOICE, log
entry 16. -/
structure Config where
  periphBase       : Word
  periphSize       : Nat
  offs             : Offsets
  unmappedSentinel : Word
  nondetMode       : NondetMode
  rndFixed         : Word
  memKinds         : List KindRange            -- MEM_KIND: the first range that holds the word; RAM where none does
  memInit          : List (Nat × BitVec 8)     -- MEM_INIT by byte address, in the canonical form of memory
  resetValues      : List (Reg × Word)         -- RESET_VALUE(r); Undefined for a register not listed
  csBase           : Word                      -- CS_BASE: its width is not stated, DESIGN CHOICE, log entry 33
  csMap            : CsMap
  dmaLayout        : DmaLayout
  dmaXferLoHi      : XferLoHi
  intVector        : IntVectors
  ieBits           : IeBits
  ienBit           : Fin 16                    -- IEN_BIT: its range is not stated, DESIGN CHOICE, log entry 35
  arbOrder         : List Level
  extraRegs        : List ExtraReg
  isa              : List IsaEntry             -- ISA_EXEC: the first entry that matches; Unmodelled where none does
  intEntryCycles   : Nat
  idleCycles       : Nat
  collaborators    : List Collaborator         -- the collaborators supplied at construction (R13)
deriving DecidableEq, Repr

/-- Every collaborator of R13, and the internal source line (log entry 32). -/
def Collaborator.all : List Collaborator :=
  [.flagOutput 0, .flagOutput 1, .flagOutput 2, .flagOutput 3, .jumpCondition 0, .jumpCondition 1, .jumpCondition 2,
   .port .a, .port .b, .csRemap, .externalMemory, .nandTransfer, .videoLine, .audioLine, .internalLine, .entropy,
   .debugHook]

/-- The offsets of the fixture FIX of spec/95_test_vectors.md section 0. -/
def Offsets.reference : Offsets where
  bankCtrl   := 0x00
  rsv        := [0x80, 0x81]
  rndStatus  := 0x01
  dmaP0      := #v[0x10, 0x12, 0x14, 0x16, 0x18, 0x1A, 0x1C]
  dmaP1      := #v[0x11, 0x13, 0x15, 0x17, 0x19, 0x1B, 0x1D]
  dmaTrigger := 0x20
  dmaStatus  := 0x21
  portA      := 0x30
  portB      := 0x31
  nandCmd    := 0x40
  nandAddrLo := 0x41
  nandAddrHi := 0x42
  csCtrl     := 0x50
  waitEnter  := 0x60
  irqStatus  := 0x70
  irqAck     := 0x71
  irqEnable  := 0x72

/-- The configuration that `State.reset` carries. Where the spec states a default for a parameter it is that default
(IE_BIT(l) = l, IEN_BIT = 9, the identity ARB_ORDER, NONDET_MODE = Draw, DMA_LAYOUT = AddrLen, RESET_VALUE Undefined,
EXTRA_REGS empty, cycle costs 4, no table for ISA_EXEC so that every word is unmodelled); where it states none, the value
of the fixture FIX of spec/95_test_vectors.md (its INT_VECTOR among them); where FIX gives none either (CS_MAP,
DMA_XFER_LOHI), one that the model names. DESIGN CHOICE, log entry 1: no statement rests on these values. -/
def Config.reference : Config where
  periphBase       := 0x7000
  periphSize       := 0x100
  offs             := Offsets.reference
  unmappedSentinel := 0xFFFF
  nondetMode       := .draw
  rndFixed         := 0x5A5A
  memKinds         := []
  memInit          := []
  resetValues      := []
  csBase           := 0
  csMap            :=
    { r0 := ⟨.var 0, .var 1⟩, r1 := ⟨.var 0, .var 1⟩, r2 := ⟨.var 0, .var 1⟩, r3 := ⟨.var 0, .var 1⟩
      r4 := ⟨.var 0, .var 1⟩ }
  dmaLayout        := .addrLen
  dmaXferLoHi      := { addr := .var 0, count := [.var 1] }
  intVector        :=
    { l0 := .add (.lit 0x0100) (.var 0), l1 := .add (.lit 0x0110) (.var 0), l2 := .add (.lit 0x0120) (.var 0)
      l3 := .add (.lit 0x0130) (.var 0), l4 := .add (.lit 0x0140) (.var 0), l5 := .add (.lit 0x0150) (.var 0) }
  ieBits           := { l1 := 1, l2 := 2, l3 := 3, l4 := 4, l5 := 5 }
  ienBit           := 9
  arbOrder         := [.l0, .l1, .l2, .l3, .l4, .l5]
  extraRegs        := []
  isa              := []
  intEntryCycles   := 4
  idleCycles       := 4
  collaborators    := Collaborator.all

/-- The 16-bit draws (spec/00_scope.md R18): ports, entropy, IO words and NAND words, at the draw counter. FREE VALUE,
log entry 2. -/
opaque Config.drawWord : Nat → Word

/-- The draws of the jump-condition inputs (spec/40_engine.md R142). FREE VALUE, log entry 2. -/
opaque Config.drawBool : Nat → Bool

/-- The EXTEND wait states of one cycle (R134). FREE VALUE, log entry 2. -/
opaque Config.drawNat : Nat → Nat

/-- The vector of AGG_VECTOR_FETCH when no source is pending and enabled, which the spec does not state (R294). FREE
VALUE, log entry 20. -/
opaque Config.freeVector : Nat → Word

/-- The control bits that CS_RECOMPUTE uses while CS_CTRL is Undefined, which the spec does not state (R221). FREE
VALUE, log entry 19. -/
opaque Config.freeCsCtrl : Nat → Word

/-- The enables of the aggregator's sources while a restored snapshot has left IRQ_ENABLE `Undefined`, which the spec does not
state (spec/60_exceptions.md R293). FREE VALUE, log entry 34. -/
opaque Config.freeIrqEnable : Word

/-- PC between construction and the first RESET: "unspecified and may not be read" (spec/10_state.md R37). -/
opaque Config.powerOnPc : Word

/-- SP between construction and the first RESET (R37); some value of 0..9 (R35). -/
opaque Config.powerOnSp : Fin 10

end Sys2Proof
end

