-- ==== Sys2Proof/Syntax.lean ====
section
/-! DEFINITION. The instructions: the operations of spec/30_encoding.md R102 and the CPU instruction word of R100, one
constructor per row of spec/opcode_table.json, with operands of the widths R102 states. RESTORE carries a whole
snapshot, so the snapshot and the parts of the state it holds are defined here. -/

namespace Sys2Proof

/-- The state of one DMA channel (spec/10_state.md R43). -/
structure Channel where
  p0   : Cell
  p1   : Cell
  busy : Bool
  done : Bool
  err  : Bool
deriving DecidableEq, Repr, Inhabited

/-- The pending latches: L2 has none (R38). -/
structure Pending where
  l0 : Bool
  l1 : Bool
  l3 : Bool
  l4 : Bool
  l5 : Bool
deriving DecidableEq, Repr, Inhabited

/-- The last level given to SIGNAL_INT for each level that has a pin (R38). -/
structure Lines where
  l0 : Bool
  l3 : Bool
  l4 : Bool
  l5 : Bool
deriving DecidableEq, Repr, Inhabited

/-- The last level of the video, audio and internal collaborator lines (R44). -/
structure AggLines where
  video    : Bool
  audio    : Bool
  internal : Bool
deriving DecidableEq, Repr, Inhabited

/-- The file of a cell that was read while `Undefined` (spec/60_exceptions.md R302). -/
inductive UndefFile where
  | ac | stk | periph
deriving DecidableEq, Repr, Inhabited

/-- The fault reasons of R302, with what each records. Every one is SAFE: the model stops where the source leaves the
behaviour undefined. -/
inductive FaultReason where
  /-- `ISA_EXEC` gives no meaning to the word w at pc: INSTR, CPU_WORD, STEP, RUN (R140). Safe. -/
  | unmodelled (pc w : Word)
  /-- A read of an `Undefined` cell: AC_READ, STACK_POP, INT_RETURN, a window read, a DMA parameter read (R171). Safe. -/
  | readUndefined (file : UndefFile) (index : Word)
  /-- An 8-bit access to a window word: MEM_READ8, MEM_WRITE8 (R77). Safe. -/
  | periphByteAccess (ba : BitVec 17)
  /-- An instruction fetch from a window word: FETCH, STEP, RUN (R78). Safe. -/
  | fetchFromWindow (a : Word)
  /-- A DMA word whose target is a window word: DMA_TRIGGER and what issues it (R245). Safe. -/
  | dmaIntoWindow (c : Fin 7) (t : Word)
deriving DecidableEq, Repr, Inhabited

/-- The snapshot of spec/70_reset_and_hazards.md R326, field by field. `periph` is field 6: the storage and trigger
registers other than the DMA parameter words, in ascending order of their offsets. -/
structure Snapshot where
  pc        : Word
  fr        : Word
  ac        : Vector Cell 4
  sp        : BitVec 4
  stk       : Vector Cell 10
  periph    : List Cell
  dma       : Vector Channel 7
  csRegions : Option CsRegions
  pending   : Pending
  line      : Lines
  waiting   : Bool
  bootMode  : BitVec 2
  apend     : BitVec 4
  aline     : AggLines
  fault     : Option FaultReason
  resetDone : Bool
deriving DecidableEq, Repr

/-- The instructions. Operands have the widths of R102; which of their values are refused is `Instr.wellFormed`. -/
inductive Instr where
  | reset (strap : BitVec 2)
  | run (budget : BitVec 32)
  | signalInt (l : BitVec 3) (b : BitVec 1)
  | aggLine (s : BitVec 2) (b : BitVec 1)
  | dbgRead (field : BitVec 5)
  | dbgWrite (field : BitVec 5) (v : Word)
  | save
  | restore (snap : Snapshot)
  | step
  | instr (word : Word)
  | intEntry (l : BitVec 3)
  | idle
  | acRead (i : BitVec 2)
  | acWrite (i : BitVec 2) (v : Word)
  | pcWrite (v : Word)
  | frRead
  | frWrite (v : Word)
  | spRead
  | spWrite (v : BitVec 8)
  | stackPush (v : Word)
  | stackPop
  | intReturn
  | jcRead (j : BitVec 2)
  | memRead16 (a : Word)
  | memWrite16 (a v : Word)
  | memRead8 (ba : BitVec 17)
  | memWrite8 (ba : BitVec 17) (b : BitVec 8)
  | fetch (a : Word)
  | periphRead (off : Word)
  | periphWrite (off v : Word)
  | dmaWriteParam (c : BitVec 3) (s : BitVec 1) (v : Word)
  | dmaReadParam (c : BitVec 3) (s : BitVec 1)
  | dmaTrigger (c : BitVec 3)
  | csRecompute
  | aggVectorFetch
  | waitEnter
  | cpuWord (w : Word)
deriving DecidableEq, Repr

end Sys2Proof
end

