-- ==== Sys2Proof/WellFormed.lean ====
section
/-! DEFINITION. Which instructions are well formed: the operand values that spec/30_encoding.md R103 does not refuse,
and a snapshot that its record can carry. -/

namespace Sys2Proof

/-- `l` names a CPU level: 0..5 (R103). -/
def levelOperandOk (l : BitVec 3) : Bool := decide (l.toNat ≤ 5)

/-- `s` names an aggregator source that the host may drive: not 2, the dma source (R103). -/
def sourceOperandOk (s : BitVec 2) : Bool := s != 2

/-- `field` names a debug-exported field: 0..16 (R103). -/
def fieldOperandOk (field : BitVec 5) : Bool := decide (field.toNat ≤ 16)

/-- `j` names a jump-condition input: 0..2 (R103). -/
def jumpOperandOk (j : BitVec 2) : Bool := j != 3

/-- `c` names a DMA channel: 0..6 (R103). -/
def channelOperandOk (c : BitVec 3) : Bool := c != 7

/-- The record of a snapshot counts its peripheral registers in one word (log entry 7). -/
def Snapshot.encodable (snap : Snapshot) : Bool := decide (snap.periph.length < 65536)

/-- The operand values R103 accepts. Refusals that depend on more than the operand's range (SIGNAL_INT of an internal
level, R271; a snapshot of another layout, spec/70_reset_and_hazards.md R327) belong to the operation. -/
def Instr.wellFormed (i : Instr) : Bool :=
  match i with
  | .reset _ => true
  | .run _ => true
  | .signalInt l _ => levelOperandOk l
  | .aggLine s _ => sourceOperandOk s
  | .dbgRead field => fieldOperandOk field
  | .dbgWrite field _ => fieldOperandOk field
  | .save => true
  | .restore snap => snap.encodable
  | .step => true
  | .instr _ => true
  | .intEntry l => levelOperandOk l
  | .idle => true
  | .acRead _ => true
  | .acWrite _ _ => true
  | .pcWrite _ => true
  | .frRead => true
  | .frWrite _ => true
  | .spRead => true
  | .spWrite _ => true
  | .stackPush _ => true
  | .stackPop => true
  | .intReturn => true
  | .jcRead j => jumpOperandOk j
  | .memRead16 _ => true
  | .memWrite16 _ _ => true
  | .memRead8 _ => true
  | .memWrite8 _ _ => true
  | .fetch _ => true
  | .periphRead _ => true
  | .periphWrite _ _ => true
  | .dmaWriteParam c _ _ => channelOperandOk c
  | .dmaReadParam c _ => channelOperandOk c
  | .dmaTrigger c => channelOperandOk c
  | .csRecompute => true
  | .aggVectorFetch => true
  | .waitEnter => true
  | .cpuWord _ => true

end Sys2Proof
end

