-- ==== Sys2Proof/Decode.lean ====
section
/-! DEFINITION. Decoding and encoding of operation records and of the CPU instruction word (spec/30_encoding.md R100 to
R104). An operation record is the selector followed by its operand fields in the order R102 lists them, each of the
stated width. How the fields lie in bytes is the model's choice (log entry 6): the first byte is the selector, and the
fields follow from bit 8 upwards in the order listed, least significant bit first, filled with zeros to a whole byte. -/

namespace Sys2Proof

/-! ## Bytes and numbers -/

/-- The low `k` bytes of `n`, least significant first. -/
def natToBytes : Nat → Nat → List Byte
  | 0, _ => []
  | k + 1, n => BitVec.ofNat 8 n :: natToBytes k (n / 256)

/-- The number in the first `k` bytes, least significant first, and the bytes after them. -/
def getNat : Nat → List Byte → Option (Nat × List Byte)
  | 0, bs => some (0, bs)
  | _ + 1, [] => none
  | k + 1, b :: bs =>
    match getNat k bs with
    | some (n, rest) => some (b.toNat + 256 * n, rest)
    | none => none

/-- How many bytes hold `n` bits. -/
def byteCount (n : Nat) : Nat := (n + 7) / 8

/-- Fields of (width, value), the first one lowest. -/
def packFields : List (Nat × Nat) → Nat
  | [] => 0
  | (w, v) :: rest => v + 2 ^ w * packFields rest

/-- The values of fields of the given widths, the first one lowest. -/
def unpackFields : List Nat → Nat → List Nat
  | [], _ => []
  | w :: ws, n => n % 2 ^ w :: unpackFields ws (n / 2 ^ w)

/-! ## The parts of a snapshot in bytes (log entry 7) -/

/-- A value of `n` bits in as few bytes as hold it. -/
def putBits {n : Nat} (v : BitVec n) : List Byte := natToBytes (byteCount n) v.toNat

/-- The reading of `putBits`; bits above `n` must be 0. -/
def getBits (n : Nat) (bs : List Byte) : Option (BitVec n × List Byte) :=
  match getNat (byteCount n) bs with
  | some (m, rest) => if m < 2 ^ n then some (BitVec.ofNat n m, rest) else none
  | none => none

/-- A Boolean: one byte, 0 or 1. -/
def putBool (b : Bool) : List Byte := [if b then 1#8 else 0#8]

/-- The reading of `putBool`. -/
def getBool : List Byte → Option (Bool × List Byte)
  | [] => none
  | b :: rest => if b = 0#8 then some (false, rest) else if b = 1#8 then some (true, rest) else none

/-- A cell: 0 for `Undefined`, 1 and the word otherwise. -/
def putCell : Cell → List Byte
  | .undef => [0#8]
  | .val w => 1#8 :: putBits w

/-- The reading of `putCell`. -/
def getCell : List Byte → Option (Cell × List Byte)
  | [] => none
  | t :: rest =>
    if t = 0#8 then some (.undef, rest)
    else if t = 1#8 then
      match getBits 16 rest with
      | some (w, rest') => some (.val w, rest')
      | none => none
    else none

/-- The elements of a vector one after another. -/
def putMany {α : Type} (put : α → List Byte) {n : Nat} (v : Vector α n) : List Byte := v.toList.flatMap put

/-- The reading of `putMany`. -/
def getMany {α : Type} (get : List Byte → Option (α × List Byte)) : (n : Nat) → List Byte → Option (Vector α n × List Byte)
  | 0, bs => some (#v[], bs)
  | n + 1, bs =>
    match getMany get n bs with
    | some (v, rest) =>
      match get rest with
      | some (x, rest') => some (v.push x, rest')
      | none => none
    | none => none

/-- A list of known length. -/
def getList {α : Type} (get : List Byte → Option (α × List Byte)) : Nat → List Byte → Option (List α × List Byte)
  | 0, bs => some ([], bs)
  | n + 1, bs =>
    match get bs with
    | some (x, rest) =>
      match getList get n rest with
      | some (xs, rest') => some (x :: xs, rest')
      | none => none
    | none => none

/-- A channel: its two parameter words and its three flags (spec/70_reset_and_hazards.md R326 field 7). -/
def putChannel (ch : Channel) : List Byte :=
  putCell ch.p0 ++ putCell ch.p1 ++ putBool ch.busy ++ putBool ch.done ++ putBool ch.err

/-- The reading of `putChannel`. -/
def getChannel (bs : List Byte) : Option (Channel × List Byte) := do
  let (p0, bs) ← getCell bs
  let (p1, bs) ← getCell bs
  let (busy, bs) ← getBool bs
  let (done, bs) ← getBool bs
  let (err, bs) ← getBool bs
  some ({ p0, p1, busy, done, err }, bs)

/-- A region descriptor: its two words. -/
def putRegion (r : Region) : List Byte := putBits r.lo ++ putBits r.hi

/-- The reading of `putRegion`. -/
def getRegion (bs : List Byte) : Option (Region × List Byte) := do
  let (lo, bs) ← getBits 16 bs
  let (hi, bs) ← getBits 16 bs
  some ({ lo, hi }, bs)

/-- The chip-select configuration (R326 field 8): 0 for `Undefined`, 1 and the five descriptors otherwise. -/
def putCsRegions : Option CsRegions → List Byte
  | none => [0#8]
  | some r => 1#8 :: (putRegion r.r0 ++ putRegion r.r1 ++ putRegion r.r2 ++ putRegion r.r3 ++ putRegion r.r4)

/-- The reading of `putCsRegions`. -/
def getCsRegions (bs : List Byte) : Option (Option CsRegions × List Byte) := do
  let (present, bs) ← getBool bs
  if present then
    let (r0, bs) ← getRegion bs
    let (r1, bs) ← getRegion bs
    let (r2, bs) ← getRegion bs
    let (r3, bs) ← getRegion bs
    let (r4, bs) ← getRegion bs
    some (some { r0, r1, r2, r3, r4 }, bs)
  else some (none, bs)

/-- The pending latches (R326 field 9). -/
def putPending (p : Pending) : List Byte := putBool p.l0 ++ putBool p.l1 ++ putBool p.l3 ++ putBool p.l4 ++ putBool p.l5

/-- The reading of `putPending`. -/
def getPending (bs : List Byte) : Option (Pending × List Byte) := do
  let (l0, bs) ← getBool bs
  let (l1, bs) ← getBool bs
  let (l3, bs) ← getBool bs
  let (l4, bs) ← getBool bs
  let (l5, bs) ← getBool bs
  some ({ l0, l1, l3, l4, l5 }, bs)

/-- The line levels (R326 field 10). -/
def putLines (l : Lines) : List Byte := putBool l.l0 ++ putBool l.l3 ++ putBool l.l4 ++ putBool l.l5

/-- The reading of `putLines`. -/
def getLines (bs : List Byte) : Option (Lines × List Byte) := do
  let (l0, bs) ← getBool bs
  let (l3, bs) ← getBool bs
  let (l4, bs) ← getBool bs
  let (l5, bs) ← getBool bs
  some ({ l0, l3, l4, l5 }, bs)

/-- The aggregator's line levels (R326 field 13). -/
def putAggLines (l : AggLines) : List Byte := putBool l.video ++ putBool l.audio ++ putBool l.internal

/-- The reading of `putAggLines`. -/
def getAggLines (bs : List Byte) : Option (AggLines × List Byte) := do
  let (video, bs) ← getBool bs
  let (audio, bs) ← getBool bs
  let (internal, bs) ← getBool bs
  some ({ video, audio, internal }, bs)

/-- The file of an `Undefined` cell, as one byte. -/
def putUndefFile : UndefFile → List Byte
  | .ac => [0#8]
  | .stk => [1#8]
  | .periph => [2#8]

/-- The reading of `putUndefFile`. -/
def getUndefFile : List Byte → Option (UndefFile × List Byte)
  | [] => none
  | b :: rest =>
    if b = 0#8 then some (.ac, rest) else if b = 1#8 then some (.stk, rest)
    else if b = 2#8 then some (.periph, rest) else none

/-- A channel number, as one byte. -/
def putChannelNumber (c : Fin 7) : List Byte := [BitVec.ofNat 8 c.val]

/-- The reading of `putChannelNumber`. -/
def getChannelNumber : List Byte → Option (Fin 7 × List Byte)
  | [] => none
  | b :: rest => if h : b.toNat < 7 then some (⟨b.toNat, h⟩, rest) else none

/-- The fault field (R326 field 14): a tag, 0 for None, and what the reason records. -/
def putFault : Option FaultReason → List Byte
  | none => [0#8]
  | some (.unmodelled pc w) => 1#8 :: (putBits pc ++ putBits w)
  | some (.readUndefined file index) => 2#8 :: (putUndefFile file ++ putBits index)
  | some (.periphByteAccess ba) => 3#8 :: putBits ba
  | some (.fetchFromWindow a) => 4#8 :: putBits a
  | some (.dmaIntoWindow c t) => 5#8 :: (putChannelNumber c ++ putBits t)

/-- The reading of `putFault`. -/
def getFault : List Byte → Option (Option FaultReason × List Byte)
  | [] => none
  | tag :: bs =>
    if tag = 0#8 then some (none, bs)
    else if tag = 1#8 then do
      let (pc, bs) ← getBits 16 bs
      let (w, bs) ← getBits 16 bs
      some (some (.unmodelled pc w), bs)
    else if tag = 2#8 then do
      let (file, bs) ← getUndefFile bs
      let (index, bs) ← getBits 16 bs
      some (some (.readUndefined file index), bs)
    else if tag = 3#8 then do
      let (ba, bs) ← getBits 17 bs
      some (some (.periphByteAccess ba), bs)
    else if tag = 4#8 then do
      let (a, bs) ← getBits 16 bs
      some (some (.fetchFromWindow a), bs)
    else if tag = 5#8 then do
      let (c, bs) ← getChannelNumber bs
      let (t, bs) ← getBits 16 bs
      some (some (.dmaIntoWindow c t), bs)
    else none

/-- Field 6: how many registers, in two bytes, and their cells. -/
def putPeriph (cells : List Cell) : List Byte := natToBytes 2 cells.length ++ cells.flatMap putCell

/-- The reading of `putPeriph`. -/
def getPeriph (bs : List Byte) : Option (List Cell × List Byte) := do
  let (n, bs) ← getNat 2 bs
  getList getCell n bs

/-- A snapshot: the fields of R326 in their order. -/
def putSnapshot (s : Snapshot) : List Byte :=
  putBits s.pc ++ putBits s.fr ++ putMany putCell s.ac ++ putBits s.sp ++ putMany putCell s.stk ++ putPeriph s.periph
    ++ putMany putChannel s.dma ++ putCsRegions s.csRegions ++ putPending s.pending ++ putLines s.line
    ++ putBool s.waiting ++ putBits s.bootMode ++ putBits s.apend ++ putAggLines s.aline ++ putFault s.fault
    ++ putBool s.resetDone

/-- The reading of `putSnapshot`. -/
def getSnapshot (bs : List Byte) : Option (Snapshot × List Byte) := do
  let (pc, bs) ← getBits 16 bs
  let (fr, bs) ← getBits 16 bs
  let (ac, bs) ← getMany getCell 4 bs
  let (sp, bs) ← getBits 4 bs
  let (stk, bs) ← getMany getCell 10 bs
  let (periph, bs) ← getPeriph bs
  let (dma, bs) ← getMany getChannel 7 bs
  let (csRegions, bs) ← getCsRegions bs
  let (pending, bs) ← getPending bs
  let (line, bs) ← getLines bs
  let (waiting, bs) ← getBool bs
  let (bootMode, bs) ← getBits 2 bs
  let (apend, bs) ← getBits 4 bs
  let (aline, bs) ← getAggLines bs
  let (fault, bs) ← getFault bs
  let (resetDone, bs) ← getBool bs
  some ({ pc, fr, ac, sp, stk, periph, dma, csRegions, pending, line, waiting, bootMode, apend, aline, fault, resetDone }, bs)

/-! ## The decoder -/

/-- Why bytes are no operation record. -/
inductive DecodeError where
  /-- The record ends before its fields do, or a snapshot's bytes are of no snapshot. Safe. -/
  | incomplete
  /-- "Every selector not in this table names no operation: a record carrying it is refused" (R102). -/
  | unknownSelector (sel : Byte)
  /-- A bit above the record's last field is not 0 (log entry 6). Safe. -/
  | reservedBits
  /-- An operand value that R103 refuses. -/
  | refusedOperand
deriving DecidableEq, Repr

/-- One row of R102: the selector, the widths of the operand fields in order, and the operation they make. `tableBits`
is how many bits, in whole bytes, spec/opcode_table.json gives the row: `decodeTableWord` alone reads it. -/
structure RecordRow where
  selector  : Byte
  widths    : List Nat
  tableBits : Nat
  make      : List Nat → Option Instr

/-- A row of an operation without operands. -/
def RecordRow.plain (selector : Byte) (i : Instr) : RecordRow :=
  { selector, widths := [], tableBits := 16, make := fun _ => some i }

/-- A row of an operation with one operand of `w` bits. -/
def RecordRow.one (selector : Byte) (tableBits w : Nat) (f : BitVec w → Instr) : RecordRow :=
  { selector, widths := [w], tableBits
    make := fun vs => match vs with
      | [a] => some (f (BitVec.ofNat w a))
      | _ => none }

/-- A row of an operation with two operands. -/
def RecordRow.two (selector : Byte) (tableBits w v : Nat) (f : BitVec w → BitVec v → Instr) : RecordRow :=
  { selector, widths := [w, v], tableBits
    make := fun vs => match vs with
      | [a, b] => some (f (BitVec.ofNat w a) (BitVec.ofNat v b))
      | _ => none }

/-- A row of an operation with three operands. -/
def RecordRow.three (selector : Byte) (tableBits w v u : Nat) (f : BitVec w → BitVec v → BitVec u → Instr) : RecordRow :=
  { selector, widths := [w, v, u], tableBits
    make := fun vs => match vs with
      | [a, b, c] => some (f (BitVec.ofNat w a) (BitVec.ofNat v b) (BitVec.ofNat u c))
      | _ => none }

/-- The host's operations (RESTORE is read by `decodeRecord` itself). -/
def hostRows : List RecordRow :=
  [.one 0x00#8 8 2 .reset,
   .one 0x01#8 16 32 .run,
   .two 0x02#8 8 3 1 .signalInt,
   .two 0x03#8 8 2 1 .aggLine,
   .one 0x04#8 8 5 .dbgRead,
   .two 0x05#8 8 5 16 .dbgWrite,
   .plain 0x06#8 .save]

/-- The engine's operations. -/
def engineRows : List RecordRow :=
  [.plain 0x10#8 .step,
   .one 0x11#8 24 16 .instr,
   .one 0x12#8 8 3 .intEntry,
   .plain 0x13#8 .idle]

/-- The register file's primitives. -/
def registerRows : List RecordRow :=
  [.one 0x20#8 8 2 .acRead,
   .two 0x21#8 8 2 16 .acWrite,
   .one 0x22#8 24 16 .pcWrite,
   .plain 0x23#8 .frRead,
   .one 0x24#8 24 16 .frWrite,
   .plain 0x25#8 .spRead,
   .one 0x26#8 16 8 .spWrite,
   .one 0x27#8 24 16 .stackPush,
   .plain 0x28#8 .stackPop,
   .plain 0x29#8 .intReturn,
   .one 0x2A#8 8 2 .jcRead]

/-- The memory primitives. -/
def memoryRows : List RecordRow :=
  [.one 0x30#8 24 16 .memRead16,
   .two 0x31#8 24 16 16 .memWrite16,
   .one 0x32#8 24 17 .memRead8,
   .two 0x33#8 24 17 8 .memWrite8,
   .one 0x34#8 24 16 .fetch]

/-- The bank's, the DMA controller's, the router's and the aggregator's operations. -/
def unitRows : List RecordRow :=
  [.one 0x40#8 24 16 .periphRead,
   .two 0x41#8 24 16 16 .periphWrite,
   .three 0x50#8 8 3 1 16 .dmaWriteParam,
   .two 0x51#8 8 3 1 .dmaReadParam,
   .one 0x52#8 8 3 .dmaTrigger,
   .plain 0x60#8 .csRecompute,
   .plain 0x70#8 .aggVectorFetch,
   .plain 0x71#8 .waitEnter]

/-- R102, without RESTORE. -/
def recordTable : List RecordRow := hostRows ++ engineRows ++ registerRows ++ memoryRows ++ unitRows

/-- RESTORE's selector. -/
def restoreSelector : Byte := 0x07#8

/-- The instruction a row reads from the bytes after the selector. -/
def RecordRow.read (row : RecordRow) (bs : List Byte) : Except DecodeError (Instr × List Byte) :=
  match getNat (byteCount row.widths.sum) bs with
  | none => .error .incomplete
  | some (n, rest) =>
    if n < 2 ^ row.widths.sum then
      match row.make (unpackFields row.widths n) with
      | none => .error .incomplete
      | some i => if i.wellFormed then .ok (i, rest) else .error .refusedOperand
    else .error .reservedBits

/-- The first operation record of a stream of bytes, and the bytes after it (R102 to R104). -/
def decodeRecord : List Byte → Except DecodeError (Instr × List Byte)
  | [] => .error .incomplete
  | sel :: bs =>
    if sel = restoreSelector then
      match getSnapshot bs with
      | some (snap, rest) => .ok (.restore snap, rest)
      | none => .error .incomplete
    else
      match recordTable.find? (fun row => row.selector == sel) with
      | some row => row.read bs
      | none => .error (.unknownSelector sel)

/-- "Every 16-bit value is a word the decoder accepts and hands to `ISA_EXEC`; the decoder is total" (R100). -/
def decodeCpuWord (w : Word) : Instr := .cpuWord w

/-! ## The encoder -/

/-- The record of a selector and its fields of (width, value). -/
def encodeFields (sel : Byte) (fields : List (Nat × Nat)) : List Byte :=
  sel :: natToBytes (byteCount (fields.map Prod.fst).sum) (packFields fields)

/-- The bytes of an instruction: its operation record; for a CPU word the word's two bytes, low byte first, as they lie
in the address space (spec/20_memory.md R80). -/
def encode (i : Instr) : List Byte :=
  match i with
  | .reset strap => encodeFields 0x00#8 [(2, strap.toNat)]
  | .run budget => encodeFields 0x01#8 [(32, budget.toNat)]
  | .signalInt l b => encodeFields 0x02#8 [(3, l.toNat), (1, b.toNat)]
  | .aggLine s b => encodeFields 0x03#8 [(2, s.toNat), (1, b.toNat)]
  | .dbgRead field => encodeFields 0x04#8 [(5, field.toNat)]
  | .dbgWrite field v => encodeFields 0x05#8 [(5, field.toNat), (16, v.toNat)]
  | .save => encodeFields 0x06#8 []
  | .restore snap => restoreSelector :: putSnapshot snap
  | .step => encodeFields 0x10#8 []
  | .instr word => encodeFields 0x11#8 [(16, word.toNat)]
  | .intEntry l => encodeFields 0x12#8 [(3, l.toNat)]
  | .idle => encodeFields 0x13#8 []
  | .acRead i => encodeFields 0x20#8 [(2, i.toNat)]
  | .acWrite i v => encodeFields 0x21#8 [(2, i.toNat), (16, v.toNat)]
  | .pcWrite v => encodeFields 0x22#8 [(16, v.toNat)]
  | .frRead => encodeFields 0x23#8 []
  | .frWrite v => encodeFields 0x24#8 [(16, v.toNat)]
  | .spRead => encodeFields 0x25#8 []
  | .spWrite v => encodeFields 0x26#8 [(8, v.toNat)]
  | .stackPush v => encodeFields 0x27#8 [(16, v.toNat)]
  | .stackPop => encodeFields 0x28#8 []
  | .intReturn => encodeFields 0x29#8 []
  | .jcRead j => encodeFields 0x2A#8 [(2, j.toNat)]
  | .memRead16 a => encodeFields 0x30#8 [(16, a.toNat)]
  | .memWrite16 a v => encodeFields 0x31#8 [(16, a.toNat), (16, v.toNat)]
  | .memRead8 ba => encodeFields 0x32#8 [(17, ba.toNat)]
  | .memWrite8 ba b => encodeFields 0x33#8 [(17, ba.toNat), (8, b.toNat)]
  | .fetch a => encodeFields 0x34#8 [(16, a.toNat)]
  | .periphRead off => encodeFields 0x40#8 [(16, off.toNat)]
  | .periphWrite off v => encodeFields 0x41#8 [(16, off.toNat), (16, v.toNat)]
  | .dmaWriteParam c s v => encodeFields 0x50#8 [(3, c.toNat), (1, s.toNat), (16, v.toNat)]
  | .dmaReadParam c s => encodeFields 0x51#8 [(3, c.toNat), (1, s.toNat)]
  | .dmaTrigger c => encodeFields 0x52#8 [(3, c.toNat)]
  | .csRecompute => encodeFields 0x60#8 []
  | .aggVectorFetch => encodeFields 0x70#8 []
  | .waitEnter => encodeFields 0x71#8 []
  | .cpuWord w => natToBytes 2 w.toNat

/-! ## The table's numbering of bits -/

/-- The record of a table word: its bytes, least significant first, and zeros after them. -/
def tableWordBytes (nbits w : Nat) : List Byte := natToBytes (max (byteCount nbits) 1) w ++ List.replicate 128 0#8

/-- Whether a word of `nbits` bits is an operation record: its low byte is a selector, and the word has no more bits
than the selector or exactly those spec/opcode_table.json gives that selector's row. Every other word of 16 bits or
more is the row CPU_WORD (log entry 25). -/
def isRecordWord (nbits w : Nat) : Bool :=
  decide (nbits ≤ 8) ||
    (if BitVec.ofNat 8 w = restoreSelector then nbits == 16
     else match recordTable.find? (fun row => row.selector == BitVec.ofNat 8 w) with
      | some row => row.tableBits == nbits
      | none => false)

/-- The instruction read from an instruction whose bits are `w`, numbered as spec/opcode_table.json numbers them. -/
def decodeTableWord (nbits w : Nat) : Option Instr :=
  if isRecordWord nbits w then
    match decodeRecord (tableWordBytes nbits w) with
    | .ok (i, _) => some i
    | .error _ => none
  else some (decodeCpuWord (BitVec.ofNat 16 w))

end Sys2Proof
end

