-- ==== Sys2Proof/Machine/State.lean ====
section
/-! DEFINITION. The state of the machine (spec/10_state.md), its faults and refusals, and the state after reset. -/

namespace Sys2Proof.Machine

/-- Memory by byte address (spec/20_memory.md R80: word address and lane), in canonical form: addresses strictly
rising and no entry equal to what an unlisted address reads as. -/
abbrev Memory := List Host.Cell

/-- The peripheral register bank (spec/10_state.md R42): `preg[r]` of every storage and trigger register, but for the DMA
parameter words, which the channels hold. `rsv` has one cell per reserved register and `extra` one place per EXTRA_REGS
entry; the place of a computed entry, which holds no value, stays `Undefined`. -/
structure Bank where
  bankCtrl   : Cell
  rsv        : List Cell
  dmaTrigger : Cell
  portA      : Cell
  portB      : Cell
  nandCmd    : Cell
  nandAddrLo : Cell
  nandAddrHi : Cell
  csCtrl     : Cell
  waitEnter  : Cell
  irqAck     : Cell
  irqEnable  : Cell
  extra      : List Cell
deriving DecidableEq, Repr

/-- The events of spec/00_scope.md R19. -/
inductive Event where
  | flagOut (k : Fin 4) (b : Bool)
  | csRemap (r : CsRegions)
  | debugHook (pc : Word)
  | portOut (p : Port) (v : Word)
  | nandWrite (kind : NandKind) (v : Word)
  | nandRead (c : Fin 7) (n : Nat)
  | memEvent (a v : Word)
  | memEventByte (ba : BitVec 17) (b : Byte)
  | intAck (l : Level) (v : Word)
deriving DecidableEq, Repr

/-- What an operation returns to its caller. -/
inductive Result where
  | none
  | word (w : Word)
  | byte (b : Byte)
  | bool (b : Bool)
  | cell (c : Cell)
  | cycles (n : Nat)
  | budget (b : Int)
  | snapshot (s : Snapshot)
deriving DecidableEq, Repr

/-- The state. The fields marked as the model's own are no state of the spec (INVENTORY.md). -/
structure State where
  /-- The configuration: the model's own field, which no step changes (log entry 1). -/
  cfg       : Config
  pc        : Word
  fr        : Word
  ac        : Vector Cell 4
  sp        : BitVec 4
  stk       : Vector Cell 10
  /-- `npc` of spec/40_engine.md R138, where PC_WRITE or INT_RETURN has set it; it exists only inside an instruction. -/
  npc       : Option Word
  /-- The instruction's length so far (R137). -/
  ilen      : Nat
  line      : Lines
  pending   : Pending
  waiting   : Bool
  bootMode  : BitVec 2
  fault     : Option FaultReason
  /-- The reset mark of spec/10_state.md R37. -/
  resetDone : Bool
  bank      : Bank
  dma       : Vector Channel 7
  apend     : BitVec 4
  aline     : AggLines
  csRegions : Option CsRegions
  mem       : Memory
  /-- The operation records the host has issued and the machine has not performed: the model's own (log entry 5). -/
  inbox     : List Byte
  /-- The event trace (spec/00_scope.md R19), oldest first: the model's own (log entry 8). -/
  trace     : List Event
  /-- What the last operation returned: the model's own (log entry 8). -/
  result    : Result
  /-- How many draws have been taken: the model's own, the counter of the free values (log entry 2). -/
  draws     : Nat
deriving DecidableEq, Repr

/-- A step that ends in a fault (spec/60_exceptions.md R302): the reason, and the state left behind, in which `fault`
holds the first reason and earlier writes of the step stand. SAFE: the state is not final, and from it only DBG_READ and
SAVE are performed (R303). Who raises which reason is said at `FaultReason`. -/
inductive Fault where
  | raised (reason : FaultReason) (left : State)
deriving DecidableEq, Repr

/-- Why the model has no meaning for an operation (spec/00_scope.md R20). -/
inductive Refusal where
  /-- Raised by `exec` for an instruction without a meaning. Safe. -/
  | notModelled (mnemonic : String)
  /-- Raised by `step` for bytes that are no operation record (spec/30_encoding.md R102 to R104). Safe. -/
  | badRecord (e : DecodeError)
  /-- Raised by every operation but DBG_READ and SAVE on a faulted machine (spec/60_exceptions.md R303). Safe. -/
  | faultedMachine
  /-- Raised before the first RESET by RUN and SAVE (spec/10_state.md R37, R326) and by what reads PC or SP. Safe. -/
  | notYetReset
  /-- Raised for an operand value that names nothing (spec/30_encoding.md R103). Safe. -/
  | refusedOperand
  /-- Raised by SIGNAL_INT for L1 and L2 (spec/60_exceptions.md R271). Safe. -/
  | levelHasNoPin
  /-- Raised by AGG_LINE for source 2 (R291). Safe. -/
  | sourceIsInternal
  /-- Raised by RESTORE (spec/70_reset_and_hazards.md R327). Safe. -/
  | illFormedSnapshot
  /-- Raised where EXTRA_REGS actions cause each other without end: more than 2 ^ `nestingLevels` deep (log entry 18). Safe. -/
  | actionsWithoutEnd
  /-- Raised by RUN where steps that cost no cycle keep it from ending; no such step exists where the configuration is
  well formed (log entry 21). Safe. -/
  | runWithoutEnd
deriving DecidableEq, Repr

/-- What an operation inside a step answers: a value and the state, a fault, or a refusal. -/
inductive Res (α : Type) where
  | ok (v : α) (s : State)
  | fault (r : Fault)
  | refused (r : Refusal)

/-- The operation `x` and, where it answers a value, what follows. -/
def Res.bind {α β : Type} (x : Res α) (f : α → State → Res β) : Res β :=
  match x with
  | .ok v s => f v s
  | .fault r => .fault r
  | .refused r => .refused r

/-- The machine right after its power-on RESET with strap 0 (spec/70_reset_and_hazards.md R320, R325; spec/10_state.md R48),
carrying the reference configuration (log entries 1 and 12). -/
def State.reset : State where
  cfg       := Config.reference
  pc        := 0x0000
  fr        := 0x8001
  ac        := #v[.undef, .undef, .undef, .undef]
  sp        := 0
  stk       := #v[.undef, .undef, .undef, .undef, .undef, .undef, .undef, .undef, .undef, .undef]
  npc       := none
  ilen      := 1
  line      := { l0 := false, l3 := false, l4 := false, l5 := false }
  pending   := { l0 := false, l1 := false, l3 := false, l4 := false, l5 := false }
  waiting   := false
  bootMode  := 0
  fault     := none
  resetDone := true
  bank      :=
    { bankCtrl := .undef, rsv := [.undef, .undef], dmaTrigger := .undef, portA := .undef, portB := .undef,
      nandCmd := .undef, nandAddrLo := .undef, nandAddrHi := .undef, csCtrl := .undef, waitEnter := .undef,
      irqAck := .undef, irqEnable := .val 0x0000, extra := [] }
  dma       := Vector.replicate 7 { p0 := .undef, p1 := .undef, busy := false, done := false, err := false }
  apend     := 0
  aline     := { video := false, audio := false, internal := false }
  csRegions := none
  mem       := []
  inbox     := []
  trace     := []
  result    := .none
  draws     := 0

end Sys2Proof.Machine
end

