-- ==== Sys2Proof/Machine/Memory.lean ====
section
/-! DEFINITION. Memory as a canonical list of bytes, and the word in its two lanes (spec/20_memory.md R70, R80). -/

namespace Sys2Proof.Machine

/-- What a byte that memory does not list reads as. DESIGN CHOICE, log entry 13. -/
def Memory.unlisted : Byte := 0#8

/-- How many byte addresses there are: 65536 words of two lanes (R80). -/
def Memory.byteCount : Nat := 131072

/-- Every address of `m` lies above `lo`, addresses rise, and no entry is what an unlisted address reads as. -/
def Memory.risesAbove : Nat → Memory → Bool
  | _, [] => true
  | lo, (k, v) :: rest =>
    decide (lo ≤ k) && decide (k < Memory.byteCount) && v != Memory.unlisted && Memory.risesAbove (k + 1) rest

/-- The canonical form. -/
def Memory.wf (m : Memory) : Bool := Memory.risesAbove 0 m

/-- The byte at address `k`. -/
def Memory.read : Memory → Nat → Byte
  | [], _ => Memory.unlisted
  | (a, b) :: rest, k => if a = k then b else Memory.read rest k

/-- The memory with byte `v` at address `k`, in canonical form where `m` is. -/
def Memory.write : Memory → Nat → Byte → Memory
  | [], k, v => if v = Memory.unlisted then [] else [(k, v)]
  | (a, b) :: rest, k, v =>
    if k < a then (if v = Memory.unlisted then (a, b) :: rest else (k, v) :: (a, b) :: rest)
    else if k = a then (if v = Memory.unlisted then rest else (k, v) :: rest)
    else (a, b) :: Memory.write rest k v

/-- Lane 0 of a word: bits 7..0 (R80). -/
def laneLo (w : Word) : Byte := w.extractLsb' 0 8

/-- Lane 1 of a word: bits 15..8 (R80). -/
def laneHi (w : Word) : Byte := w.extractLsb' 8 8

/-- The word of two lanes. -/
def wordOfLanes (lo hi : Byte) : Word := hi.setWidth 16 <<< 8 ||| lo.setWidth 16

/-- The byte address `{a, lane}` (R80). -/
def byteAddr (a : Word) (lane : Bool) : BitVec 17 := BitVec.ofNat 17 (2 * a.toNat + lane.toNat)

/-- The word address of a byte address: `ba[16:1]` (R80). -/
def wordOfByteAddr (ba : BitVec 17) : Word := ba.extractLsb' 1 16

/-- The word at word address `a`. -/
def Memory.readWord (m : Memory) (a : Word) : Word :=
  wordOfLanes (m.read (byteAddr a false).toNat) (m.read (byteAddr a true).toNat)

/-- The memory with word `v` at word address `a`. -/
def Memory.writeWord (m : Memory) (a v : Word) : Memory :=
  (m.write (byteAddr a false).toNat (laneLo v)).write (byteAddr a true).toNat (laneHi v)

end Sys2Proof.Machine
end

