-- ==== Sys2Proof/Machine/Operands.lean ====
section
/-! DEFINITION. Operand forms: what the operand fields of spec/30_encoding.md R103 name, the tables of the configuration
that the rules look up, its functions at their arguments, and the run of a program. -/

namespace Sys2Proof.Machine

/-! ## Operand fields (R103) -/

/-- The level an `l` field names. -/
def levelOf (l : BitVec 3) : Option Level :=
  match l.toNat with
  | 0 => some .l0
  | 1 => some .l1
  | 2 => some .l2
  | 3 => some .l3
  | 4 => some .l4
  | 5 => some .l5
  | _ => none

/-- The DMA channel a `c` field names; 7 names none. -/
def channelOf (c : BitVec 3) : Option (Fin 7) := if h : c.toNat < 7 then some ⟨c.toNat, h⟩ else none

/-- The parameter slot an `s` field names. -/
def slotOf (s : BitVec 1) : Slot := if s = 0#1 then .p0 else .p1

/-- The Boolean level of a `b` field. -/
def levelBit (b : BitVec 1) : Bool := b == 1#1

/-- The accumulator an `i` field names. -/
def acIndex (i : BitVec 2) : Fin 4 := ⟨i.toNat, i.isLt⟩

/-! ## Tables of the configuration -/

/-- `IE_BIT(l)` (spec/60_exceptions.md R274); L0 has no enable. -/
def ieBit (cfg : Config) (l : Level) : Option (Fin 16) :=
  match l with
  | .l0 => none
  | .l1 => some cfg.ieBits.l1
  | .l2 => some cfg.ieBits.l2
  | .l3 => some cfg.ieBits.l3
  | .l4 => some cfg.ieBits.l4
  | .l5 => some cfg.ieBits.l5

/-- `MEM_KIND(a)` (spec/20_memory.md R75). -/
def memKind (cfg : Config) (a : Word) : MemKind :=
  match cfg.memKinds.find? (fun r => decide (r.first ≤ a) && decide (a ≤ r.last)) with
  | some r => r.kind
  | none => .ram

/-- The kind of a base register (spec/30_encoding.md R106). -/
def baseKind (r : Reg) : RegKind :=
  match r with
  | .bankCtrl => .storage
  | .rsv _ => .storage
  | .rndStatus => .computed
  | .dmaP _ _ => .storage
  | .dmaTrigger => .trigger
  | .dmaStatus => .computed
  | .portA => .trigger
  | .portB => .trigger
  | .nandCmd => .trigger
  | .nandAddrLo => .trigger
  | .nandAddrHi => .trigger
  | .csCtrl => .trigger
  | .waitEnter => .trigger
  | .irqStatus => .computed
  | .irqAck => .trigger
  | .irqEnable => .storage
  | .extra _ => .storage

/-- Whether a register is a computed one, which holds no value (spec/10_state.md R42): a base register by its kind, an
EXTRA_REGS register by its entry's. -/
def isComputed (cfg : Config) (r : Reg) : Bool :=
  match r with
  | .extra k => (cfg.extraRegs[k]?).any fun e => e.kind == .computed
  | r => baseKind r == .computed

/-- `RESET_VALUE(r)` (spec/70_reset_and_hazards.md R322) of a storage or trigger register; `Undefined` where the configuration
lists none. A computed register has none. -/
def resetValue (cfg : Config) (r : Reg) : Cell :=
  match if isComputed cfg r then none else cfg.resetValues.find? (fun p => p.1 == r) with
  | some p => .val p.2
  | none => .undef

/-- Every DMA parameter register. -/
def dmaParamRegs : List Reg :=
  [.dmaP 0 .p0, .dmaP 0 .p1, .dmaP 1 .p0, .dmaP 1 .p1, .dmaP 2 .p0, .dmaP 2 .p1, .dmaP 3 .p0, .dmaP 3 .p1,
   .dmaP 4 .p0, .dmaP 4 .p1, .dmaP 5 .p0, .dmaP 5 .p1, .dmaP 6 .p0, .dmaP 6 .p1]

/-- Every named base register but the reserved and the DMA parameter registers. -/
def namedRegs : List Reg :=
  [.bankCtrl, .rndStatus, .dmaTrigger, .dmaStatus, .portA, .portB, .nandCmd, .nandAddrLo, .nandAddrHi, .csCtrl,
   .waitEnter, .irqStatus, .irqAck, .irqEnable]

/-- Every register of the base table (R106). -/
def baseRegs (cfg : Config) : List Reg :=
  namedRegs ++ dmaParamRegs ++ (List.range cfg.offs.rsv.length).map Reg.rsv

/-- `OFF(r)` (R106); for the register of an EXTRA_REGS entry, the entry's offset (R217). -/
def regOffset (cfg : Config) (r : Reg) : Word :=
  match r with
  | .bankCtrl => cfg.offs.bankCtrl
  | .rsv k => cfg.offs.rsv.getD k 0
  | .rndStatus => cfg.offs.rndStatus
  | .dmaP c .p0 => cfg.offs.dmaP0.get c
  | .dmaP c .p1 => cfg.offs.dmaP1.get c
  | .dmaTrigger => cfg.offs.dmaTrigger
  | .dmaStatus => cfg.offs.dmaStatus
  | .portA => cfg.offs.portA
  | .portB => cfg.offs.portB
  | .nandCmd => cfg.offs.nandCmd
  | .nandAddrLo => cfg.offs.nandAddrLo
  | .nandAddrHi => cfg.offs.nandAddrHi
  | .csCtrl => cfg.offs.csCtrl
  | .waitEnter => cfg.offs.waitEnter
  | .irqStatus => cfg.offs.irqStatus
  | .irqAck => cfg.offs.irqAck
  | .irqEnable => cfg.offs.irqEnable
  | .extra k => ((cfg.extraRegs[k]?).map ExtraReg.off).getD 0

/-- What `Lookup(off)` finds (R200). -/
inductive Descriptor where
  | unmapped
  | base (r : Reg)
  | extra (k : Nat) (e : ExtraReg)
deriving DecidableEq, Repr

/-- The first entry of EXTRA_REGS at an offset, with its number, counting from `k`. -/
def findExtra (off : Word) : Nat → List ExtraReg → Option (Nat × ExtraReg)
  | _, [] => none
  | k, e :: rest => if e.off = off then some (k, e) else findExtra off (k + 1) rest

/-- `Lookup(off)` (R200): "an entry at the offset of a base register replaces it" (R217). -/
def lookup (cfg : Config) (off : Word) : Descriptor :=
  match findExtra off 0 cfg.extraRegs with
  | some (k, e) => .extra k e
  | none =>
    match (baseRegs cfg).find? (fun r => regOffset cfg r == off) with
    | some r => .base r
    | none => .unmapped

/-- `ISA_EXEC(pc, w)` (spec/40_engine.md R136): the program of the first entry that matches, none where the word is
unmodelled. -/
def isaExec (cfg : Config) (pc w : Word) : Option (Prog IsaPrim Nat) :=
  (cfg.isa.find? (fun e => w &&& e.wMask == e.wMatch && pc &&& e.pcMask == e.pcMatch)).map IsaEntry.prog

/-! ## Expressions -/

/-- What an expression may read: the address and word a program was selected by, and the results so far. -/
structure Scope where
  pc   : Word
  word : Word
  vals : List Word
deriving DecidableEq, Repr

/-- The word a truth value stands for. -/
def wordOfBool (b : Bool) : Word := if b then 1 else 0

/-- The value of an expression. Arithmetic wraps modulo 2^16 (spec/00_scope.md R15). -/
def evalExpr (sc : Scope) : Expr → Word
  | .lit v => v
  | .pc => sc.pc
  | .word => sc.word
  | .var k => sc.vals.getD k 0
  | .not a => ~~~ (evalExpr sc a)
  | .and a b => evalExpr sc a &&& evalExpr sc b
  | .or a b => evalExpr sc a ||| evalExpr sc b
  | .xor a b => evalExpr sc a ^^^ evalExpr sc b
  | .add a b => evalExpr sc a + evalExpr sc b
  | .sub a b => evalExpr sc a - evalExpr sc b
  | .shl a n => evalExpr sc a <<< n
  | .shr a n => evalExpr sc a >>> n
  | .eq a b => wordOfBool (evalExpr sc a == evalExpr sc b)
  | .ult a b => wordOfBool (decide (evalExpr sc a < evalExpr sc b))
  | .ite c t e => if evalExpr sc c = 0 then evalExpr sc e else evalExpr sc t

/-! ## Functions of the configuration (spec/00_scope.md R12) -/

/-- The value of a function of the configuration at its arguments. -/
def applyExpr (e : Expr) (args : List Word) : Word := evalExpr { pc := 0, word := 0, vals := args } e

/-- `INT_VECTOR(l, v)` (spec/60_exceptions.md R278). -/
def intVector (cfg : Config) (l : Level) (v : Word) : Word :=
  match l with
  | .l0 => applyExpr cfg.intVector.l0 [v]
  | .l1 => applyExpr cfg.intVector.l1 [v]
  | .l2 => applyExpr cfg.intVector.l2 [v]
  | .l3 => applyExpr cfg.intVector.l3 [v]
  | .l4 => applyExpr cfg.intVector.l4 [v]
  | .l5 => applyExpr cfg.intVector.l5 [v]

/-- A region at its arguments. -/
def applyRegion (r : RegionExpr) (args : List Word) : Region := ⟨applyExpr r.lo args, applyExpr r.hi args⟩

/-- `CS_MAP(base, ctrl)` (spec/42_peripheral_bank.md R221). -/
def csMap (cfg : Config) (base ctrl : Word) : CsRegions where
  r0 := applyRegion cfg.csMap.r0 [base, ctrl]
  r1 := applyRegion cfg.csMap.r1 [base, ctrl]
  r2 := applyRegion cfg.csMap.r2 [base, ctrl]
  r3 := applyRegion cfg.csMap.r3 [base, ctrl]
  r4 := applyRegion cfg.csMap.r4 [base, ctrl]

/-- The number whose digits in base 2^16 these are, the least significant first. -/
def natOfDigits : List Word → Nat
  | [] => 0
  | d :: rest => d.toNat + 65536 * natOfDigits rest

/-- `DMA_XFER_LOHI(p0, p1)` (spec/43_dma.md R245): a target word address and a word count. -/
def dmaXferLoHi (cfg : Config) (p0 p1 : Word) : Word × Nat :=
  (applyExpr cfg.dmaXferLoHi.addr [p0, p1], natOfDigits (cfg.dmaXferLoHi.count.map fun e => applyExpr e [p0, p1]))

/-! ## Programs -/

/-- A program run to its end: each call is performed by `perform` and its result joins the results so far. -/
def runProg {π ω : Type} (perform : π → Scope → State → Res Word) : Prog π ω → Scope → State → Res (ω × Scope)
  | .done o, sc, s => .ok (o, sc) s
  | .call p k, sc, s => (perform p sc s).bind fun w s' => runProg perform k { sc with vals := sc.vals ++ [w] } s'
  | .cond c t e, sc, s => if evalExpr sc c = 0 then runProg perform e sc s else runProg perform t sc s

end Sys2Proof.Machine
end

