-- ==== Sys2Proof/Machine/Flags.lean ====
section
/-! DEFINITION. The flag register: its fields, its one write path and its callbacks (spec/10_state.md R33, R34;
spec/41_register_file.md R162 to R164), and the enables it holds (spec/60_exceptions.md R274). -/

namespace Sys2Proof.Machine

/-- Bits 0 and 15, hard-wired high (R33). -/
def frOnes : Word := 0x8001#16

/-- The flag-output callbacks of a write of `v` over `old`: bits 11..14 in ascending order, one for each bit that
changes, with its new level (R163). -/
def flagOuts (old v : Word) : List Event :=
  [(0 : Fin 4), 1, 2, 3].filterMap fun k =>
    if v.getLsbD (11 + k.val) = old.getLsbD (11 + k.val) then none else some (.flagOut k (v.getLsbD (11 + k.val)))

/-- FR_WRITE, the source's `set_flags` (R163): the callbacks, then the commit with bits 0 and 15 forced high. -/
def setFlags (v : Word) (s : State) : State :=
  { s with trace := s.trace ++ flagOuts s.fr v, fr := v ||| frOnes }

/-- The mask of one FR bit. -/
def frBit (i : Fin 16) : Word := 1#16 <<< i.val

/-- `enabled(l)` (R274): L0 always (R275), the others by IEN and their own enable. -/
def enabled (s : State) (l : Level) : Bool :=
  match ieBit s.cfg l with
  | none => true
  | some i => s.fr.getLsbD s.cfg.ienBit.val && s.fr.getLsbD i.val

end Sys2Proof.Machine
end

