-- ==== Sys2Proof/Machine/Ops.lean ====
section
/-! DEFINITION. The shared operations: draws, events and faults (spec/00_scope.md R18, R19), the register file's mutators
(spec/41_register_file.md), the interrupt unit and the aggregator, TAKING AN INTERRUPT and returning from one
(spec/60_exceptions.md), and the external memory behind the decoder (spec/20_memory.md). -/

namespace Sys2Proof.Machine

/-- What needs a RESET before it: PC and SP "are unspecified and may not be read" until then (spec/10_state.md R37; log
entry 11). -/
def afterReset {α : Type} (op : State → Res α) (s : State) : Res α :=
  if s.resetDone then op s else .refused .notYetReset

/-! ## Draws, events, faults -/

/-- `emit E` (R18): the event joins the trace. -/
def emit (e : Event) (s : State) : State := { s with trace := s.trace ++ [e] }

/-- `raise Fault(reason)` (spec/60_exceptions.md R302): the first reason is kept and the operation stops; what it wrote
before stays. -/
def raise {α : Type} (reason : FaultReason) (s : State) : Res α :=
  .fault (.raised reason { s with fault := s.fault.or (some reason) })

/-- The state after one more draw has been taken. -/
def drawn (s : State) : State := { s with draws := s.draws + 1 }

/-- `draw 16-bit` (R18). -/
def drawWord (s : State) : Res Word := .ok (Config.drawWord s.draws) (drawn s)

/-- `draw Bool` (R18). -/
def drawBool (s : State) : Res Bool := .ok (Config.drawBool s.draws) (drawn s)

/-- `CycleCost(n)` (spec/40_engine.md R134): each of the n cycles costs 1 and its EXTEND draw. -/
def cycleCost : Nat → State → Nat × State
  | 0, s => (0, s)
  | n + 1, s =>
    let rest := cycleCost n (drawn s)
    (1 + Config.drawNat s.draws + rest.1, rest.2)

/-! ## Register file -/

/-- AC_READ (R160), which faults on an `Undefined` accumulator (R171). -/
def readAc (i : Fin 4) (s : State) : Res Word :=
  match s.ac.get i with
  | .val w => .ok w s
  | .undef => raise (.readUndefined .ac (BitVec.ofNat 16 i.val)) s

/-- AC[i] <- v (R161). -/
def writeAc (i : Fin 4) (v : Cell) (s : State) : State := { s with ac := s.ac.set i.val v i.isLt }

/-- `clamp` (R165): the low four bits where they are below 10, else 9 where they are odd and 0 where they are even. -/
def clamp (v : Byte) : BitVec 4 :=
  if (v.setWidth 4).toNat < 10 then v.setWidth 4 else if v.getLsbD 0 then 9#4 else 0#4

/-- SP_WRITE (R165). -/
def writeSp (v : Byte) (s : State) : State := { s with sp := clamp v }

/-- STK[j], where j is a slot. -/
def stkSlot (s : State) (j : BitVec 4) : Cell := s.stk[j.toNat]?.getD .undef

/-- STK[j] <- v, where j is a slot. -/
def writeStk (j : BitVec 4) (v : Cell) (s : State) : State := { s with stk := s.stk.setIfInBounds j.toNat v }

/-- `raise Interrupt(1)` (spec/60_exceptions.md R272): the stack wrap event (R169). -/
def raiseStackLevel (s : State) : State := { s with pending := { s.pending with l1 := true } }

/-- STACK_PUSH (R167). -/
def push (v : Word) (s : State) : State :=
  let s := if s.sp = 9#4 then raiseStackLevel s else s
  writeSp (s.sp.setWidth 8 + 1) (writeStk s.sp (.val v) s)

/-- SP moved down by one, with the underflow event of R168. -/
def popPointer (s : State) : State :=
  let s := if s.sp = 0#4 then raiseStackLevel s else s
  writeSp (s.sp.setWidth 8 - 1) s

/-- STACK_POP (R168). -/
def pop (s : State) : Res Word :=
  let s := popPointer s
  match stkSlot s s.sp with
  | .val w => .ok w s
  | .undef => raise (.readUndefined .stk (s.sp.setWidth 16)) s

/-- PC_WRITE (R172): `npc <- v`. -/
def writeNpc (v : Word) (s : State) : State := { s with npc := some v }

/-! ## Interrupt unit and aggregator -/

/-- The pending latch of a level; L2 has none (spec/10_state.md R38). -/
def pendingOf (p : Pending) (l : Level) : Bool :=
  match l with
  | .l0 => p.l0
  | .l1 => p.l1
  | .l2 => false
  | .l3 => p.l3
  | .l4 => p.l4
  | .l5 => p.l5

/-- The latches with the latch of `l` at `b`. -/
def setPending (p : Pending) (l : Level) (b : Bool) : Pending :=
  match l with
  | .l0 => { p with l0 := b }
  | .l1 => { p with l1 := b }
  | .l2 => p
  | .l3 => { p with l3 := b }
  | .l4 => { p with l4 := b }
  | .l5 => { p with l5 := b }

/-- The enables of the aggregator's sources, IRQ_ENABLE (R293). A restored snapshot may leave it `Undefined`
(spec/70_reset_and_hazards.md R326), and then the spec states no enables: a free value, log entry 34. -/
def sourceEnables (s : State) : Word :=
  match s.bank.irqEnable with
  | .val w => w
  | .undef => Config.freeIrqEnable

/-- `AGG_OUT` (R293): some source is pending and enabled. -/
def aggOut (s : State) : Bool := s.apend &&& (sourceEnables s).setWidth 4 != 0#4

/-- `req(l)` (R273). -/
def requested (s : State) (l : Level) : Bool :=
  match l with
  | .l2 => aggOut s
  | l => pendingOf s.pending l

/-- `Arbitrate()` (R276). -/
def arbitrate (s : State) : Option Level := s.cfg.arbOrder.find? fun l => requested s l && enabled s l

/-- The source the vector names: the first of 0, 1, 2, 3 that is pending and enabled (R294, R295). -/
def aggSource (s : State) : Option Nat :=
  [0, 1, 2, 3].find? fun k => s.apend.getLsbD k && (sourceEnables s).getLsbD k

/-- AGG_VECTOR_FETCH (R294). Where no source is pending and enabled the spec states no vector: a free value, log
entry 20. -/
def aggVector (s : State) : Word × State :=
  match aggSource s with
  | some k => (BitVec.ofNat 16 k, s)
  | none => (Config.freeVector s.draws, drawn s)

/-- AGG_DMA_DONE (R292). -/
def aggDmaDone (s : State) : State := { s with apend := s.apend ||| 0b0100#4 }

/-- TAKING AN INTERRUPT: INT_ENTRY(l) (R277). The latch is acknowledged, the wait state ends, PC is pushed, IEN is
cleared through FR_WRITE, the aggregator supplies the vector of L2, and PC goes to INT_VECTOR(l, v). -/
def takeInterrupt (l : Level) (s : State) : State :=
  let s := { s with pending := setPending s.pending l false, waiting := false }
  let s := push s.pc s
  let s := setFlags (s.fr &&& ~~~ (frBit s.cfg.ienBit)) s
  let v := match l with
    | .l2 => aggVector s
    | _ => (0#16, s)
  let s := emit (.intAck l v.1) v.2
  { s with pc := intVector s.cfg l v.1 }

/-- RETURNING FROM ONE: INT_RETURN (R279). The popped word becomes the next PC and IEN is set through FR_WRITE. -/
def returnFromInterrupt (s : State) : Res Word :=
  (pop s).bind fun t s => .ok t (setFlags (s.fr ||| frBit s.cfg.ienBit) (writeNpc t s))

/-! ## The decoder and external memory -/

/-- Where an access goes (spec/20_memory.md R73). -/
inductive Place where
  | window (off : Word)
  | external
deriving DecidableEq, Repr

/-- `Decode(a)` (R73). -/
def decodeAddr (cfg : Config) (a : Word) : Place :=
  if cfg.periphBase.toNat ≤ a.toNat ∧ a.toNat < cfg.periphBase.toNat + cfg.periphSize then .window (a - cfg.periphBase)
  else .external

/-- `MemReadExt(a)` (R75). -/
def readExt (a : Word) (s : State) : Res Word :=
  match memKind s.cfg a with
  | .ram => .ok (Memory.readWord s.mem a) s
  | .rom => .ok (Memory.readWord s.cfg.memInit a) s
  | .io => drawWord s

/-- `MemWriteExt(a, v)` (R75). -/
def writeExt (a v : Word) (s : State) : State :=
  match memKind s.cfg a with
  | .ram => { s with mem := Memory.writeWord s.mem a v }
  | .rom => s
  | .io => emit (.memEvent a v) s

/-- `MemRead(ba, 8)` (R81): a window word faults (R77), and the byte is the word's lane. -/
def readByte (ba : BitVec 17) (s : State) : Res Byte :=
  match decodeAddr s.cfg (wordOfByteAddr ba) with
  | .window _ => raise (.periphByteAccess ba) s
  | .external =>
    (readExt (wordOfByteAddr ba) s).bind fun w s => .ok (if ba.getLsbD 0 then laneHi w else laneLo w) s

/-- `MemWrite(ba, 8, b)` (R81). -/
def writeByte (ba : BitVec 17) (b : Byte) (s : State) : Res Unit :=
  match decodeAddr s.cfg (wordOfByteAddr ba) with
  | .window _ => raise (.periphByteAccess ba) s
  | .external =>
    match memKind s.cfg (wordOfByteAddr ba) with
    | .ram => .ok () { s with mem := Memory.write s.mem ba.toNat b }
    | .rom => .ok () s
    | .io => .ok () (emit (.memEventByte ba b) s)

/-- `Fetch(a)` (R79), which faults in the window (R78). -/
def fetchWord (a : Word) (s : State) : Res Word :=
  match decodeAddr s.cfg a with
  | .window _ => raise (.fetchFromWindow a) s
  | .external => readExt a s

/-! ## Performing an operation

Every operation of spec/30_encoding.md R102 is available at every boundary (spec/60_exceptions.md R300), but on a faulted
machine (R303) and, where it reads PC or SP or is RUN or SAVE, before the first RESET (spec/10_state.md R37). -/

/-- The outcome of an operation that answers a value: the value becomes the state's `result`. -/
def Res.outcome {α : Type} (x : Res α) (result : α → Result) : Host.Outcome State Fault Refusal :=
  match x with
  | .ok v s => .next { s with result := result v }
  | .fault r => .fault r
  | .refused r => .refused r

/-- An operation performed on a machine that has not faulted (R303; log entry 10). -/
def perform {α : Type} (op : State → Res α) (result : α → Result) (s : State) : Host.Outcome State Fault Refusal :=
  if s.fault.isSome then .refused .faultedMachine else (op s).outcome result

/-- An operation that also needs a RESET before it (spec/10_state.md R37; log entry 11). -/
def performAfterReset {α : Type} (op : State → Res α) (result : α → Result) (s : State) :
    Host.Outcome State Fault Refusal :=
  perform (afterReset op) result s

/-- The result of an operation that returns nothing. -/
def noResult (_ : Unit) : Result := .none

end Sys2Proof.Machine
end

