-- ==== Sys2Proof/Machine/Dma.lean ====
section
/-! DEFINITION. The DMA controller (spec/43_dma.md): its parameter words, its transfer and its trigger, and the meanings of
DMA_WRITE_PARAM, DMA_READ_PARAM and DMA_TRIGGER. -/

namespace Sys2Proof.Machine

/-- The state with channel c replaced. -/
def setChannel (c : Fin 7) (ch : Channel) (s : State) : State := { s with dma := s.dma.set c.val ch c.isLt }

/-- The cell of a parameter word. -/
def paramCell (s : State) (c : Fin 7) (slot : Slot) : Cell :=
  match slot with
  | .p0 => (s.dma.get c).p0
  | .p1 => (s.dma.get c).p1

/-- DMA_WRITE_PARAM (R241), accepted whatever busy[c] is. -/
def writeParam (c : Fin 7) (slot : Slot) (v : Cell) (s : State) : State :=
  match slot with
  | .p0 => setChannel c { s.dma.get c with p0 := v } s
  | .p1 => setChannel c { s.dma.get c with p1 := v } s

/-- DMA_READ_PARAM (R242). -/
def readParam (c : Fin 7) (slot : Slot) (s : State) : Res Word :=
  match paramCell s c slot with
  | .val w => .ok w s
  | .undef => raise (.readUndefined .periph (regOffset s.cfg (.dmaP c slot))) s

/-- The words of a transfer of `n` words to word address `t` and on, in ascending order (R245). -/
def transferWords (c : Fin 7) : Nat → Word → State → Res Unit
  | 0, _, s => .ok () s
  | n + 1, t, s =>
    (drawWord s).bind fun w s =>
      match decodeAddr s.cfg t with
      | .window _ => raise (.dmaIntoWindow c t) s
      | .external => transferWords c n (t + 1) (writeExt t w s)

/-- `DmaTransfer(c)` (R245). -/
def dmaTransfer (c : Fin 7) (s : State) : Res Unit :=
  (readParam c .p0 s).bind fun p0 s =>
    (readParam c .p1 s).bind fun p1 s =>
      let target := match s.cfg.dmaLayout with
        | .addrLen => (p0, p1.toNat)
        | .addrLoHi => dmaXferLoHi s.cfg p0 p1
      transferWords c target.2 target.1 (emit (.nandRead c target.2) s)

/-- A trigger of a busy channel is rejected: err[c] <- 1 and nothing else (R244). -/
def rejectTrigger (c : Fin 7) (s : State) : State := setChannel c { s.dma.get c with err := true } s

/-- An accepted trigger: done and err cleared, busy set (R244). -/
def beginTransfer (c : Fin 7) (s : State) : State :=
  setChannel c { s.dma.get c with done := false, err := false, busy := true } s

/-- A completion: busy cleared, done set, the aggregator's dma source pending (R244, spec/60_exceptions.md R292). -/
def endTransfer (c : Fin 7) (s : State) : State :=
  aggDmaDone (setChannel c { s.dma.get c with busy := false, done := true } s)

/-- DMA_TRIGGER of channel c, the spec's `DMA_TRIGGER_CH(c)` (R244). -/
def triggerChannel (c : Fin 7) (s : State) : Res Unit :=
  if (s.dma.get c).busy then .ok () (rejectTrigger c s)
  else (dmaTransfer c (beginTransfer c s)).bind fun _ s => .ok () (endTransfer c s)

/-- DMA_STATUS as it reads (R246): done[c] in bit c, err[c] in bit 8 + c. -/
def dmaStatusWord (s : State) : Word :=
  [(0 : Fin 7), 1, 2, 3, 4, 5, 6].foldl (fun acc c =>
    acc ||| (if (s.dma.get c).done then 1#16 <<< c.val else 0) ||| (if (s.dma.get c).err then 1#16 <<< (8 + c.val) else 0)) 0

/-- DMA_WRITE_PARAM (R241); c = 7 is refused (spec/30_encoding.md R103). -/
def execDmaWriteParam (c : BitVec 3) (slot : BitVec 1) (v : Word) (s : State) : Host.Outcome State Fault Refusal :=
  perform (fun s => match channelOf c with
    | some c => .ok () (writeParam c (slotOf slot) (.val v) s)
    | none => .refused .refusedOperand) noResult s

/-- DMA_READ_PARAM (R242); c = 7 is refused. -/
def execDmaReadParam (c : BitVec 3) (slot : BitVec 1) (s : State) : Host.Outcome State Fault Refusal :=
  perform (fun s => match channelOf c with
    | some c => readParam c (slotOf slot) s
    | none => .refused .refusedOperand) Result.word s

/-- DMA_TRIGGER (R244); c = 7 is refused. -/
def execDmaTrigger (c : BitVec 3) (s : State) : Host.Outcome State Fault Refusal :=
  perform (fun s => match channelOf c with
    | some c => triggerChannel c s
    | none => .refused .refusedOperand) noResult s

end Sys2Proof.Machine
end

