-- ==== Sys2Proof/Machine/Bank.lean ====
section
/-! DEFINITION. The peripheral register bank and the chip-select router (spec/42_peripheral_bank.md): the registers, their
read and write rules, EXTRA_REGS, the data path over the decoder, and the meanings of PERIPH_READ, PERIPH_WRITE,
CS_RECOMPUTE, WAIT_ENTER and AGG_VECTOR_FETCH. -/

namespace Sys2Proof.Machine

/-! ## The cells of the bank -/

/-- `preg[r]` (spec/10_state.md R42). Computed registers hold nothing. -/
def getReg (r : Reg) (s : State) : Cell :=
  match r with
  | .bankCtrl => s.bank.bankCtrl
  | .rsv k => s.bank.rsv.getD k .undef
  | .rndStatus => .undef
  | .dmaP c slot => paramCell s c slot
  | .dmaTrigger => s.bank.dmaTrigger
  | .dmaStatus => .undef
  | .portA => s.bank.portA
  | .portB => s.bank.portB
  | .nandCmd => s.bank.nandCmd
  | .nandAddrLo => s.bank.nandAddrLo
  | .nandAddrHi => s.bank.nandAddrHi
  | .csCtrl => s.bank.csCtrl
  | .waitEnter => s.bank.waitEnter
  | .irqStatus => .undef
  | .irqAck => s.bank.irqAck
  | .irqEnable => s.bank.irqEnable
  | .extra k => s.bank.extra.getD k .undef

/-- `preg[r] <- v`. A computed register has no cell, so that nothing is written. -/
def setReg (r : Reg) (v : Cell) (s : State) : State :=
  match r with
  | .bankCtrl => { s with bank := { s.bank with bankCtrl := v } }
  | .rsv k => { s with bank := { s.bank with rsv := s.bank.rsv.set k v } }
  | .rndStatus => s
  | .dmaP c slot => writeParam c slot v s
  | .dmaTrigger => { s with bank := { s.bank with dmaTrigger := v } }
  | .dmaStatus => s
  | .portA => { s with bank := { s.bank with portA := v } }
  | .portB => { s with bank := { s.bank with portB := v } }
  | .nandCmd => { s with bank := { s.bank with nandCmd := v } }
  | .nandAddrLo => { s with bank := { s.bank with nandAddrLo := v } }
  | .nandAddrHi => { s with bank := { s.bank with nandAddrHi := v } }
  | .csCtrl => { s with bank := { s.bank with csCtrl := v } }
  | .waitEnter => { s with bank := { s.bank with waitEnter := v } }
  | .irqStatus => s
  | .irqAck => { s with bank := { s.bank with irqAck := v } }
  | .irqEnable => { s with bank := { s.bank with irqEnable := v } }
  | .extra k =>
    { s with bank := { s.bank with
        extra := if isComputed s.cfg (.extra k) then s.bank.extra else s.bank.extra.set k v } }

/-- A window read of a cell: "a read that would return `Undefined` raises `Fault(ReadUndefined(PERIPH, off))`" (R201). -/
def readCell (off : Word) (c : Cell) (s : State) : Res Word :=
  match c with
  | .val w => .ok w s
  | .undef => raise (.readUndefined .periph off) s

/-! ## Actions -/

/-- CS_RECOMPUTE (R221). Where CS_CTRL is `Undefined` the spec states no control bits: a free value, log entry 19. -/
def csRecompute (s : State) : State :=
  let ctrl := match s.bank.csCtrl with
    | .val w => (w, s)
    | .undef => (Config.freeCsCtrl s.draws, drawn s)
  let r := csMap ctrl.2.cfg ctrl.2.cfg.csBase ctrl.1
  emit (.csRemap r) { ctrl.2 with csRegions := some r }

/-- WAIT_ENTER (spec/40_engine.md R150). -/
def enterWait (s : State) : State := { s with waiting := true }

/-- The action of IRQ_ACK (R209): the pending bits set in v[3:0] clear. -/
def ackSources (v : Word) (s : State) : State := { s with apend := s.apend &&& ~~~ (v.setWidth 4) }

/-- The action of the DMA_TRIGGER register (spec/43_dma.md R243): channel v[2:0]; 7 names none. -/
def triggerByWrite (v : Word) (s : State) : Res Unit :=
  match channelOf (v.setWidth 3) with
  | some c => triggerChannel c s
  | none => .ok () s

/-! ## Base registers -/

/-- What a base register's read returns (R201, R205 to R214). -/
def readBase (r : Reg) (off : Word) (s : State) : Res Word :=
  match r with
  | .bankCtrl => readCell off (getReg .bankCtrl s) s
  | .rsv k => readCell off (getReg (.rsv k) s) s
  | .rndStatus =>
    match s.cfg.nondetMode with
    | .draw => drawWord s
    | .fixed => .ok s.cfg.rndFixed s
  | .dmaP c slot => readParam c slot s
  | .dmaTrigger => readCell off (getReg .dmaTrigger s) s
  | .dmaStatus => .ok (dmaStatusWord s) s
  | .portA => drawWord s
  | .portB => drawWord s
  | .nandCmd => readCell off (getReg .nandCmd s) s
  | .nandAddrLo => readCell off (getReg .nandAddrLo s) s
  | .nandAddrHi => readCell off (getReg .nandAddrHi s) s
  | .csCtrl => readCell off (getReg .csCtrl s) s
  | .waitEnter => readCell off (getReg .waitEnter s) s
  | .irqStatus => .ok (s.apend.setWidth 16) s
  | .irqAck => readCell off (getReg .irqAck s) s
  | .irqEnable => readCell off (getReg .irqEnable s) s
  | .extra k => readCell off (getReg (.extra k) s) s

/-- What a base register's write does (R202, R205 to R218): storage stores, a trigger stores and then acts, and a
computed register ignores it (R206). -/
def writeBase (r : Reg) (v : Word) (s : State) : Res Unit :=
  match r with
  | .bankCtrl => .ok () (setReg .bankCtrl (.val v) s)
  | .rsv k => .ok () (setReg (.rsv k) (.val v) s)
  | .rndStatus => .ok () s
  | .dmaP c slot => .ok () (writeParam c slot (.val v) s)
  | .dmaTrigger => triggerByWrite v (setReg .dmaTrigger (.val v) s)
  | .dmaStatus => .ok () s
  | .portA => .ok () (emit (.portOut .a v) (setReg .portA (.val v) s))
  | .portB => .ok () (emit (.portOut .b v) (setReg .portB (.val v) s))
  | .nandCmd => .ok () (emit (.nandWrite .cmd v) (setReg .nandCmd (.val v) s))
  | .nandAddrLo => .ok () (emit (.nandWrite .addrLo v) (setReg .nandAddrLo (.val v) s))
  | .nandAddrHi => .ok () (emit (.nandWrite .addrHi v) (setReg .nandAddrHi (.val v) s))
  | .csCtrl => .ok () (csRecompute (setReg .csCtrl (.val v) s))
  | .waitEnter => .ok () (enterWait (setReg .waitEnter (.val v) s))
  | .irqStatus => .ok () s
  | .irqAck => .ok () (ackSources v (setReg .irqAck (.val v) s))
  | .irqEnable => .ok () (setReg .irqEnable (.val v) s)
  | .extra k => .ok () (setReg (.extra k) (.val v) s)

/-! ## The primitives of a program (spec/40_engine.md R139)

The data path, `rd` and `wr`, and `FETCH(PC + k)`, `ft`, are arguments: an instruction uses the whole data path and counts
its words (R137); a bank action uses one that says how deep its accesses are nested, and is no instruction. What reads PC or SP
needs a RESET before it. -/

/-- The low bits of an expression's value. -/
def lowBits (n : Nat) (sc : Scope) (e : Expr) : BitVec n := (evalExpr sc e).setWidth n

/-- The byte address of a word address and a lane. -/
def scopeByteAddr (sc : Scope) (a lane : Expr) : BitVec 17 := byteAddr (evalExpr sc a) ((evalExpr sc lane).getLsbD 0)

/-- JC_READ (spec/40_engine.md R142): j = 3 is refused (spec/30_encoding.md R103). -/
def readJump (j : BitVec 2) (s : State) : Res Bool := if j = 3#2 then .refused .refusedOperand else drawBool s

/-- `FETCH(PC + k)` (R137): the fetch, and the instruction's length 1 + the largest k so far. R137 gives k = 1, 2, ... only; that
k = 0 reads the instruction's own word again and leaves the length is the model's choice. DESIGN CHOICE, log entry 37. -/
def fetchFurther (k : Nat) (s : State) : Res Word :=
  fetchWord (s.pc + BitVec.ofNat 16 k) { s with ilen := max s.ilen (k + 1) }

/-- A primitive performed; what returns nothing, INT_RETURN among them (spec/60_exceptions.md R279), gives 0. -/
def performIsa (rd : Word → State → Res Word) (wr : Word → Word → State → Res Unit) (ft : Nat → State → Res Word)
    (p : IsaPrim) (sc : Scope) (s : State) : Res Word :=
  match p with
  | .acRead i => readAc (acIndex (lowBits 2 sc i)) s
  | .acWrite i v => .ok 0 (writeAc (acIndex (lowBits 2 sc i)) (.val (evalExpr sc v)) s)
  | .pcWrite v => .ok 0 (writeNpc (evalExpr sc v) s)
  | .frRead => .ok s.fr s
  | .frWrite v => .ok 0 (setFlags (evalExpr sc v) s)
  | .spRead => afterReset (fun s => .ok (s.sp.setWidth 16) s) s
  | .spWrite v => .ok 0 (writeSp (lowBits 8 sc v) s)
  | .stackPush v => afterReset (fun s => .ok 0 (push (evalExpr sc v) s)) s
  | .stackPop => afterReset pop s
  | .intReturn => afterReset (fun s => (returnFromInterrupt s).bind fun _ s => .ok 0 s) s
  | .jcRead j => (readJump (lowBits 2 sc j) s).bind fun b s => .ok (wordOfBool b) s
  | .memRead16 a => rd (evalExpr sc a) s
  | .memWrite16 a v => (wr (evalExpr sc a) (evalExpr sc v) s).bind fun _ s => .ok 0 s
  | .memRead8 a lane => (readByte (scopeByteAddr sc a lane) s).bind fun b s => .ok (b.setWidth 16) s
  | .memWrite8 a lane b => (writeByte (scopeByteAddr sc a lane) (lowBits 8 sc b) s).bind fun _ s => .ok 0 s
  | .fetch k => afterReset (ft k) s

/-! ## EXTRA_REGS (R217)

An action may access the window, and thereby cause the action of another entry, or its own again. -/

/-- Whether a register is one that EXTRA_REGS adds. -/
def isExtra (r : Reg) : Bool :=
  match r with
  | .extra _ => true
  | _ => false

/-- A register read as the window reads it: a base register by its own rule, also where an entry overrides it, and an
EXTRA_REGS register over the data path `rd`. -/
def readRegister (rd : Word → State → Res Word) (r : Reg) (s : State) : Res Word :=
  if isExtra r then rd (s.cfg.periphBase + regOffset s.cfg r) s else readBase r (regOffset s.cfg r) s

/-- The write beside `readRegister`. -/
def writeRegister (wr : Word → Word → State → Res Unit) (r : Reg) (v : Word) (s : State) : Res Unit :=
  if isExtra r then wr (s.cfg.periphBase + regOffset s.cfg r) v s else writeBase r v s

/-- A primitive of a read function, over the data path `rd`; `stored` is the register's own cell. -/
def performRead (rd : Word → State → Res Word) (stored : Cell) (p : ReadPrim) (sc : Scope) (s : State) : Res Word :=
  match p with
  | .stored => readCell sc.pc stored s
  | .regRead r => readRegister rd r s
  | .draw => drawWord s
  | .acRead i => readAc (acIndex (lowBits 2 sc i)) s
  | .frRead => .ok s.fr s
  | .spRead => afterReset (fun s => .ok (s.sp.setWidth 16) s) s
  | .jcRead j => (readJump (lowBits 2 sc j) s).bind fun b s => .ok (wordOfBool b) s
  | .memRead16 a => rd (evalExpr sc a) s
  | .memRead8 a lane => (readByte (scopeByteAddr sc a lane) s).bind fun b s => .ok (b.setWidth 16) s
  | .fetch a => fetchWord (evalExpr sc a) s
  | .dmaReadParam c slot => readParam c slot s
  | .aggVectorFetch => .ok (aggVector s).1 (aggVector s).2

/-- The read function of an entry, run and evaluated. -/
def runRead (rd : Word → State → Res Word) (stored : Cell) (e : ExtraReg) (off : Word) (s : State) : Res Word :=
  (runProg (performRead rd stored) e.read { pc := off, word := 0, vals := [] } s).bind fun r s => .ok (evalExpr r.2 r.1) s

/-- A window read of entry k over the data path `rd`: storage returns the last written value, the others what the read
function gives; a computed register has no stored value. -/
def readExtraOver (rd : Word → State → Res Word) (k : Nat) (e : ExtraReg) (off : Word) (s : State) : Res Word :=
  match e.kind with
  | .storage => readCell off (getReg (.extra k) s) s
  | .trigger => runRead rd (getReg (.extra k) s) e off s
  | .computed => runRead rd .undef e off s

/-- The word read (spec/20_memory.md R76) whose actions read over `rd`. -/
def readOver (rd : Word → State → Res Word) (a : Word) (s : State) : Res Word :=
  match decodeAddr s.cfg a with
  | .external => readExt a s
  | .window off =>
    match lookup s.cfg off with
    | .unmapped => .ok s.cfg.unmappedSentinel s
    | .base r => readBase r off s
    | .extra k e => readExtraOver rd k e off s

/-- The word read nested 2 ^ n deep over `rd`. -/
def readNested : Nat → (Word → State → Res Word) → Word → State → Res Word
  | 0, rd => readOver rd
  | n + 1, rd => readNested n (readNested n rd)

/-- Actions may cause each other 2 ^ `nestingLevels` deep. The spec states no bound; a deeper chain is refused as one without
end (log entry 18). -/
def nestingLevels : Nat := 64

/-- The word read of an action. -/
def actionRead : Word → State → Res Word := readNested nestingLevels fun _ _ => .refused .actionsWithoutEnd

/-- A primitive of a write action, over the word write `wr`. -/
def performBank (wr : Word → Word → State → Res Unit) (p : BankPrim) (sc : Scope) (s : State) : Res Word :=
  match p with
  | .isa p => performIsa actionRead wr (fun k s => fetchWord (s.pc + BitVec.ofNat 16 k) s) p sc s
  | .regRead r => readRegister actionRead r s
  | .regWrite r v => (writeRegister wr r (evalExpr sc v) s).bind fun _ s => .ok 0 s
  | .dmaWriteParam c slot v => .ok 0 (writeParam c slot (.val (evalExpr sc v)) s)
  | .dmaReadParam c slot => readParam c slot s
  | .fetch a => fetchWord (evalExpr sc a) s
  | .dmaTrigger c => (triggerChannel c s).bind fun _ s => .ok 0 s
  | .csRecompute => .ok 0 (csRecompute s)
  | .waitEnter => .ok 0 (enterWait s)
  | .aggVectorFetch => .ok (aggVector s).1 (aggVector s).2

/-- The write action of an entry. -/
def runWrite (wr : Word → Word → State → Res Unit) (e : ExtraReg) (off v : Word) (s : State) : Res Unit :=
  (runProg (performBank wr) e.write { pc := off, word := v, vals := [] } s).bind fun _ s => .ok () s

/-- A window write of entry k over the word write `wr`: storage and trigger store and then act, a computed register ignores it
(R206). -/
def writeExtraOver (wr : Word → Word → State → Res Unit) (k : Nat) (e : ExtraReg) (off v : Word) (s : State) : Res Unit :=
  match e.kind with
  | .storage => runWrite wr e off v (setReg (.extra k) (.val v) s)
  | .trigger => runWrite wr e off v (setReg (.extra k) (.val v) s)
  | .computed => .ok () s

/-- The word write (spec/20_memory.md R76) whose actions write over `wr`. -/
def writeOver (wr : Word → Word → State → Res Unit) (a v : Word) (s : State) : Res Unit :=
  match decodeAddr s.cfg a with
  | .external => .ok () (writeExt a v s)
  | .window off =>
    match lookup s.cfg off with
    | .unmapped => .ok () s
    | .base r => writeBase r v s
    | .extra k e => writeExtraOver wr k e off v s

/-- The word write nested 2 ^ n deep over `wr`. -/
def writeNested : Nat → (Word → Word → State → Res Unit) → Word → Word → State → Res Unit
  | 0, wr => writeOver wr
  | n + 1, wr => writeNested n (writeNested n wr)

/-- The word write of an action. -/
def actionWrite : Word → Word → State → Res Unit := writeNested nestingLevels fun _ _ _ => .refused .actionsWithoutEnd

/-- A window read of entry k. -/
def readExtra (k : Nat) (e : ExtraReg) (off : Word) (s : State) : Res Word := readExtraOver actionRead k e off s

/-- A window write of entry k. -/
def writeExtra (k : Nat) (e : ExtraReg) (off v : Word) (s : State) : Res Unit := writeExtraOver actionWrite k e off v s

/-! ## The bank and the data path -/

/-- PERIPH_READ (R201). -/
def readPeriph (off : Word) (s : State) : Res Word :=
  match lookup s.cfg off with
  | .unmapped => .ok s.cfg.unmappedSentinel s
  | .base r => readBase r off s
  | .extra k e => readExtra k e off s

/-- PERIPH_WRITE (R202). -/
def writePeriph (off v : Word) (s : State) : Res Unit :=
  match lookup s.cfg off with
  | .unmapped => .ok () s
  | .base r => writeBase r v s
  | .extra k e => writeExtra k e off v s

/-- `MemRead(a, 16)` (spec/20_memory.md R76). -/
def readWord (a : Word) (s : State) : Res Word :=
  match decodeAddr s.cfg a with
  | .window off => readPeriph off s
  | .external => readExt a s

/-- `MemWrite(a, 16, v)` (spec/20_memory.md R76). -/
def writeWord (a v : Word) (s : State) : Res Unit :=
  match decodeAddr s.cfg a with
  | .window off => writePeriph off v s
  | .external => .ok () (writeExt a v s)

/-! ## Meanings -/

/-- PERIPH_READ (R201). -/
def execPeriphRead (off : Word) (s : State) : Host.Outcome State Fault Refusal :=
  perform (readPeriph off) Result.word s

/-- PERIPH_WRITE (R202). -/
def execPeriphWrite (off v : Word) (s : State) : Host.Outcome State Fault Refusal :=
  perform (writePeriph off v) noResult s

/-- CS_RECOMPUTE (R221). -/
def execCsRecompute (s : State) : Host.Outcome State Fault Refusal :=
  perform (fun s => .ok () (csRecompute s)) noResult s

/-- WAIT_ENTER (spec/40_engine.md R150). -/
def execWaitEnter (s : State) : Host.Outcome State Fault Refusal :=
  perform (fun s => .ok () (enterWait s)) noResult s

/-- AGG_VECTOR_FETCH (spec/60_exceptions.md R294). -/
def execAggVectorFetch (s : State) : Host.Outcome State Fault Refusal :=
  perform (fun s => .ok (aggVector s).1 (aggVector s).2) Result.word s

end Sys2Proof.Machine
end

