-- ==== Sys2Proof/Machine/DataPath.lean ====
section
/-! DEFINITION. The meanings of the memory primitives (spec/20_memory.md R76 to R81). -/

namespace Sys2Proof.Machine

/-- MEM_READ16 (R76). -/
def execMemRead16 (a : Word) (s : State) : Host.Outcome State Fault Refusal :=
  perform (readWord a) Result.word s

/-- MEM_WRITE16 (R76). -/
def execMemWrite16 (a v : Word) (s : State) : Host.Outcome State Fault Refusal :=
  perform (writeWord a v) noResult s

/-- MEM_READ8 (R81). -/
def execMemRead8 (ba : BitVec 17) (s : State) : Host.Outcome State Fault Refusal :=
  perform (readByte ba) Result.byte s

/-- MEM_WRITE8 (R81). -/
def execMemWrite8 (ba : BitVec 17) (b : Byte) (s : State) : Host.Outcome State Fault Refusal :=
  perform (writeByte ba b) noResult s

/-- FETCH (R79). -/
def execFetch (a : Word) (s : State) : Host.Outcome State Fault Refusal :=
  perform (fetchWord a) Result.word s

end Sys2Proof.Machine
end

