-- ==== Sys2Proof/Machine/Engine.lean ====
section
/-! DEFINITION. The execution engine (spec/40_engine.md): one CPU instruction, one engine step and the run loop, and the
meanings of INSTR, CPU_WORD, INT_ENTRY, IDLE, STEP and RUN. -/

namespace Sys2Proof.Machine

/-- What ISA_EXEC's programs call: the primitives over the whole data path (R139). -/
def performInstr (p : IsaPrim) (sc : Scope) (s : State) : Res Word := performIsa readWord writeWord fetchFurther p sc s

/-- An instruction begins: npc is not set and its length is one word (R137, R138). -/
def beginInstr (s : State) : State := { s with npc := none, ilen := 1 }

/-- An instruction completes: PC <- npc, where npc is PC + len unless it was set (R138). -/
def endInstr (s : State) : State :=
  { s with pc := s.npc.getD (s.pc + BitVec.ofNat 16 s.ilen), npc := none, ilen := 1 }

/-- INSTR(w) (R141): the nominal cycle count, or the fault `Unmodelled(PC, w)` with no other change (R140). -/
def runInstr (w : Word) (s : State) : Res Nat :=
  match isaExec s.cfg s.pc w with
  | none => raise (.unmodelled s.pc w) s
  | some p =>
    (runProg performInstr p { pc := s.pc, word := w, vals := [] } (beginInstr s)).bind fun r s => .ok r.1 (endInstr s)

/-- A step's cost: its cycles, each stretched by EXTEND (R134). -/
def costOf (n : Nat) (s : State) : Res Nat := .ok (cycleCost n s).1 (cycleCost n s).2

/-- The CPU instruction word w executed at PC, with its cost (R132, R141). -/
def runCpuWord (w : Word) (s : State) : Res Nat := (runInstr w s).bind costOf

/-- STEP (R132): an interrupt entry, an idle step, or the instruction at PC. -/
def engineStep (s : State) : Res Nat :=
  match arbitrate s with
  | some l => costOf s.cfg.intEntryCycles (takeInterrupt l s)
  | none =>
    if s.waiting then costOf s.cfg.idleCycles s
    else (fetchWord s.pc (emit (.debugHook s.pc) s)).bind runCpuWord

/-- The loop of RUN (R133) over at most `fuel` steps. Each step costs at least one cycle where the configuration is well
formed, so that as many steps as the budget has cycles are enough (log entry 21). A fault ends the run with the budget
left at it. The spec gives the operand 32 bits and the running budget no width: it is an integer that does not wrap, DESIGN
CHOICE, log entry 36. -/
def runLoop : Nat → Int → State → Res Int
  | fuel, budget, s =>
    if budget ≤ 0 then .ok budget s
    else match fuel with
      | 0 => .refused .runWithoutEnd
      | fuel + 1 =>
        match engineStep s with
        | .ok c s => runLoop fuel (budget - c) s
        | .fault (.raised reason left) => .fault (.raised reason { left with result := .budget budget })
        | .refused r => .refused r

/-- INSTR (R141): the nominal cycle count is returned. -/
def execInstr (w : Word) (s : State) : Host.Outcome State Fault Refusal :=
  performAfterReset (runInstr w) Result.cycles s

/-- CPU_WORD (R141): the instruction word w, executed at PC as a step of the engine executes it, with its cost. -/
def execCpuWord (w : Word) (s : State) : Host.Outcome State Fault Refusal :=
  performAfterReset (runCpuWord w) Result.cycles s

/-- INT_ENTRY (spec/60_exceptions.md R277); l = 6 and 7 are refused (spec/30_encoding.md R103). -/
def execIntEntry (l : BitVec 3) (s : State) : Host.Outcome State Fault Refusal :=
  performAfterReset (fun s => match levelOf l with
    | some l => .ok () (takeInterrupt l s)
    | none => .refused .refusedOperand) noResult s

/-- IDLE (R151): "no state change". -/
def execIdle (s : State) : Host.Outcome State Fault Refusal :=
  perform (fun s => .ok () s) noResult s

/-- STEP (R132): the step's cost is returned. -/
def execStep (s : State) : Host.Outcome State Fault Refusal :=
  performAfterReset engineStep Result.cycles s

/-- RUN (R133): the budget that is left is returned. -/
def execRun (budget : BitVec 32) (s : State) : Host.Outcome State Fault Refusal :=
  performAfterReset (runLoop budget.toInt.toNat budget.toInt) Result.budget s

end Sys2Proof.Machine
end

