-- ==== Sys2Proof/Machine/HostOps.lean ====
section
/-! DEFINITION. The host's operations: RESET, SAVE and RESTORE (spec/70_reset_and_hazards.md), SIGNAL_INT and AGG_LINE
(spec/60_exceptions.md), DBG_READ and DBG_WRITE (spec/41_register_file.md), and construction (spec/00_scope.md R14,
spec/10_state.md R37). -/

namespace Sys2Proof.Machine

/-! ## Reset -/

/-- The bank after RESET (R320): IRQ_ENABLE 0x0000, every other register at its RESET_VALUE. -/
def resetBank (cfg : Config) : Bank where
  bankCtrl   := resetValue cfg .bankCtrl
  rsv        := (List.range cfg.offs.rsv.length).map fun k => resetValue cfg (.rsv k)
  dmaTrigger := resetValue cfg .dmaTrigger
  portA      := resetValue cfg .portA
  portB      := resetValue cfg .portB
  nandCmd    := resetValue cfg .nandCmd
  nandAddrLo := resetValue cfg .nandAddrLo
  nandAddrHi := resetValue cfg .nandAddrHi
  csCtrl     := resetValue cfg .csCtrl
  waitEnter  := resetValue cfg .waitEnter
  irqAck     := resetValue cfg .irqAck
  irqEnable  := .val 0x0000
  extra      := (List.range cfg.extraRegs.length).map fun k => resetValue cfg (.extra k)

/-- Channel c after RESET (R320): its flags 0, its parameter words at their RESET_VALUE. -/
def resetChannel (cfg : Config) (c : Fin 7) : Channel where
  p0   := resetValue cfg (.dmaP c .p0)
  p1   := resetValue cfg (.dmaP c .p1)
  busy := false
  done := false
  err  := false

/-- The seven channels after RESET. -/
def resetChannels (cfg : Config) : Vector Channel 7 :=
  #v[resetChannel cfg 0, resetChannel cfg 1, resetChannel cfg 2, resetChannel cfg 3, resetChannel cfg 4,
     resetChannel cfg 5, resetChannel cfg 6]

/-- No latch pending. -/
def noPending : Pending := { l0 := false, l1 := false, l3 := false, l4 := false, l5 := false }

/-- RESET(strap) (R320). -/
def resetWith (strap : BitVec 2) (s : State) : State :=
  let s := { s with
    bootMode  := strap
    pending   := noPending
    waiting   := false
    apend     := 0
    bank      := resetBank s.cfg
    dma       := resetChannels s.cfg
    pc        := 0x0000 }
  { setFlags frOnes (writeSp 0 s) with resetDone := true }

/-- RESET, refused on a faulted machine (spec/60_exceptions.md R303). -/
def execReset (strap : BitVec 2) (s : State) : Host.Outcome State Fault Refusal :=
  perform (fun s => .ok () (resetWith strap s)) noResult s

/-! ## Interrupt inputs -/

/-- The last level given to SIGNAL_INT for a level; L1 and L2 have no pin. -/
def lineOf (l : Lines) (lv : Level) : Option Bool :=
  match lv with
  | .l0 => some l.l0
  | .l1 => none
  | .l2 => none
  | .l3 => some l.l3
  | .l4 => some l.l4
  | .l5 => some l.l5

/-- The lines with the line of a level at `b`. -/
def setLine (l : Lines) (lv : Level) (b : Bool) : Lines :=
  match lv with
  | .l0 => { l with l0 := b }
  | .l1 => l
  | .l2 => l
  | .l3 => { l with l3 := b }
  | .l4 => { l with l4 := b }
  | .l5 => { l with l5 := b }

/-- SIGNAL_INT(l, b) of a level with a pin whose last level is `old` (spec/60_exceptions.md R271): a rising edge latches. -/
def signalLine (lv : Level) (old b : Bool) (s : State) : State :=
  { s with
    pending := if b && !old then setPending s.pending lv true else s.pending
    line := setLine s.line lv b }

/-- SIGNAL_INT (R271): refused for l in {1, 2, 6, 7}. -/
def execSignalInt (l : BitVec 3) (b : BitVec 1) (s : State) : Host.Outcome State Fault Refusal :=
  perform (fun s => match levelOf l with
    | none => .refused .refusedOperand
    | some lv =>
      match lineOf s.line lv with
      | none => .refused .levelHasNoPin
      | some old => .ok () (signalLine lv old (levelBit b) s)) noResult s

/-- The last level of a source's line; source 2 has none (R291). -/
def aggLineOf (l : AggLines) (src : BitVec 2) : Option Bool :=
  match src.toNat with
  | 0 => some l.video
  | 1 => some l.audio
  | 3 => some l.internal
  | _ => none

/-- The lines with the line of a source at `b`. -/
def setAggLine (l : AggLines) (src : BitVec 2) (b : Bool) : AggLines :=
  match src.toNat with
  | 0 => { l with video := b }
  | 1 => { l with audio := b }
  | 3 => { l with internal := b }
  | _ => l

/-- AGG_LINE(s, b) of a source whose line's last level is `old` (R291): a rising edge latches. -/
def driveSource (src : BitVec 2) (old b : Bool) (s : State) : State :=
  { s with
    apend := if b && !old then s.apend ||| (1#4 <<< src.toNat) else s.apend
    aline := setAggLine s.aline src b }

/-- AGG_LINE (R291): refused for s = 2. -/
def execAggLine (src : BitVec 2) (b : BitVec 1) (s : State) : Host.Outcome State Fault Refusal :=
  perform (fun s => match aggLineOf s.aline src with
    | none => .refused .sourceIsInternal
    | some old => .ok () (driveSource src old (levelBit b) s)) noResult s

/-! ## Debugger -/

/-- The debug-exported fields, numbered as R181 numbers them. -/
inductive DbgField where
  | pc
  | fr
  | ac (i : Fin 4)
  | sp
  | stk (j : Fin 10)
deriving DecidableEq, Repr

/-- The field a number names; 17..31 name none (spec/30_encoding.md R103). -/
def dbgField (field : BitVec 5) : Option DbgField :=
  if field.toNat = 0 then some .pc
  else if field.toNat = 1 then some .fr
  else if h : 2 ≤ field.toNat ∧ field.toNat ≤ 5 then some (.ac ⟨field.toNat - 2, by omega⟩)
  else if field.toNat = 6 then some .sp
  else if h : 7 ≤ field.toNat ∧ field.toNat ≤ 16 then some (.stk ⟨field.toNat - 7, by omega⟩)
  else none

/-- The value of a field, or the marker (R180). PC and SP may not be read before the first RESET (spec/10_state.md R37). -/
def readField (f : DbgField) (s : State) : Res Cell :=
  match f with
  | .pc => if s.resetDone then .ok (.val s.pc) s else .refused .notYetReset
  | .fr => .ok (.val s.fr) s
  | .ac i => .ok (s.ac.get i) s
  | .sp => if s.resetDone then .ok (.val (s.sp.setWidth 16)) s else .refused .notYetReset
  | .stk j => .ok (s.stk.get j) s

/-- The write of a field (R181). -/
def writeField (f : DbgField) (v : Word) (s : State) : State :=
  match f with
  | .pc => { s with pc := v }
  | .fr => setFlags v s
  | .ac i => writeAc i (.val v) s
  | .sp => writeSp (v.setWidth 8) s
  | .stk j => writeStk (BitVec.ofNat 4 j.val) (.val v) s

/-- DBG_READ (R180), allowed on a faulted machine (spec/60_exceptions.md R303). -/
def execDbgRead (field : BitVec 5) (s : State) : Host.Outcome State Fault Refusal :=
  Res.outcome (match dbgField field with
    | some f => readField f s
    | none => .refused .refusedOperand) Result.cell

/-- DBG_WRITE (R181). -/
def execDbgWrite (field : BitVec 5) (v : Word) (s : State) : Host.Outcome State Fault Refusal :=
  perform (fun s => match dbgField field with
    | some f => .ok () (writeField f v s)
    | none => .refused .refusedOperand) noResult s

/-! ## Save and restore -/

/-- Whether a register has a cell in field 6 of the snapshot: storage and trigger registers other than the DMA parameter
words (R326); an EXTRA_REGS register by its own kind. -/
def isSaved (cfg : Config) (r : Reg) : Bool :=
  match r with
  | .dmaP _ _ => false
  | .extra k => decide (k < cfg.extraRegs.length) && !isComputed cfg (.extra k)
  | r => !isComputed cfg r

/-- A register put in its place in a list that ascends by offset, after those of the same offset. -/
def insertByOffset (cfg : Config) (r : Reg) : List Reg → List Reg
  | [] => [r]
  | q :: rest =>
    if (regOffset cfg r).toNat < (regOffset cfg q).toNat then r :: q :: rest else q :: insertByOffset cfg r rest

/-- The registers of field 6 in ascending `OFF(r)` order (R326). -/
def savedRegs (cfg : Config) : List Reg :=
  ((baseRegs cfg ++ (List.range cfg.extraRegs.length).map Reg.extra).filter (isSaved cfg)).foldl
    (fun acc r => insertByOffset cfg r acc) []

/-- SAVE's snapshot (R326). -/
def takeSnapshot (s : State) : Snapshot where
  pc        := s.pc
  fr        := s.fr
  ac        := s.ac
  sp        := s.sp
  stk       := s.stk
  periph    := (savedRegs s.cfg).map fun r => getReg r s
  dma       := s.dma
  csRegions := s.csRegions
  pending   := s.pending
  line      := s.line
  waiting   := s.waiting
  bootMode  := s.bootMode
  apend     := s.apend
  aline     := s.aline
  fault     := s.fault
  resetDone := s.resetDone

/-- SAVE (R326), allowed on a faulted machine, refused before the first RESET. -/
def execSave (s : State) : Host.Outcome State Fault Refusal :=
  Res.outcome (if s.resetDone then .ok (takeSnapshot s) s else .refused .notYetReset) Result.snapshot

/-- Whether RESTORE accepts a snapshot (R327): SP in 0..9, FR's ones, and field 6 with as many cells as the machine has
registers there, so that it is of the layout. -/
def snapshotFits (cfg : Config) (snap : Snapshot) : Bool :=
  decide (snap.sp.toNat ≤ 9) && snap.fr &&& frOnes == frOnes && snap.periph.length == (savedRegs cfg).length

/-- Each register set to its cell. -/
def setRegs : List Reg → List Cell → State → State
  | r :: rs, c :: cs, s => setRegs rs cs (setReg r c s)
  | _, _, s => s

/-- The state with every field of the snapshot but FR (R327). -/
def loadSnapshot (snap : Snapshot) (s : State) : State :=
  setRegs (savedRegs s.cfg) snap.periph
    { s with
      pc        := snap.pc
      ac        := snap.ac
      sp        := snap.sp
      stk       := snap.stk
      dma       := snap.dma
      csRegions := snap.csRegions
      pending   := snap.pending
      line      := snap.line
      waiting   := snap.waiting
      bootMode  := snap.bootMode
      apend     := snap.apend
      aline     := snap.aline
      fault     := snap.fault
      resetDone := snap.resetDone }

/-- RESTORE (R327): every field but FR, then FR_WRITE. -/
def execRestore (snap : Snapshot) (s : State) : Host.Outcome State Fault Refusal :=
  perform (fun s =>
    if snapshotFits s.cfg snap then .ok () (setFlags snap.fr (loadSnapshot snap s))
    else .refused .illFormedSnapshot) noResult s

/-! ## Construction -/

/-- Whether a program's leaves all satisfy `ok`. -/
def leavesOk {π ω : Type} (ok : ω → Bool) : Prog π ω → Bool
  | .done o => ok o
  | .call _ k => leavesOk ok k
  | .cond _ t e => leavesOk ok t && leavesOk ok e

/-- Whether every element differs from every other. -/
def allDistinct : List Word → Bool
  | [] => true
  | a :: rest => !rest.contains a && allDistinct rest

/-- What construction demands of a configuration (spec/00_scope.md R14; spec/92_eei_decisions.md D51): every
collaborator; distinct offsets, of the base registers and of the EXTRA_REGS entries; every offset below PERIPH_SIZE; the
window inside the address space. And what the parameters' own rules demand: ARB_ORDER a permutation of the levels
(spec/60_exceptions.md R276), n >= 1 in every `Done(n)` (spec/40_engine.md R136), step costs of at least one cycle (log
entry 21), MEM_INIT in the canonical form. It demands nothing of IEN_BIT and IE_BIT(l), for which no rule states a range (log
entry 35), and admits programs that call `FETCH(PC + 0)` (log entry 37). -/
def configOk (cfg : Config) : Bool :=
  Collaborator.all.all (fun c => cfg.collaborators.contains c)
    && allDistinct ((baseRegs cfg).map (regOffset cfg))
    && allDistinct (cfg.extraRegs.map ExtraReg.off)
    && ((baseRegs cfg).map (regOffset cfg) ++ cfg.extraRegs.map ExtraReg.off).all (fun o => decide (o.toNat < cfg.periphSize))
    && decide (cfg.periphBase.toNat + cfg.periphSize ≤ 65536)
    && cfg.arbOrder.length == 6 && [Level.l0, .l1, .l2, .l3, .l4, .l5].all (fun l => cfg.arbOrder.contains l)
    && cfg.isa.all (fun e => leavesOk (fun n => decide (1 ≤ n)) e.prog)
    && decide (1 ≤ cfg.intEntryCycles) && decide (1 ≤ cfg.idleCycles)
    && Memory.wf cfg.memInit

/-- A machine right after construction, before its first RESET (spec/10_state.md R37): FR = 0x8001 without callbacks, AC
and STK `Undefined`, PC and SP unspecified, hidden state zero or as reset leaves it, memory at MEM_INIT. -/
def constructed (cfg : Config) : State where
  cfg       := cfg
  pc        := Config.powerOnPc
  fr        := frOnes
  ac        := Vector.replicate 4 .undef
  sp        := BitVec.ofNat 4 Config.powerOnSp.val
  stk       := Vector.replicate 10 .undef
  npc       := none
  ilen      := 1
  line      := { l0 := false, l3 := false, l4 := false, l5 := false }
  pending   := noPending
  waiting   := false
  bootMode  := 0
  fault     := none
  resetDone := false
  bank      := resetBank cfg
  dma       := resetChannels cfg
  apend     := 0
  aline     := { video := false, audio := false, internal := false }
  csRegions := none
  mem       := cfg.memInit
  inbox     := []
  trace     := []
  result    := .none
  draws     := 0

/-- Construction (spec/00_scope.md R14): no machine exists for an ill-formed configuration. -/
def construct (cfg : Config) : Option State := if configOk cfg then some (constructed cfg) else none

end Sys2Proof.Machine
end

