-- ==== Sys2Proof/Machine/RegisterFile.lean ====
section
/-! DEFINITION. The meanings of the register file's primitives (spec/41_register_file.md), of INT_RETURN
(spec/60_exceptions.md R279) and of JC_READ (spec/40_engine.md R142), each issued by itself at a boundary
(spec/60_exceptions.md R300). -/

namespace Sys2Proof.Machine

/-- AC_READ (R160). -/
def execAcRead (i : BitVec 2) (s : State) : Host.Outcome State Fault Refusal :=
  perform (readAc (acIndex i)) Result.word s

/-- AC_WRITE (R161). -/
def execAcWrite (i : BitVec 2) (v : Word) (s : State) : Host.Outcome State Fault Refusal :=
  perform (fun s => .ok () (writeAc (acIndex i) (.val v) s)) noResult s

/-- PC_WRITE (R172): sets npc; PC takes it when an instruction completes (log entry 9). -/
def execPcWrite (v : Word) (s : State) : Host.Outcome State Fault Refusal :=
  perform (fun s => .ok () (writeNpc v s)) noResult s

/-- FR_READ (R162). -/
def execFrRead (s : State) : Host.Outcome State Fault Refusal :=
  perform (fun s => .ok s.fr s) Result.word s

/-- FR_WRITE (R163). -/
def execFrWrite (v : Word) (s : State) : Host.Outcome State Fault Refusal :=
  perform (fun s => .ok () (setFlags v s)) noResult s

/-- SP_READ (R170). -/
def execSpRead (s : State) : Host.Outcome State Fault Refusal :=
  performAfterReset (fun s => .ok (s.sp.setWidth 16) s) Result.word s

/-- SP_WRITE (R165). -/
def execSpWrite (v : Byte) (s : State) : Host.Outcome State Fault Refusal :=
  perform (fun s => .ok () (writeSp v s)) noResult s

/-- STACK_PUSH (R167). -/
def execStackPush (v : Word) (s : State) : Host.Outcome State Fault Refusal :=
  performAfterReset (fun s => .ok () (push v s)) noResult s

/-- STACK_POP (R168). -/
def execStackPop (s : State) : Host.Outcome State Fault Refusal :=
  performAfterReset pop Result.word s

/-- INT_RETURN (spec/60_exceptions.md R279). -/
def execIntReturn (s : State) : Host.Outcome State Fault Refusal :=
  performAfterReset (fun s => (returnFromInterrupt s).bind fun _ s => .ok () s) noResult s

/-- JC_READ (spec/40_engine.md R142). -/
def execJcRead (j : BitVec 2) (s : State) : Host.Outcome State Fault Refusal :=
  perform (readJump j) Result.bool s

end Sys2Proof.Machine
end

