-- ==== Sys2Proof/Machine/Dispatch.lean ====
section
/-! DEFINITION. One arm per instruction (spec/opcode_table.json): the meaning it has. -/

namespace Sys2Proof.Machine

def exec (i : Instr) (s : State) : Host.Outcome State Fault Refusal :=
  match i with
  | .reset strap => Sys2Proof.Machine.execReset strap s
  | .run budget => Sys2Proof.Machine.execRun budget s
  | .signalInt l b => Sys2Proof.Machine.execSignalInt l b s
  | .aggLine src b => Sys2Proof.Machine.execAggLine src b s
  | .dbgRead field => Sys2Proof.Machine.execDbgRead field s
  | .dbgWrite field v => Sys2Proof.Machine.execDbgWrite field v s
  | .save => Sys2Proof.Machine.execSave s
  | .restore snap => Sys2Proof.Machine.execRestore snap s
  | .step => Sys2Proof.Machine.execStep s
  | .instr w => Sys2Proof.Machine.execInstr w s
  | .intEntry l => Sys2Proof.Machine.execIntEntry l s
  | .idle => Sys2Proof.Machine.execIdle s
  | .acRead k => Sys2Proof.Machine.execAcRead k s
  | .acWrite k v => Sys2Proof.Machine.execAcWrite k v s
  | .pcWrite v => Sys2Proof.Machine.execPcWrite v s
  | .frRead => Sys2Proof.Machine.execFrRead s
  | .frWrite v => Sys2Proof.Machine.execFrWrite v s
  | .spRead => Sys2Proof.Machine.execSpRead s
  | .spWrite v => Sys2Proof.Machine.execSpWrite v s
  | .stackPush v => Sys2Proof.Machine.execStackPush v s
  | .stackPop => Sys2Proof.Machine.execStackPop s
  | .intReturn => Sys2Proof.Machine.execIntReturn s
  | .jcRead j => Sys2Proof.Machine.execJcRead j s
  | .memRead16 a => Sys2Proof.Machine.execMemRead16 a s
  | .memWrite16 a v => Sys2Proof.Machine.execMemWrite16 a v s
  | .memRead8 ba => Sys2Proof.Machine.execMemRead8 ba s
  | .memWrite8 ba b => Sys2Proof.Machine.execMemWrite8 ba b s
  | .fetch a => Sys2Proof.Machine.execFetch a s
  | .periphRead off => Sys2Proof.Machine.execPeriphRead off s
  | .periphWrite off v => Sys2Proof.Machine.execPeriphWrite off v s
  | .dmaWriteParam c slot v => Sys2Proof.Machine.execDmaWriteParam c slot v s
  | .dmaReadParam c slot => Sys2Proof.Machine.execDmaReadParam c slot s
  | .dmaTrigger c => Sys2Proof.Machine.execDmaTrigger c s
  | .csRecompute => Sys2Proof.Machine.execCsRecompute s
  | .aggVectorFetch => Sys2Proof.Machine.execAggVectorFetch s
  | .waitEnter => Sys2Proof.Machine.execWaitEnter s
  | .cpuWord w => Sys2Proof.Machine.execCpuWord w s

end Sys2Proof.Machine
end

