-- ==== Sys2Proof/Machine/Step.lean ====
section
/-! DEFINITION. One step of the machine. "Host operations happen before the next step, in the order the host issues them"
(spec/60_exceptions.md R304): the first operation record of the inbox is decoded and performed; where the inbox is empty,
the engine takes a step (spec/40_engine.md R132) and executes the CPU word at PC. Log entry 5. -/

namespace Sys2Proof.Machine

/-- One step. -/
def step (s : State) : Host.Outcome State Fault Refusal :=
  match s.inbox with
  | [] => execStep s
  | _ :: _ =>
    match decodeRecord s.inbox with
    | .ok (i, rest) => exec i { s with inbox := rest }
    | .error e => .refused (.badRecord e)

/-- `s` with an instruction where the next step takes it (log entries 25 and 26): an operation record alone in the
inbox; a CPU word in memory at PC, with nothing before it in the engine's order (no record, no request, no wait state). -/
def State.withFetchWord (s : State) (nbits w : Nat) : State :=
  match decodeTableWord nbits w with
  | some (.cpuWord v) =>
    { s with
      inbox   := []
      pending := noPending
      apend   := 0
      waiting := false
      mem     := Memory.writeWord s.mem s.pc v }
  | some i => { s with inbox := encode i }
  | none => { s with inbox := tableWordBytes nbits w }

end Sys2Proof.Machine
end

