-- ==== Sys2Proof/Safety.lean ====
section
/-! DEFINITION. The terms of the claims: the invariants of the state, the registers' offsets, the operations that the calls of
a program or an action are, and the absence of a fault. -/

namespace Sys2Proof.Machine

/-- "`FlagRegister & 0x8001 == 0x8001` always" (spec/10_state.md R33). -/
def FlagsHardwired (s : State) : Prop := s.fr &&& 0x8001#16 = 0x8001#16

/-- "`StackPointer ∈ [0,9]`" (R35). -/
def StackPointerInRange (s : State) : Prop := s.sp.toNat ≤ 9

/-- Memory is in its canonical form. -/
def MemoryCanonical (s : State) : Prop := Memory.wf s.mem = true

/-- The bank has one cell per reserved register and one place per EXTRA_REGS entry (spec/42_peripheral_bank.md R214, R217), and
a computed entry has no value of its own (spec/10_state.md R42). -/
structure BankShaped (s : State) : Prop where
  rsv      : s.bank.rsv.length = s.cfg.offs.rsv.length
  extra    : s.bank.extra.length = s.cfg.extraRegs.length
  computed : ∀ k, k < s.cfg.extraRegs.length → isComputed s.cfg (.extra k) = true → getReg (.extra k) s = .undef

/-- The invariant of the machine. -/
structure Inv (s : State) : Prop where
  flags  : FlagsHardwired s
  sp     : StackPointerInRange s
  memory : MemoryCanonical s
  bank   : BankShaped s

/-- "busy[c] = 0 at every step boundary reached by steps" (spec/43_dma.md R248). -/
def ChannelsIdle (s : State) : Prop := ∀ c : Fin 7, (s.dma.get c).busy = false

/-- A machine that can go on: it has been reset and has not faulted (spec/10_state.md R37; spec/60_exceptions.md R303). -/
structure Running (s : State) : Prop where
  reset    : s.resetDone = true
  unfaulted : s.fault = none

/-- The number of a CPU level (spec/60_exceptions.md R270). -/
def levelNumber (l : Level) : Nat :=
  match l with
  | .l0 => 0
  | .l1 => 1
  | .l2 => 2
  | .l3 => 3
  | .l4 => 4
  | .l5 => 5

/-- `OFF(r) = off` for a register r of the base table, row by row (spec/30_encoding.md R106). -/
def OffsetIs (cfg : Config) (r : Reg) (off : Word) : Prop :=
  match r with
  | .bankCtrl => cfg.offs.bankCtrl = off
  | .rsv k => cfg.offs.rsv[k]? = some off
  | .rndStatus => cfg.offs.rndStatus = off
  | .dmaP c .p0 => cfg.offs.dmaP0.get c = off
  | .dmaP c .p1 => cfg.offs.dmaP1.get c = off
  | .dmaTrigger => cfg.offs.dmaTrigger = off
  | .dmaStatus => cfg.offs.dmaStatus = off
  | .portA => cfg.offs.portA = off
  | .portB => cfg.offs.portB = off
  | .nandCmd => cfg.offs.nandCmd = off
  | .nandAddrLo => cfg.offs.nandAddrLo = off
  | .nandAddrHi => cfg.offs.nandAddrHi = off
  | .csCtrl => cfg.offs.csCtrl = off
  | .waitEnter => cfg.offs.waitEnter = off
  | .irqStatus => cfg.offs.irqStatus = off
  | .irqAck => cfg.offs.irqAck = off
  | .irqEnable => cfg.offs.irqEnable = off
  | .extra _ => False

/-- The operation of the table that a primitive of an instruction's program is, with its operands' values
(spec/40_engine.md R137, R139; spec/30_encoding.md R103). -/
def primitiveInstr (p : IsaPrim) (sc : Scope) (s : State) : Instr :=
  match p with
  | .acRead i => .acRead (BitVec.ofNat 2 (evalExpr sc i).toNat)
  | .acWrite i v => .acWrite (BitVec.ofNat 2 (evalExpr sc i).toNat) (evalExpr sc v)
  | .pcWrite v => .pcWrite (evalExpr sc v)
  | .frRead => .frRead
  | .frWrite v => .frWrite (evalExpr sc v)
  | .spRead => .spRead
  | .spWrite v => .spWrite (BitVec.ofNat 8 (evalExpr sc v).toNat)
  | .stackPush v => .stackPush (evalExpr sc v)
  | .stackPop => .stackPop
  | .intReturn => .intReturn
  | .jcRead j => .jcRead (BitVec.ofNat 2 (evalExpr sc j).toNat)
  | .memRead16 a => .memRead16 (evalExpr sc a)
  | .memWrite16 a v => .memWrite16 (evalExpr sc a) (evalExpr sc v)
  | .memRead8 a lane => .memRead8 (BitVec.ofNat 17 (2 * (evalExpr sc a).toNat + (evalExpr sc lane).toNat % 2))
  | .memWrite8 a lane b =>
    .memWrite8 (BitVec.ofNat 17 (2 * (evalExpr sc a).toNat + (evalExpr sc lane).toNat % 2)) (BitVec.ofNat 8 (evalExpr sc b).toNat)
  | .fetch k => .fetch (s.pc + BitVec.ofNat 16 k)

/-- The instruction's length counted: 1 + the largest k of a `FETCH(PC + k)` so far (spec/40_engine.md R137). For k = 0, which the
spec does not give, the length stays: the model's choice (log entry 37). -/
def lengthCounted (p : IsaPrim) (s : State) : State :=
  match p with
  | .fetch k => { s with ilen := max s.ilen (1 + k) }
  | _ => s

/-- Whether a word address is that of an EXTRA_REGS entry (spec/42_peripheral_bank.md R217). -/
def isEntryAddr (cfg : Config) (a : Word) : Bool :=
  match decodeAddr cfg a with
  | .external => false
  | .window off =>
    match lookup cfg off with
    | .extra _ _ => true
    | _ => false

/-- The access, where its address is not that of an entry. -/
def plainAccess (cfg : Config) (a : Word) (i : Instr) : Option Instr := if isEntryAddr cfg a then none else some i

/-- The access, where the base register r is what the window has at its offset. -/
def registerAccess (cfg : Config) (r : Reg) (i : Word → Instr) : Option Instr :=
  if lookup cfg (regOffset cfg r) = .base r then some (i (regOffset cfg r)) else none

/-- The operation of the table that a call of a write action is (spec/42_peripheral_bank.md R217); none where it reaches an
EXTRA_REGS entry, whose own rule it follows. -/
def actionInstr (p : BankPrim) (sc : Scope) (s : State) : Option Instr :=
  match p with
  | .isa (.memRead16 a) => plainAccess s.cfg (evalExpr sc a) (.memRead16 (evalExpr sc a))
  | .isa (.memWrite16 a v) => plainAccess s.cfg (evalExpr sc a) (.memWrite16 (evalExpr sc a) (evalExpr sc v))
  | .isa p => some (primitiveInstr p sc s)
  | .regRead r => registerAccess s.cfg r .periphRead
  | .regWrite r v => registerAccess s.cfg r fun off => .periphWrite off (evalExpr sc v)
  | .dmaWriteParam c slot v => some (.dmaWriteParam (BitVec.ofNat 3 c.val) (if slot = .p0 then 0 else 1) (evalExpr sc v))
  | .dmaReadParam c slot => some (.dmaReadParam (BitVec.ofNat 3 c.val) (if slot = .p0 then 0 else 1))
  | .fetch a => some (.fetch (evalExpr sc a))
  | .dmaTrigger c => some (.dmaTrigger (BitVec.ofNat 3 c.val))
  | .csRecompute => some .csRecompute
  | .waitEnter => some .waitEnter
  | .aggVectorFetch => some .aggVectorFetch

/-- The call of a write action that a call of a read function is; none for the register's own stored value and a draw. -/
def readCall (p : ReadPrim) : Option BankPrim :=
  match p with
  | .stored => none
  | .regRead r => some (.regRead r)
  | .draw => none
  | .acRead i => some (.isa (.acRead i))
  | .frRead => some (.isa .frRead)
  | .spRead => some (.isa .spRead)
  | .jcRead j => some (.isa (.jcRead j))
  | .memRead16 a => some (.isa (.memRead16 a))
  | .memRead8 a lane => some (.isa (.memRead8 a lane))
  | .fetch a => some (.fetch a)
  | .dmaReadParam c slot => some (.dmaReadParam c slot)
  | .aggVectorFetch => some .aggVectorFetch

/-- The word that an operation's result is to the rest of a program; 0 where it returns nothing (log entry 17). -/
def resultWord (r : Result) : Word :=
  match r with
  | .word w => w
  | .byte b => b.setWidth 16
  | .bool b => if b then 1 else 0
  | _ => 0

/-- A step is safe where it does not end in a fault. -/
def SafeStep (s : State) : Prop := ∀ r, step s ≠ .fault r

end Sys2Proof.Machine
end

