-- ==== Sys2Proof/Certificates/Slice0/Obligations.lean ====
section
/-! DEFINITION. The statements about the model, from the numbered rules of spec/. `t = { s with f := t.f, … }` is the
frame: every field of the state but those named is unchanged. -/

open Sys2Proof Sys2Proof.Machine

/-! ## Encoding -/

/-- R102: an operation record is the selector and its operand fields, so that the record of every well-formed operation,
with every operand at every value, is read back. The place of the fields in bytes is the model's (log entries 6, 7). -/
def Obligations.RecordsDecodeToTheirInstruction : Prop :=
  ∀ (i : Instr) (rest : List Byte), i.wellFormed = true → (∀ w, i ≠ .cpuWord w) →
    decodeRecord (encode i ++ rest) = .ok (i, rest)

/-- The other direction: bytes that decode are the record of what they decode to, so that no two byte strings are one
operation's record. The byte form is the model's (log entries 6, 7). -/
def Obligations.DecodedBytesAreTheRecord : Prop :=
  ∀ (bs rest : List Byte) (i : Instr), decodeRecord bs = .ok (i, rest) → bs = encode i ++ rest ∧ i.wellFormed = true

/-- R102: the 36 selectors of the table name operations, and every other one is refused. -/
def Obligations.OtherSelectorsAreRefused : Prop :=
  ∀ (sel : Byte) (bs : List Byte),
    sel.toNat ∉ [0x00, 0x01, 0x02, 0x03, 0x04, 0x05, 0x06, 0x07, 0x10, 0x11, 0x12, 0x13,
                 0x20, 0x21, 0x22, 0x23, 0x24, 0x25, 0x26, 0x27, 0x28, 0x29, 0x2A,
                 0x30, 0x31, 0x32, 0x33, 0x34, 0x40, 0x41, 0x50, 0x51, 0x52, 0x60, 0x70, 0x71] →
    decodeRecord (sel :: bs) = .error (.unknownSelector sel) ∧
      ∀ s : State, s.inbox = sel :: bs → step s = .refused (.badRecord (.unknownSelector sel))

/-- R103: the operand values that name nothing are refused, in the record and in the operation. -/
def Obligations.OperandsThatNameNothingAreRefused : Prop :=
  ∀ i : Instr,
    ((∃ l b, i = .signalInt l b ∧ 6 ≤ l.toNat) ∨ (∃ l, i = .intEntry l ∧ 6 ≤ l.toNat) ∨
     (∃ b, i = .aggLine 2 b) ∨ (∃ f, i = .dbgRead f ∧ 17 ≤ f.toNat) ∨ (∃ f v, i = .dbgWrite f v ∧ 17 ≤ f.toNat) ∨
     (∃ sl v, i = .dmaWriteParam 7 sl v) ∨ (∃ sl, i = .dmaReadParam 7 sl) ∨ i = .dmaTrigger 7 ∨ i = .jcRead 3) →
    (∀ rest, decodeRecord (encode i ++ rest) = .error .refusedOperand) ∧
    ∀ s, Running s → exec i s = .refused .refusedOperand ∨ (∃ b, i = .aggLine 2 b) ∧ exec i s = .refused .sourceIsInternal

/-- R102, R100: records written out from the table's selectors and widths (fields from bit 8 upwards, log entry 6), and a
CPU word. -/
def Obligations.WrittenOutRecordsDecode : Prop :=
  decodeRecord [0x02#8, 0b00001011#8] = .ok (.signalInt 3 1, []) ∧
  decodeRecord [0x24#8, 0x00#8, 0x08#8] = .ok (.frWrite 0x0800, []) ∧
  decodeRecord [0x21#8, 0b10111110#8, 0b11111011#8, 0b00000010#8] = .ok (.acWrite 2 0xBEEF, []) ∧
  decodeRecord [0x50#8, 0b00001011#8, 0b00000001#8, 0x00#8] = .ok (.dmaWriteParam 3 1 0x0010, []) ∧
  decodeRecord [0x33#8, 0x01#8, 0x40#8, 0b00100100#8, 0x00#8] = .ok (.memWrite8 0x04001 0x12, []) ∧
  decodeTableWord 16 0x1020 = some (.cpuWord 0x1020)

/-! ## Steps -/

/-- R304: a waiting operation record is performed before the engine steps, and the rest of the records waits on. -/
def Obligations.StepPerformsTheFirstRecord : Prop :=
  ∀ (s : State) (i : Instr) (rest : List Byte), decodeRecord s.inbox = .ok (i, rest) →
    step s = exec i { s with inbox := rest }

/-- R132: with no record waiting, no request and no wait state, a step emits the debug hook with PC and executes the CPU
word fetched at PC; with no record waiting it is STEP in any case. -/
def Obligations.StepExecutesTheWordAtPc : Prop :=
  ∀ s : State, s.inbox = [] →
    step s = exec .step s ∧
    (Running s → arbitrate s = none → s.waiting = false →
      ∀ w t, fetchWord s.pc { s with trace := s.trace ++ [.debugHook s.pc] } = .ok w t → step s = exec (.cpuWord w) t)

/-- R303: a faulted machine performs DBG_READ and SAVE, refuses every other operation, RESET among them, and takes no second
fault. That the primitives of an instruction are refused there too is the model's reading (log entry 10). -/
def Obligations.FaultedMachineOnlyReads : Prop :=
  ∀ (i : Instr) (s : State), s.fault ≠ none →
    ((∀ f, i ≠ .dbgRead f) → i ≠ .save → exec i s = .refused .faultedMachine) ∧
    (∀ f, i = .dbgRead f → f.toNat ≤ 16 → s.resetDone = true → ∃ c, exec i s = .next { s with result := .cell c }) ∧
    (i = .save → s.resetDone = true → ∃ snap, exec i s = .next { s with result := .snapshot snap }) ∧
    ∀ r, exec i s ≠ .fault r

/-- R37: RUN is refused before the first RESET, and SAVE with it (R326). -/
def Obligations.NothingRunsBeforeReset : Prop :=
  ∀ s : State, s.resetDone = false →
    (s.fault = none → ∀ b, exec (.run b) s = .refused .notYetReset) ∧ exec .save s = .refused .notYetReset

/-- R302: the reason of a fault is recorded in the state left behind, and no fault arises on a machine that has one. -/
def Obligations.FaultsAreRecorded : Prop :=
  ∀ (i : Instr) (s left : State) (r : FaultReason), exec i s = .fault (.raised r left) →
    s.fault = none ∧ left.fault = some r

/-! ## Reset -/

/-- R320: what RESET sets, what it leaves, and the flag outputs it emits; on a faulted machine it is refused. -/
def Obligations.ResetSetsTheStatedValues : Prop :=
  ∀ (strap : BitVec 2) (s : State),
    (s.fault ≠ none → exec (.reset strap) s = .refused .faultedMachine) ∧
    (s.fault = none → ∃ t, exec (.reset strap) s = .next t ∧
      t.pc = 0x0000 ∧ t.sp = 0 ∧ t.fr = 0x8001 ∧ t.bootMode = strap ∧ t.waiting = false ∧ t.resetDone = true ∧
      t.pending = { l0 := false, l1 := false, l3 := false, l4 := false, l5 := false } ∧
      t.apend = 0 ∧ t.bank.irqEnable = .val 0x0000 ∧
      (∀ c : Fin 7, (t.dma.get c).busy = false ∧ (t.dma.get c).done = false ∧ (t.dma.get c).err = false) ∧
      (∀ r ∈ baseRegs s.cfg, baseKind r ≠ .computed → r ≠ .irqEnable → getReg r t = resetValue s.cfg r) ∧
      (∀ k, k < s.cfg.extraRegs.length → getReg (.extra k) t = resetValue s.cfg (.extra k)) ∧
      t.trace = s.trace ++ [(0 : Fin 4), 1, 2, 3].filterMap
        (fun k => if s.fr.getLsbD (11 + k.val) then some (.flagOut k false) else none) ∧
      t = { s with
        pc := t.pc, sp := t.sp, fr := t.fr, bootMode := t.bootMode, waiting := t.waiting, resetDone := t.resetDone
        pending := t.pending, apend := t.apend, bank := t.bank, dma := t.dma, trace := t.trace, result := .none })

/-- The state after reset is the power-on RESET, with strap 0, of a machine constructed with the reference configuration
(the model's choice: log entries 1 and 12); it meets the invariant, its channels are idle, and it can go on. -/
def Obligations.ResetStateIsThePowerOnReset : Prop :=
  construct Config.reference = some (constructed Config.reference) ∧
    exec (.reset 0) (constructed Config.reference) = .next State.reset ∧
    Inv State.reset ∧ ChannelsIdle State.reset ∧ Running State.reset

/-! ## The flag register -/

/-- R163: FR_WRITE invokes one callback for each of bits 11..14 that changes, in ascending order, with the new level, and
then commits the value with bits 0 and 15 high. -/
def Obligations.FlagWriteCallsBackAndCommits : Prop :=
  ∀ (v : Word) (s : State), s.fault = none →
    ∃ outs, exec (.frWrite v) s = .next { s with fr := v ||| 0x8001, trace := s.trace ++ outs, result := .none } ∧
      (∀ e, e ∈ outs ↔ ∃ k : Fin 4, v.getLsbD (11 + k.val) ≠ s.fr.getLsbD (11 + k.val) ∧
        e = .flagOut k (v.getLsbD (11 + k.val))) ∧
      outs.Pairwise (fun a b => ∀ j k x y, a = .flagOut j x → b = .flagOut k y → j < k)

/-- R162, R170, R151, R172, R142: FR_READ returns FR, SP_READ returns SP, IDLE changes nothing, PC_WRITE sets npc and nothing
else (log entry 9: PC takes it when an instruction completes), and JC_READ returns a draw, whose value nothing
constrains. -/
def Obligations.PlainPrimitivesComplete : Prop :=
  ∀ (v : Word) (j : BitVec 2) (s : State), Running s →
    exec .frRead s = .next { s with result := .word s.fr } ∧
    (∃ w : Word, exec .spRead s = .next { s with result := .word w } ∧ w.toNat = s.sp.toNat) ∧
    exec .idle s = .next { s with result := .none } ∧
    exec (.pcWrite v) s = .next { s with npc := some v, result := .none } ∧
    (j.toNat ≤ 2 → ∃ b, exec (.jcRead j) s = .next { s with draws := s.draws + 1, result := .bool b })

/-! ## The hardware stack -/

/-- R165: the clamp of SP_WRITE, for all 256 operand values. -/
def Obligations.StackPointerWriteClamps : Prop :=
  ∀ (v : Byte) (s : State), s.fault = none →
    ∃ p : BitVec 4, exec (.spWrite v) s = .next { s with sp := p, result := .none } ∧
      p.toNat = if v.toNat % 16 < 10 then v.toNat % 16 else if v.toNat % 2 = 1 then 9 else 0

/-- R167, R169: STACK_PUSH stores at SP, moves SP up the ring of ten, and requests L1 exactly where SP was 9. -/
def Obligations.PushStoresAndMovesUp : Prop :=
  ∀ (v : Word) (s : State), Running s → StackPointerInRange s →
    ∃ t, exec (.stackPush v) s = .next t ∧
      t.sp.toNat = (s.sp.toNat + 1) % 10 ∧
      (∀ j : Fin 10, t.stk.get j = if j.val = s.sp.toNat then .val v else s.stk.get j) ∧
      t.pending = (if s.sp = 9 then { s.pending with l1 := true } else s.pending) ∧
      t = { s with sp := t.sp, stk := t.stk, pending := t.pending, result := .none }

/-- R168, R169, R171: STACK_POP moves SP down the ring, requests L1 exactly where SP was 0, and returns the slot, or
faults where it is `Undefined`. -/
def Obligations.PopMovesDownAndReturns : Prop :=
  ∀ s : State, Running s → StackPointerInRange s →
    ∃ (p : BitVec 4) (u : State), p.toNat = (s.sp.toNat + 9) % 10 ∧
      u = { s with sp := p, pending := if s.sp = 0 then { s.pending with l1 := true } else s.pending } ∧
      ∀ j : Fin 10, j.val = p.toNat →
        (∀ w, s.stk.get j = .val w → exec .stackPop s = .next { u with result := .word w }) ∧
        (s.stk.get j = .undef →
          exec .stackPop s = .fault (.raised (.readUndefined .stk (BitVec.ofNat 16 j.val))
            { u with fault := some (.readUndefined .stk (BitVec.ofNat 16 j.val)) }))

/-- R173: SP is a ring of ten: what SP_WRITE makes of s + 1 and s - 1. A push followed by a pop restores SP and returns the
pushed word; ten pushes bring SP back to where it was and leave their words in the ten slots, with one wrap. -/
def Obligations.StackPointerIsARingOfTen : Prop :=
  ∀ s : State, Running s → StackPointerInRange s →
    (∀ p : Byte, p.toNat < 10 → ∃ q r : BitVec 4,
      exec (.spWrite (p + 1)) s = .next { s with sp := q, result := .none } ∧ q.toNat = (p.toNat + 1) % 10 ∧
      exec (.spWrite (p - 1)) s = .next { s with sp := r, result := .none } ∧ r.toNat = (p.toNat + 9) % 10) ∧
    (∀ v : Word, ∃ t u, exec (.stackPush v) s = .next t ∧ exec .stackPop t = .next u ∧
      u.result = .word v ∧ u.sp = s.sp ∧ u.stk = t.stk) ∧
    (∀ ws : List Word, ws.length = 10 →
      ∃ t, ws.foldlM (fun (u : State) w => match exec (.stackPush w) u with
          | .next u' => some u'
          | _ => none) s = some t ∧
        t.sp = s.sp ∧ t.pending = { s.pending with l1 := true } ∧
        ∀ k : Fin 10, t.stk[(s.sp.toNat + k.val) % 10]? = (ws[k.val]?).map Cell.val)

/-! ## Accumulators and debugger -/

/-- R160, R161, R171: an accumulator reads as what was last written to it, the others as before; AC_READ of an
`Undefined` one faults. -/
def Obligations.AccumulatorsReadBack : Prop :=
  ∀ (i : BitVec 2) (v : Word) (s : State), s.fault = none →
    (∃ t, exec (.acWrite i v) s = .next t ∧ t = { s with ac := t.ac, result := .none } ∧
      ∀ j : BitVec 2, t.ac.get (acIndex j) = if j = i then .val v else s.ac.get (acIndex j)) ∧
    (∀ w, s.ac.get (acIndex i) = .val w → exec (.acRead i) s = .next { s with result := .word w }) ∧
    (s.ac.get (acIndex i) = .undef → exec (.acRead i) s =
      .fault (.raised (.readUndefined .ac (i.setWidth 16)) { s with fault := some (.readUndefined .ac (i.setWidth 16)) }))

/-- R180, R181, R303: the 17 fields. What DBG_READ returns of each, on a faulted machine too; what DBG_WRITE does to each on a
machine that has not faulted, and that it changes no other; and that every other number is refused. FR, AC and SP are written
by their own operations. Reading PC and SP asks for a RESET before (R37). -/
def Obligations.DebuggerWritesThenReads : Prop :=
  ∀ (f : BitVec 5) (v : Word) (s : State),
    (17 ≤ f.toNat → exec (.dbgRead f) s = .refused .refusedOperand ∧
      (s.fault = none → exec (.dbgWrite f v) s = .refused .refusedOperand)) ∧
    (f = 0 → (s.resetDone = true → exec (.dbgRead f) s = .next { s with result := .cell (.val s.pc) }) ∧
      (s.fault = none → exec (.dbgWrite f v) s = .next { s with pc := v, result := .none })) ∧
    (f = 1 → exec (.dbgRead f) s = .next { s with result := .cell (.val s.fr) } ∧
      (s.fault = none → exec (.dbgWrite f v) s = exec (.frWrite v) s)) ∧
    (∀ i : Fin 4, f.toNat = 2 + i.val → exec (.dbgRead f) s = .next { s with result := .cell (s.ac.get i) } ∧
      (s.fault = none → exec (.dbgWrite f v) s = exec (.acWrite (BitVec.ofNat 2 i.val) v) s)) ∧
    (f = 6 → (s.resetDone = true →
        ∃ w : Word, w.toNat = s.sp.toNat ∧ exec (.dbgRead f) s = .next { s with result := .cell (.val w) }) ∧
      (s.fault = none → exec (.dbgWrite f v) s = exec (.spWrite (v.extractLsb' 0 8)) s)) ∧
    (∀ j : Fin 10, f.toNat = 7 + j.val → exec (.dbgRead f) s = .next { s with result := .cell (s.stk.get j) } ∧
      (s.fault = none → ∃ t, exec (.dbgWrite f v) s = .next t ∧ t = { s with stk := t.stk, result := .none } ∧
        ∀ k : Fin 10, t.stk.get k = if k = j then .val v else s.stk.get k))

/-! ## Memory -/

/-- R75, R76, R79, R82, R94: a word written to external RAM is what the next word read and the next fetch return, its lanes
are what the next byte reads return, every byte outside its two lanes reads as before, and nothing else changes; ROM ignores
the write and IO emits it. -/
def Obligations.WordWritesReachExternalMemory : Prop :=
  ∀ (a v : Word) (s : State), s.fault = none → MemoryCanonical s → decodeAddr s.cfg a = .external →
    (memKind s.cfg a = .ram → ∃ t, exec (.memWrite16 a v) s = .next t ∧ t = { s with mem := t.mem, result := .none } ∧
      exec (.memRead16 a) t = .next { t with result := .word v } ∧
      exec (.fetch a) t = .next { t with result := .word v } ∧
      exec (.memRead8 (BitVec.ofNat 17 (2 * a.toNat))) t = .next { t with result := .byte (v.extractLsb' 0 8) } ∧
      exec (.memRead8 (BitVec.ofNat 17 (2 * a.toNat + 1))) t = .next { t with result := .byte (v.extractLsb' 8 8) } ∧
      ∀ k, k ≠ 2 * a.toNat → k ≠ 2 * a.toNat + 1 → t.mem.read k = s.mem.read k) ∧
    (memKind s.cfg a = .rom → exec (.memWrite16 a v) s = .next { s with result := .none }) ∧
    (memKind s.cfg a = .io →
      exec (.memWrite16 a v) s = .next { s with trace := s.trace ++ [.memEvent a v], result := .none })

/-- R75, R76, R79, R81: what a word read, a byte read and a fetch of external memory return, by kind; an IO word is a draw,
whose value nothing constrains. -/
def Obligations.WordReadsOfExternalMemory : Prop :=
  ∀ (a : Word) (s : State), s.fault = none → decodeAddr s.cfg a = .external →
    exec (.fetch a) s = exec (.memRead16 a) s ∧
    (memKind s.cfg a = .ram → ∃ w : Word, exec (.memRead16 a) s = .next { s with result := .word w } ∧
      w.toNat = (s.mem.read (2 * a.toNat)).toNat + 256 * (s.mem.read (2 * a.toNat + 1)).toNat) ∧
    (memKind s.cfg a = .rom → ∃ w : Word, exec (.memRead16 a) s = .next { s with result := .word w } ∧
      w.toNat = (Memory.read s.cfg.memInit (2 * a.toNat)).toNat
        + 256 * (Memory.read s.cfg.memInit (2 * a.toNat + 1)).toNat) ∧
    (memKind s.cfg a = .io → ∃ w, exec (.memRead16 a) s = .next { s with draws := s.draws + 1, result := .word w }) ∧
    ∀ ba : BitVec 17, ba.toNat / 2 = a.toNat →
      (memKind s.cfg a = .ram → exec (.memRead8 ba) s = .next { s with result := .byte (s.mem.read ba.toNat) }) ∧
      (memKind s.cfg a = .rom →
        exec (.memRead8 ba) s = .next { s with result := .byte (Memory.read s.cfg.memInit ba.toNat) }) ∧
      (memKind s.cfg a = .io → ∃ b, exec (.memRead8 ba) s = .next { s with draws := s.draws + 1, result := .byte b })

/-- R81, R82: a byte written to a RAM word is the lane `ba[0]` of that word, the other lane and every other byte stay, and
MEM_READ8 returns the lane. -/
def Obligations.ByteWritesReachTheirLane : Prop :=
  ∀ (ba : BitVec 17) (b : Byte) (s : State), s.fault = none → MemoryCanonical s →
    decodeAddr s.cfg (wordOfByteAddr ba) = .external →
    (memKind s.cfg (wordOfByteAddr ba) = .ram → ∃ t, exec (.memWrite8 ba b) s = .next t ∧
      t = { s with mem := t.mem, result := .none } ∧
      (∀ k, k ≠ ba.toNat → t.mem.read k = s.mem.read k) ∧
      exec (.memRead8 ba) t = .next { t with result := .byte b } ∧
      ∃ w w' : Word, exec (.memRead16 (wordOfByteAddr ba)) s = .next { s with result := .word w } ∧
        exec (.memRead16 (wordOfByteAddr ba)) t = .next { t with result := .word w' } ∧
        (if ba.getLsbD 0 then laneHi w' = b ∧ laneLo w' = laneLo w else laneLo w' = b ∧ laneHi w' = laneHi w)) ∧
    (memKind s.cfg (wordOfByteAddr ba) = .rom → exec (.memWrite8 ba b) s = .next { s with result := .none }) ∧
    (memKind s.cfg (wordOfByteAddr ba) = .io →
      exec (.memWrite8 ba b) s = .next { s with trace := s.trace ++ [.memEventByte ba b], result := .none })

/-- R77, R78, R132: a byte access to the window and a fetch from it fault and have no other effect. STEP with PC in the window
emits the debug hook and then takes the fetch's fault; it executes nothing. -/
def Obligations.WindowBytesAndFetchesFault : Prop :=
  ∀ (s : State) (off : Word), s.fault = none →
    (∀ ba b, decodeAddr s.cfg (wordOfByteAddr ba) = .window off →
      exec (.memRead8 ba) s = .fault (.raised (.periphByteAccess ba) { s with fault := some (.periphByteAccess ba) }) ∧
      exec (.memWrite8 ba b) s = .fault (.raised (.periphByteAccess ba) { s with fault := some (.periphByteAccess ba) })) ∧
    (∀ a, decodeAddr s.cfg a = .window off →
      exec (.fetch a) s = .fault (.raised (.fetchFromWindow a) { s with fault := some (.fetchFromWindow a) })) ∧
    (s.resetDone = true → decodeAddr s.cfg s.pc = .window off → arbitrate s = none → s.waiting = false →
      exec .step s = .fault (.raised (.fetchFromWindow s.pc)
        { s with trace := s.trace ++ [.debugHook s.pc], fault := some (.fetchFromWindow s.pc) }))

/-- R73, R76: the addresses of the window reach the bank, at the offset from PERIPH_BASE, and every other address is external
memory. -/
def Obligations.WindowAccessesReachTheBank : Prop :=
  ∀ (a v : Word) (s : State),
    (s.cfg.periphBase.toNat ≤ a.toNat → a.toNat < s.cfg.periphBase.toNat + s.cfg.periphSize →
      decodeAddr s.cfg a = .window (a - s.cfg.periphBase) ∧
      exec (.memRead16 a) s = exec (.periphRead (a - s.cfg.periphBase)) s ∧
      exec (.memWrite16 a v) s = exec (.periphWrite (a - s.cfg.periphBase) v) s) ∧
    (a.toNat < s.cfg.periphBase.toNat ∨ s.cfg.periphBase.toNat + s.cfg.periphSize ≤ a.toNat →
      decodeAddr s.cfg a = .external)

/-! ## The bank -/

/-- R203, R204: an unmapped offset reads as the sentinel and ignores writes. An offset not below PERIPH_SIZE, which no window
access reaches, acts as an unmapped one too by the model's choice (log entry 22). R106, R200: which offsets are mapped, and to
what. An offset that one base register has and no EXTRA_REGS entry is that register's; one that neither a base register nor an
entry has is unmapped. Construction sees to it that no two base registers share an offset and that every one lies below
PERIPH_SIZE (R14). -/
def Obligations.UnmappedOffsetsAreInert : Prop :=
  (∀ (off v : Word) (s : State), s.fault = none → lookup s.cfg off = .unmapped →
    exec (.periphRead off) s = .next { s with result := .word s.cfg.unmappedSentinel } ∧
    exec (.periphWrite off v) s = .next { s with result := .none }) ∧
  ∀ (cfg : Config) (off : Word),
    (lookup cfg off = .unmapped ↔ (∀ r, ¬ OffsetIs cfg r off) ∧ ∀ e ∈ cfg.extraRegs, e.off ≠ off) ∧
    ∀ r : Reg, OffsetIs cfg r off →
      ((∀ q, OffsetIs cfg q off → q = r) → (∀ e ∈ cfg.extraRegs, e.off ≠ off) → lookup cfg off = .base r) ∧
      (configOk cfg = true → off.toNat < cfg.periphSize ∧ ∀ q, OffsetIs cfg q off → q = r)

/-- R201, R202, R205, R171: a storage register, and a trigger register other than the ports, reads as the value last written,
and only its own cell is written among the cells of the bank; while it is `Undefined` its read faults. DMA_TRIGGER is
written here with channel bits 7, which start no transfer (R243). -/
def Obligations.RegistersReadBack : Prop :=
  ∀ (off v : Word) (r : Reg) (s : State), s.fault = none → BankShaped s → lookup s.cfg off = .base r →
    baseKind r ≠ .computed → r ≠ .portA → r ≠ .portB →
    ((r = .dmaTrigger → v.toNat % 8 = 7) →
      ∃ t, exec (.periphWrite off v) s = .next t ∧
        exec (.periphRead off) t = .next { t with result := .word v } ∧
        (∀ q, q ≠ r → getReg q t = getReg q s)) ∧
    (∀ w, getReg r s = .val w → exec (.periphRead off) s = .next { s with result := .word w }) ∧
    (getReg r s = .undef → exec (.periphRead off) s =
      .fault (.raised (.readUndefined .periph off) { s with fault := some (.readUndefined .periph off) }))

/-- R205 to R209, R211 to R218: what a write of each base register does, but for the DMA_TRIGGER register. -/
def Obligations.RegisterWritesAct : Prop :=
  ∀ (off v : Word) (s : State), s.fault = none →
    (lookup s.cfg off = .base .bankCtrl →
      exec (.periphWrite off v) s = .next { s with bank := { s.bank with bankCtrl := .val v }, result := .none }) ∧
    (∀ k, lookup s.cfg off = .base (.rsv k) →
      exec (.periphWrite off v) s = .next { s with bank := { s.bank with rsv := s.bank.rsv.set k (.val v) }, result := .none }) ∧
    (lookup s.cfg off = .base .portA → exec (.periphWrite off v) s =
      .next { s with bank := { s.bank with portA := .val v }, trace := s.trace ++ [.portOut .a v], result := .none }) ∧
    (lookup s.cfg off = .base .portB → exec (.periphWrite off v) s =
      .next { s with bank := { s.bank with portB := .val v }, trace := s.trace ++ [.portOut .b v], result := .none }) ∧
    (lookup s.cfg off = .base .nandCmd → exec (.periphWrite off v) s =
      .next { s with bank := { s.bank with nandCmd := .val v }, trace := s.trace ++ [.nandWrite .cmd v], result := .none }) ∧
    (lookup s.cfg off = .base .nandAddrLo → exec (.periphWrite off v) s =
      .next { s with bank := { s.bank with nandAddrLo := .val v }, trace := s.trace ++ [.nandWrite .addrLo v], result := .none }) ∧
    (lookup s.cfg off = .base .nandAddrHi → exec (.periphWrite off v) s =
      .next { s with bank := { s.bank with nandAddrHi := .val v }, trace := s.trace ++ [.nandWrite .addrHi v], result := .none }) ∧
    (lookup s.cfg off = .base .csCtrl → exec (.periphWrite off v) s =
      .next { s with bank := { s.bank with csCtrl := .val v }, csRegions := some (csMap s.cfg s.cfg.csBase v)
                     trace := s.trace ++ [.csRemap (csMap s.cfg s.cfg.csBase v)], result := .none }) ∧
    (lookup s.cfg off = .base .waitEnter → exec (.periphWrite off v) s =
      .next { s with bank := { s.bank with waitEnter := .val v }, waiting := true, result := .none }) ∧
    (lookup s.cfg off = .base .irqAck → ∃ p : BitVec 4, exec (.periphWrite off v) s =
      .next { s with bank := { s.bank with irqAck := .val v }, apend := p, result := .none } ∧
        ∀ k : Fin 4, p.getLsbD k.val = (s.apend.getLsbD k.val && !v.getLsbD k.val)) ∧
    (lookup s.cfg off = .base .irqEnable →
      exec (.periphWrite off v) s = .next { s with bank := { s.bank with irqEnable := .val v }, result := .none }) ∧
    (lookup s.cfg off = .base .rndStatus ∨ lookup s.cfg off = .base .dmaStatus ∨ lookup s.cfg off = .base .irqStatus →
      exec (.periphWrite off v) s = .next { s with result := .none }) ∧
    (∀ c slot, lookup s.cfg off = .base (.dmaP c slot) →
      exec (.periphWrite off v) s = exec (.dmaWriteParam (BitVec.ofNat 3 c.val) (if slot = .p0 then 0 else 1) v) s)

/-- R208, R210, R212, R246: what the computed registers and the ports return. A port and RND_STATUS in Draw mode return
a draw, whose value nothing constrains. -/
def Obligations.ComputedRegistersRead : Prop :=
  ∀ (off : Word) (s : State), s.fault = none →
    (lookup s.cfg off = .base .irqStatus → ∃ w : Word, exec (.periphRead off) s = .next { s with result := .word w } ∧
      w.toNat = s.apend.toNat) ∧
    (lookup s.cfg off = .base .dmaStatus → ∃ w : Word, exec (.periphRead off) s = .next { s with result := .word w } ∧
      w.getLsbD 7 = false ∧ w.getLsbD 15 = false ∧
      ∀ c : Fin 7, w.getLsbD c.val = (s.dma.get c).done ∧ w.getLsbD (8 + c.val) = (s.dma.get c).err) ∧
    (lookup s.cfg off = .base .rndStatus → s.cfg.nondetMode = .fixed →
      exec (.periphRead off) s = .next { s with result := .word s.cfg.rndFixed }) ∧
    (lookup s.cfg off = .base .rndStatus → s.cfg.nondetMode = .draw →
      ∃ w, exec (.periphRead off) s = .next { s with draws := s.draws + 1, result := .word w }) ∧
    (lookup s.cfg off = .base .portA ∨ lookup s.cfg off = .base .portB →
      ∃ w, exec (.periphRead off) s = .next { s with draws := s.draws + 1, result := .word w })

/-- R217: an EXTRA_REGS entry replaces the base register at its offset. A computed entry ignores writes; a storage or trigger
entry stores and then acts, its storage reads back, and where its action ends, the write completes in the state the action
left. An action that writes the window word of another entry runs that entry's write. The last clause: every call of an action
that reaches no entry is the operation of its name on the state at that moment, and stops where that stops. That an action is
a program over the operations of the spec is the model's form of it (log entry 18). -/
def Obligations.ExtraRegistersOverride : Prop :=
  ∀ (off v : Word) (k : Nat) (e : ExtraReg) (s : State), s.fault = none → BankShaped s →
    s.cfg.extraRegs[k]? = some e → e.off = off → (∀ j e', j < k → s.cfg.extraRegs[j]? = some e' → e'.off ≠ off) →
    (e.kind = .computed → exec (.periphWrite off v) s = .next { s with result := .none }) ∧
    (e.kind ≠ .computed → e.write = .done () →
      ∃ t, exec (.periphWrite off v) s = .next t ∧ getReg (.extra k) t = .val v ∧
        t = { s with bank := { s.bank with extra := t.bank.extra }, result := .none } ∧
        (e.kind = .storage → exec (.periphRead off) t = .next { t with result := .word v })) ∧
    (e.kind ≠ .computed → ∀ (sc : Scope) (t : State),
      runProg (performBank actionWrite) e.write { pc := off, word := v, vals := [] }
        { s with bank := { s.bank with extra := s.bank.extra.set k (.val v) } } = .ok ((), sc) t →
      exec (.periphWrite off v) s = .next { t with result := .none }) ∧
    (e.kind = .trigger → ∀ (k2 : Nat) (e2 : ExtraReg), k2 ≠ k → s.cfg.extraRegs[k2]? = some e2 → e2.kind = .storage →
      (∀ j e', j < k2 → s.cfg.extraRegs[j]? = some e' → e'.off ≠ e2.off) → e2.off.toNat < s.cfg.periphSize →
      s.cfg.periphBase.toNat + s.cfg.periphSize ≤ 65536 → e2.write = .done () →
      e.write = .call (.isa (.memWrite16 (.lit (s.cfg.periphBase + e2.off)) .word)) (.done ()) →
      ∃ t, exec (.periphWrite off v) s = .next t ∧ getReg (.extra k) t = .val v ∧ getReg (.extra k2) t = .val v ∧
        t = { s with bank := { s.bank with extra := t.bank.extra }, result := .none }) ∧
    ∀ (p : BankPrim) (c : Prog BankPrim Unit) (sc : Scope) (u : State) (i : Instr), Running u → actionInstr p sc u = some i →
      (∀ t, exec i u = .next t → runProg (performBank actionWrite) (.call p c) sc u =
        runProg (performBank actionWrite) c { sc with vals := sc.vals ++ [resultWord t.result] } { t with result := u.result }) ∧
      (∀ f, exec i u = .fault f → runProg (performBank actionWrite) (.call p c) sc u = .fault f) ∧
      (∀ r, exec i u = .refused r → runProg (performBank actionWrite) (.call p c) sc u = .refused r)

/-- R217, R201: what a read of an EXTRA_REGS entry returns. A storage entry reads as its stored value, and its read faults
while that is `Undefined`; a computed or trigger entry reads as what its read function gives, in the state that is left: an
expression, the stored value of a trigger, or the result of any program; a draw is a free value (log entry 2). The last clause:
every call of a read function that reaches no entry is the operation of its name on the state at that moment, and stops where
that stops. That a read function is a program over the operations of the spec is the model's form of it (log entry 18). -/
def Obligations.ExtraRegistersRead : Prop :=
  ∀ (off : Word) (k : Nat) (e : ExtraReg) (s : State), s.fault = none → BankShaped s →
    s.cfg.extraRegs[k]? = some e → e.off = off → (∀ j e', j < k → s.cfg.extraRegs[j]? = some e' → e'.off ≠ off) →
    (e.kind = .storage ∨ e.kind = .trigger ∧ e.read = .call .stored (.done (.var 0)) →
      (∀ w, getReg (.extra k) s = .val w → exec (.periphRead off) s = .next { s with result := .word w }) ∧
      (getReg (.extra k) s = .undef → exec (.periphRead off) s =
        .fault (.raised (.readUndefined .periph off) { s with fault := some (.readUndefined .periph off) }))) ∧
    (e.kind ≠ .storage → ∀ x, e.read = .done x →
      exec (.periphRead off) s = .next { s with result := .word (evalExpr { pc := off, word := 0, vals := [] } x) }) ∧
    (e.kind ≠ .storage → ∀ (x : Expr) (sc : Scope) (t : State),
      runProg (performRead actionRead (getReg (.extra k) s)) e.read { pc := off, word := 0, vals := [] } s = .ok (x, sc) t →
      exec (.periphRead off) s = .next { t with result := .word (evalExpr sc x) }) ∧
    (e.kind ≠ .storage → e.read = .call .draw (.done (.var 0)) →
      ∃ w, exec (.periphRead off) s = .next { s with draws := s.draws + 1, result := .word w }) ∧
    ∀ (p : ReadPrim) (q : BankPrim) (c : Prog ReadPrim Expr) (cell : Cell) (sc : Scope) (u : State) (i : Instr), Running u →
      readCall p = some q → actionInstr q sc u = some i →
      (∀ t, exec i u = .next t → runProg (performRead actionRead cell) (.call p c) sc u =
        runProg (performRead actionRead cell) c { sc with vals := sc.vals ++ [resultWord t.result] }
          { t with result := u.result }) ∧
      (∀ f, exec i u = .fault f → runProg (performRead actionRead cell) (.call p c) sc u = .fault f) ∧
      (∀ r, exec i u = .refused r → runProg (performRead actionRead cell) (.call p c) sc u = .refused r)

/-! ## DMA -/

/-- R241, R242, R247: a parameter word reads as what was last written to it, and no other parameter word and no flag
changes; an `Undefined` one faults with its register's offset; channel 7 is refused. -/
def Obligations.DmaParametersRoundTrip : Prop :=
  ∀ (c : BitVec 3) (sl : BitVec 1) (v : Word) (s : State), s.fault = none →
    (c = 7 → exec (.dmaWriteParam c sl v) s = .refused .refusedOperand ∧
      exec (.dmaReadParam c sl) s = .refused .refusedOperand) ∧
    ∀ d : Fin 7, d.val = c.toNat →
    (∃ t, exec (.dmaWriteParam c sl v) s = .next t ∧ t = { s with dma := t.dma, result := .none } ∧
      ∀ e : Fin 7, t.dma.get e =
        if e = d then (if sl = 0 then { s.dma.get d with p0 := .val v } else { s.dma.get d with p1 := .val v })
        else s.dma.get e) ∧
    (∀ w, (if sl = 0 then (s.dma.get d).p0 else (s.dma.get d).p1) = .val w →
      exec (.dmaReadParam c sl) s = .next { s with result := .word w }) ∧
    ((if sl = 0 then (s.dma.get d).p0 else (s.dma.get d).p1) = .undef →
      ∃ off, off = (if sl = 0 then s.cfg.offs.dmaP0.get d else s.cfg.offs.dmaP1.get d) ∧
        exec (.dmaReadParam c sl) s =
          .fault (.raised (.readUndefined .periph off) { s with fault := some (.readUndefined .periph off) }))

/-- R244: a trigger of a busy channel is rejected: err[c] is set and nothing else changes. -/
def Obligations.BusyTriggerIsRejected : Prop :=
  ∀ (c : BitVec 3) (d : Fin 7) (s : State), s.fault = none → d.val = c.toNat → (s.dma.get d).busy = true →
    exec (.dmaTrigger c) s =
      .next { s with dma := s.dma.set d.val { s.dma.get d with err := true } d.isLt, result := .none }

/-- R244, R245, R93: an accepted trigger whose block lies outside the window, in either layout, writes the drawn words in
ascending order from its target, wrapping modulo 2^16: the last word written to a RAM address stays, ROM ignores its words, an
IO word emits its event, and every other word is left. It completes with done, without busy and err, and with the aggregator's
dma source pending. The drawn words are free values (log entry 2); the AddrLoHi target is what the configuration's
DMA_XFER_LOHI gives. -/
def Obligations.DmaTransferWritesTheBlock : Prop :=
  ∀ (c : BitVec 3) (d : Fin 7) (p0 p1 a : Word) (n : Nat) (s : State), s.fault = none → MemoryCanonical s →
    d.val = c.toNat → (s.dma.get d).busy = false → (s.dma.get d).p0 = .val p0 → (s.dma.get d).p1 = .val p1 →
    (s.cfg.dmaLayout = .addrLen → a = p0 ∧ n = p1.toNat) →
    (s.cfg.dmaLayout = .addrLoHi → (a, n) = dmaXferLoHi s.cfg p0 p1) →
    (∀ i, i < n → decodeAddr s.cfg (a + BitVec.ofNat 16 i) = .external) →
    ∃ t, exec (.dmaTrigger c) s = .next t ∧
      (∀ i, i < n → memKind s.cfg (a + BitVec.ofNat 16 i) = .ram →
        (∀ j, i < j → j < n → a + BitVec.ofNat 16 j ≠ a + BitVec.ofNat 16 i) →
        t.mem.readWord (a + BitVec.ofNat 16 i) = Config.drawWord (s.draws + i)) ∧
      (∀ b : Word, (∀ i, i < n → b = a + BitVec.ofNat 16 i → memKind s.cfg b ≠ .ram) →
        t.mem.readWord b = s.mem.readWord b) ∧
      t.trace = s.trace ++ [.nandRead d n] ++ (List.range n).filterMap (fun i =>
        if memKind s.cfg (a + BitVec.ofNat 16 i) = .io then
          some (.memEvent (a + BitVec.ofNat 16 i) (Config.drawWord (s.draws + i))) else none) ∧
      t.dma = s.dma.set d.val { s.dma.get d with done := true, err := false } d.isLt ∧
      t.apend = s.apend ||| 0b0100 ∧ t.draws = s.draws + n ∧
      t = { s with mem := t.mem, dma := t.dma, apend := t.apend, trace := t.trace, draws := t.draws, result := .none }

/-- R245, R244: a transfer whose word k is the first to fall into the window faults there; the words before it stay written (to
RAM the last one to its address), every other word is as before, and the channel does not complete. A trigger whose P0, or
then P1, is `Undefined` faults before it writes anything. -/
def Obligations.DmaIntoTheWindowFaults : Prop :=
  ∀ (c : BitVec 3) (d : Fin 7) (s : State), s.fault = none → MemoryCanonical s → d.val = c.toNat →
    (s.dma.get d).busy = false →
    (∀ (p0 p1 a : Word) (n k : Nat) (off : Word), (s.dma.get d).p0 = .val p0 → (s.dma.get d).p1 = .val p1 →
      (s.cfg.dmaLayout = .addrLen → a = p0 ∧ n = p1.toNat) →
      (s.cfg.dmaLayout = .addrLoHi → (a, n) = dmaXferLoHi s.cfg p0 p1) → k < n →
      (∀ i, i < k → decodeAddr s.cfg (a + BitVec.ofNat 16 i) = .external) →
      decodeAddr s.cfg (a + BitVec.ofNat 16 k) = .window off →
      ∃ left, exec (.dmaTrigger c) s = .fault (.raised (.dmaIntoWindow d (a + BitVec.ofNat 16 k)) left) ∧
        (∀ i, i < k → memKind s.cfg (a + BitVec.ofNat 16 i) = .ram →
          (∀ j, i < j → j < k → a + BitVec.ofNat 16 j ≠ a + BitVec.ofNat 16 i) →
          left.mem.readWord (a + BitVec.ofNat 16 i) = Config.drawWord (s.draws + i)) ∧
        (∀ b : Word, (∀ i, i < k → b = a + BitVec.ofNat 16 i → memKind s.cfg b ≠ .ram) →
          left.mem.readWord b = s.mem.readWord b) ∧
        left.dma = s.dma.set d.val { s.dma.get d with busy := true, done := false, err := false } d.isLt ∧
        left.apend = s.apend) ∧
    ((s.dma.get d).p0 = .undef → ∃ left, exec (.dmaTrigger c) s =
        .fault (.raised (.readUndefined .periph (s.cfg.offs.dmaP0.get d)) left) ∧ left.mem = s.mem) ∧
    (∀ w, (s.dma.get d).p0 = .val w → (s.dma.get d).p1 = .undef → ∃ left, exec (.dmaTrigger c) s =
        .fault (.raised (.readUndefined .periph (s.cfg.offs.dmaP1.get d)) left) ∧ left.mem = s.mem)

/-- R243: the DMA_TRIGGER register stores its value and triggers channel v[2:0]; 7 names no channel. -/
def Obligations.TriggerRegisterNamesTheChannel : Prop :=
  ∀ (off v : Word) (s : State), s.fault = none → lookup s.cfg off = .base .dmaTrigger →
    exec (.periphWrite off v) s =
      if v.toNat % 8 = 7 then .next { s with bank := { s.bank with dmaTrigger := .val v }, result := .none }
      else exec (.dmaTrigger (BitVec.ofNat 3 v.toNat)) { s with bank := { s.bank with dmaTrigger := .val v } }

/-- R247: a trigger of channel c that completes, in any layout and onto any kinds of words. Every other channel, every parameter
word and everything but the channel, apend[2], its target memory, the trace and the draws are as before. A rejected trigger
leaves those too, but for err; an accepted one leaves the words outside its block, which is the one that P0[c] and P1[c] name,
and adds to the trace its NandRead and then IO words' events. -/
def Obligations.DmaChannelsAreIndependent : Prop :=
  ∀ (c : BitVec 3) (s t : State), MemoryCanonical s → exec (.dmaTrigger c) s = .next t →
    ∃ d : Fin 7, d.val = c.toNat ∧
      (∀ e : Fin 7, e ≠ d → t.dma.get e = s.dma.get e) ∧
      (t.dma.get d).p0 = (s.dma.get d).p0 ∧ (t.dma.get d).p1 = (s.dma.get d).p1 ∧
      (∀ k : Fin 4, k ≠ 2 → t.apend.getLsbD k.val = s.apend.getLsbD k.val) ∧
      t = { s with mem := t.mem, dma := t.dma, apend := t.apend, trace := t.trace, draws := t.draws, result := .none } ∧
      ((s.dma.get d).busy = true →
        t.mem = s.mem ∧ t.apend = s.apend ∧ t.trace = s.trace ∧ t.draws = s.draws) ∧
      ((s.dma.get d).busy = false → ∃ (p0 p1 a : Word) (n : Nat) (evs : List Event),
        (s.dma.get d).p0 = .val p0 ∧ (s.dma.get d).p1 = .val p1 ∧
        (s.cfg.dmaLayout = .addrLen → a = p0 ∧ n = p1.toNat) ∧
        (s.cfg.dmaLayout = .addrLoHi → (a, n) = dmaXferLoHi s.cfg p0 p1) ∧
        (∀ b : Word, (∀ i, i < n → b ≠ a + BitVec.ofNat 16 i) → t.mem.readWord b = s.mem.readWord b) ∧
        t.trace = s.trace ++ [.nandRead d n] ++ evs ∧
        (∀ ev ∈ evs, ∃ i v, i < n ∧ ev = .memEvent (a + BitVec.ofNat 16 i) v) ∧ t.draws = s.draws + n)

/-! ## Chip select and wait state -/

/-- R221, R223, R150: CS_RECOMPUTE computes the regions from CS_BASE and CS_CTRL and emits one event; WAIT_ENTER sets
waiting. While CS_CTRL is `Undefined` the control bits are a free value (log entry 19). -/
def Obligations.RecomputeAndWaitEnter : Prop :=
  ∀ s : State, s.fault = none →
    (∃ (ctrl : Word) (n : Nat), exec .csRecompute s = .next { s with
        csRegions := some (csMap s.cfg s.cfg.csBase ctrl), trace := s.trace ++ [.csRemap (csMap s.cfg s.cfg.csBase ctrl)]
        draws := n, result := .none } ∧
      ∀ w, s.bank.csCtrl = .val w → ctrl = w ∧ n = s.draws) ∧
    exec .waitEnter s = .next { s with waiting := true, result := .none }

/-- R151, R152, R133: a waiting machine with no enabled request takes idle steps, which change nothing but the draws of their
cost; a RUN of it takes them until the budget is spent and returns a budget of at most 0, the budget itself where it was not
positive. -/
def Obligations.WaitingMachineIdles : Prop :=
  ∀ (b : BitVec 32) (s : State), Running s → s.waiting = true → arbitrate s = none →
    (∃ n, exec .step s = .next { s with draws := s.draws + s.cfg.idleCycles, result := .cycles n } ∧ s.cfg.idleCycles ≤ n) ∧
    (1 ≤ s.cfg.idleCycles → ∃ (r : Int) (n : Nat), exec (.run b) s = .next { s with draws := n, result := .budget r } ∧
      r ≤ 0 ∧ (b.toInt ≤ 0 → r = b.toInt ∧ n = s.draws))

/-- R152: no operation but RESET, RESTORE, an interrupt entry and the engine's STEP and RUN ends the wait state, and STEP ends
it only by an entry. -/
def Obligations.WaitEndsOnlyByEntryOrReset : Prop :=
  ∀ (i : Instr) (s t : State), s.waiting = true → exec i s = .next t → t.waiting = false →
    (∃ strap, i = .reset strap) ∨ (∃ snap, i = .restore snap) ∨ (∃ l, i = .intEntry l) ∨ (∃ b, i = .run b) ∨
      (i = .step ∧ ∃ l, arbitrate s = some l)

/-! ## The engine -/

/-- R133: RUN takes no step for a budget that is not positive; otherwise it takes one step and goes on with the budget less
the step's cost, or ends in the step's fault with the budget left at it. The model's bound on the number of steps is never
met in a well-formed configuration (log entry 21), and the budget it returns has no width (log entry 36). -/
def Obligations.RunTakesStepsUntilTheBudgetIsSpent : Prop :=
  ∀ (b : BitVec 32) (s : State), Running s → configOk s.cfg = true →
    (b.toInt ≤ 0 → exec (.run b) s = .next { s with result := .budget b.toInt }) ∧
    (0 < b.toInt → ∀ (n : Nat) (t : State), exec .step s = .next { t with result := .cycles n } → t.result = s.result →
      1 ≤ n ∧
      (b.toInt ≤ n → exec (.run b) s = .next { t with result := .budget (b.toInt - n) }) ∧
      ((n : Int) < b.toInt → exec (.run b) s = exec (.run (BitVec.ofInt 32 (b.toInt - n))) t)) ∧
    (0 < b.toInt → ∀ r left, exec .step s = .fault (.raised r left) →
      exec (.run b) s = .fault (.raised r { left with result := .budget b.toInt })) ∧
    exec (.run b) s ≠ .refused .runWithoutEnd

/-- R136 to R138, R141: an instruction whose program ends with `Done(n)` completes: PC takes npc, which is PC + len
unless the program set it, and n is returned. CPU_WORD is the same instruction with its cost (R134). R139: each primitive of a
program is the operation of its name on the state at the moment it is called: the program goes on in the state the operation
leaves, with its result, or stops where the operation faults or is refused. That `FETCH(PC + 0)` reads the instruction's own word
again is the model's choice (log entry 37). -/
def Obligations.InstructionsRunTheirProgram : Prop :=
  (∀ (p : IsaPrim) (k : Prog IsaPrim Nat) (sc : Scope) (s : State), Running s →
    (∀ t, exec (primitiveInstr p sc s) (lengthCounted p s) = .next t →
      runProg performInstr (.call p k) sc s =
        runProg performInstr k { sc with vals := sc.vals ++ [resultWord t.result] } { t with result := s.result }) ∧
    (∀ f, exec (primitiveInstr p sc s) (lengthCounted p s) = .fault f → runProg performInstr (.call p k) sc s = .fault f) ∧
    (∀ r, exec (primitiveInstr p sc s) (lengthCounted p s) = .refused r →
      runProg performInstr (.call p k) sc s = .refused r)) ∧
  ∀ (w : Word) (p : Prog IsaPrim Nat) (n : Nat) (sc : Scope) (s t : State), Running s → isaExec s.cfg s.pc w = some p →
    runProg performInstr p { pc := s.pc, word := w, vals := [] } { s with npc := none, ilen := 1 } = .ok (n, sc) t →
    ∃ u, u = { t with pc := t.npc.getD (t.pc + BitVec.ofNat 16 t.ilen), npc := none, ilen := 1 } ∧
      exec (.instr w) s = .next { u with result := .cycles n } ∧
      ∃ m, exec (.cpuWord w) s = .next { u with draws := u.draws + n, result := .cycles m } ∧ n ≤ m

/-- R141's example, R137, R138, R172, R132: the parts of a program that move PC. A program that writes an accumulator leaves
PC + 1, whether INSTR, CPU_WORD or a step of the engine runs it; one that fetches a further word, `FETCH(PC + k)`, leaves
PC + 1 + k; one that calls PC_WRITE v leaves v. R139: an instruction that calls any one primitive and writes its result to an
accumulator does what the operation of the primitive's name does, and stops where that stops. At k = 0 the clauses of FETCH state
the model's choice (log entry 37). -/
def Obligations.ProgramsMoveThePc : Prop :=
  ∀ (w v j : Word) (k n : Nat) (s : State), Running s →
    (isaExec s.cfg s.pc w = some (.call (.acWrite (.lit j) (.lit v)) (.done n)) →
      ∃ t : State, t = { s with pc := s.pc + 1, ac := t.ac, npc := none, ilen := 1 } ∧
        (∀ i : Fin 4, t.ac.get i = if i.val = j.toNat % 4 then .val v else s.ac.get i) ∧
        exec (.instr w) s = .next { t with result := .cycles n } ∧
        ∃ m, n ≤ m ∧ exec (.cpuWord w) s = .next { t with draws := s.draws + n, result := .cycles m } ∧
          (decodeAddr s.cfg s.pc = .external → memKind s.cfg s.pc = .ram → s.mem.readWord s.pc = w →
            arbitrate s = none → s.waiting = false →
            exec .step s =
              .next { t with draws := s.draws + n, trace := s.trace ++ [.debugHook s.pc], result := .cycles m })) ∧
    (isaExec s.cfg s.pc w = some (.call (.fetch k) (.call (.pcWrite (.lit v)) (.done n))) →
      decodeAddr s.cfg (s.pc + BitVec.ofNat 16 k) = .external → memKind s.cfg (s.pc + BitVec.ofNat 16 k) = .ram →
      exec (.instr w) s = .next { s with pc := v, npc := none, ilen := 1, result := .cycles n }) ∧
    (isaExec s.cfg s.pc w = some (.call (.fetch k) (.call (.acWrite (.lit j) (.var 0)) (.done n))) →
      decodeAddr s.cfg (s.pc + BitVec.ofNat 16 k) = .external → memKind s.cfg (s.pc + BitVec.ofNat 16 k) = .ram →
      ∃ t, exec (.instr w) s = .next t ∧
        (∀ i : Fin 4, t.ac.get i =
          if i.val = j.toNat % 4 then .val (s.mem.readWord (s.pc + BitVec.ofNat 16 k)) else s.ac.get i) ∧
        t = { s with pc := s.pc + BitVec.ofNat 16 (1 + k), ac := t.ac, npc := none, ilen := 1, result := .cycles n }) ∧
    ∀ (p : IsaPrim) (sc : Scope) (b : State), isaExec s.cfg s.pc w = some (.call p (.call (.acWrite (.lit j) (.var 0)) (.done n))) →
      sc = { pc := s.pc, word := w, vals := [] } → b = lengthCounted p { s with npc := none, ilen := 1 } →
      (∀ t, exec (primitiveInstr p sc s) b = .next t → ∃ u, exec (.instr w) s = .next u ∧
        (∀ i : Fin 4, u.ac.get i = if i.val = j.toNat % 4 then .val (resultWord t.result) else t.ac.get i) ∧
        u = { t with pc := t.npc.getD (t.pc + BitVec.ofNat 16 t.ilen), ac := u.ac, npc := none, ilen := 1, result := .cycles n }) ∧
      (∀ f, exec (primitiveInstr p sc s) b = .fault f → exec (.instr w) s = .fault f) ∧
      (∀ r, exec (primitiveInstr p sc s) b = .refused r → exec (.instr w) s = .refused r)

/-- R140: a word that ISA_EXEC leaves unmodelled faults, nothing changes apart from the fault, and the engine takes no
further step. -/
def Obligations.UnmodelledWordsFault : Prop :=
  ∀ (w : Word) (s left : State), Running s → isaExec s.cfg s.pc w = none →
    left = { s with fault := some (.unmodelled s.pc w) } →
    exec (.instr w) s = .fault (.raised (.unmodelled s.pc w) left) ∧
    exec (.cpuWord w) s = .fault (.raised (.unmodelled s.pc w) left) ∧
    exec .step left = .refused .faultedMachine ∧ ∀ b, exec (.run b) left = .refused .faultedMachine

/-! ## Interrupts -/

/-- R273, R293, R274, R276, R275: which levels are requested (their pending latch; for L2 some source pending and enabled) and
enabled (IEN and the level's own bit; L0 always). The level entered is the first of ARB_ORDER that is both; under the default
order that is the lowest-numbered one. With IEN clear no level but L0 is entered. While IRQ_ENABLE is `Undefined` the sources'
enables are a free value (log entry 34). -/
def Obligations.LowestRequestedLevelWins : Prop :=
  ∀ s : State,
    (requested s .l0 = s.pending.l0 ∧ requested s .l1 = s.pending.l1 ∧ requested s .l3 = s.pending.l3 ∧
      requested s .l4 = s.pending.l4 ∧ requested s .l5 = s.pending.l5 ∧
      ∀ w : Word, s.bank.irqEnable = .val w →
        (requested s .l2 = true ↔ ∃ k : Fin 4, s.apend.getLsbD k.val = true ∧ w.getLsbD k.val = true)) ∧
    (enabled s .l0 = true ∧
      enabled s .l1 = (s.fr.getLsbD s.cfg.ienBit.val && s.fr.getLsbD s.cfg.ieBits.l1.val) ∧
      enabled s .l2 = (s.fr.getLsbD s.cfg.ienBit.val && s.fr.getLsbD s.cfg.ieBits.l2.val) ∧
      enabled s .l3 = (s.fr.getLsbD s.cfg.ienBit.val && s.fr.getLsbD s.cfg.ieBits.l3.val) ∧
      enabled s .l4 = (s.fr.getLsbD s.cfg.ienBit.val && s.fr.getLsbD s.cfg.ieBits.l4.val) ∧
      enabled s .l5 = (s.fr.getLsbD s.cfg.ienBit.val && s.fr.getLsbD s.cfg.ieBits.l5.val)) ∧
    (∀ l : Level, arbitrate s = some l ↔ requested s l = true ∧ enabled s l = true ∧
      ∃ before after, s.cfg.arbOrder = before ++ l :: after ∧
        ∀ m ∈ before, ¬ (requested s m = true ∧ enabled s m = true)) ∧
    (s.cfg.arbOrder = [.l0, .l1, .l2, .l3, .l4, .l5] →
      (∀ l : Level, arbitrate s = some l ↔ requested s l = true ∧ enabled s l = true ∧
        ∀ m : Level, levelNumber m < levelNumber l → ¬ (requested s m = true ∧ enabled s m = true)) ∧
      (arbitrate s = none ↔ ∀ m : Level, ¬ (requested s m = true ∧ enabled s m = true)) ∧
      (s.fr.getLsbD s.cfg.ienBit.val = false → arbitrate s = if s.pending.l0 then some .l0 else none) ∧
      (s.pending.l0 = true → arbitrate s = some .l0))

/-- R277: taking an interrupt. The latch clears, the wait ends, PC goes on the stack, IEN clears through FR_WRITE, and PC goes
to the handler with the vector v, which is 0 but for L2, where it is the highest-priority source pending and enabled (R294).
Where the engine arbitrates the level, the entry is its whole step: it costs INT_ENTRY_CYCLES, executes no instruction and
emits no hook. By itself the operation enters any level, requested or not (log entry 29), and then for L2 the vector may be a
free value (log entry 20). -/
def Obligations.InterruptEntryEffect : Prop :=
  ∀ (lf : BitVec 3) (l : Level) (s : State), Running s → StackPointerInRange s → levelNumber l = lf.toNat →
    ∃ (t : State) (v : Word) (outs : List Event), exec (.intEntry lf) s = .next t ∧
      t.pc = intVector s.cfg l v ∧ (l ≠ .l2 → v = 0) ∧
      (l = .l2 → ∀ en : Word, s.bank.irqEnable = .val en → ∀ k : Fin 4, s.apend.getLsbD k.val = true →
        en.getLsbD k.val = true →
        (∀ m : Fin 4, m < k → ¬ (s.apend.getLsbD m.val = true ∧ en.getLsbD m.val = true)) →
        v.toNat = k.val ∧ t.draws = s.draws) ∧
      (l ≠ .l2 → t.draws = s.draws) ∧
      t.waiting = false ∧
      t.pending = (let p : Pending := setPending s.pending l false; if s.sp = 9 then { p with l1 := true } else p) ∧
      t.sp.toNat = (s.sp.toNat + 1) % 10 ∧
      (∀ j : Fin 10, t.stk.get j = if j.val = s.sp.toNat then .val s.pc else s.stk.get j) ∧
      exec (.frWrite (s.fr &&& ~~~ (1#16 <<< s.cfg.ienBit.val))) s =
        .next { s with fr := t.fr, trace := s.trace ++ outs, result := .none } ∧
      t.trace = s.trace ++ outs ++ [.intAck l v] ∧ (s.cfg.ienBit.val < 11 → outs = []) ∧
      t = { s with pc := t.pc, sp := t.sp, stk := t.stk, fr := t.fr, pending := t.pending, waiting := t.waiting
                   trace := t.trace, draws := t.draws, result := .none } ∧
      (s.inbox = [] → arbitrate s = some l → ∃ n, s.cfg.intEntryCycles ≤ n ∧
        step s = .next { t with draws := t.draws + s.cfg.intEntryCycles, result := .cycles n })

/-- R279: INT_RETURN pops the next PC and sets IEN through FR_WRITE, the other FR bits staying; where the popped slot is
`Undefined` it faults. By itself it leaves PC and sets npc, which the spec has PC take when an instruction completes (log
entry 9). -/
def Obligations.InterruptReturnEffect : Prop :=
  ∀ (s : State) (j : Fin 10), Running s → StackPointerInRange s → j.val = (s.sp.toNat + 9) % 10 →
    (∀ w, s.stk.get j = .val w →
      ∃ (t : State) (outs : List Event), exec .intReturn s = .next t ∧ t.npc = some w ∧ t.sp.toNat = j.val ∧
        t.fr = s.fr ||| (1#16 <<< s.cfg.ienBit.val) ||| 0x8001 ∧
        exec (.frWrite (s.fr ||| (1#16 <<< s.cfg.ienBit.val))) s =
          .next { s with fr := t.fr, trace := s.trace ++ outs, result := .none } ∧
        t.trace = s.trace ++ outs ∧ (s.cfg.ienBit.val < 11 → outs = []) ∧
        t.pending = (if s.sp = 0 then { s.pending with l1 := true } else s.pending) ∧
        t = { s with npc := t.npc, sp := t.sp, fr := t.fr, pending := t.pending, trace := t.trace, result := .none }) ∧
    (s.stk.get j = .undef →
      ∃ left, exec .intReturn s = .fault (.raised (.readUndefined .stk (BitVec.ofNat 16 j.val)) left))

/-- R277, R279: after an entry, an instruction whose program calls INT_RETURN goes back to the interrupted address, with SP where
it was and IEN set. INT_RETURN by itself sets npc to that address and leaves PC (log entry 9). -/
def Obligations.ReturnUndoesTheEntry : Prop :=
  ∀ (lf : BitVec 3) (s t : State), Running s → StackPointerInRange s → exec (.intEntry lf) s = .next t →
    (∃ u, exec .intReturn t = .next u ∧ u.npc = some s.pc ∧ u.pc = t.pc ∧ u.sp = s.sp ∧
      u.fr.getLsbD s.cfg.ienBit.val = true) ∧
    ∀ (w : Word) (n : Nat), isaExec t.cfg t.pc w = some (.call .intReturn (.done n)) →
      ∃ u, exec (.instr w) t = .next u ∧ u.pc = s.pc ∧ u.npc = none ∧ u.sp = s.sp ∧
        u.fr.getLsbD s.cfg.ienBit.val = true ∧ u.result = .cycles n

/-- R271: SIGNAL_INT latches on a rising edge and keeps the level; L1, L2, 6 and 7 are refused. -/
def Obligations.SignalsLatchOnTheRisingEdge : Prop :=
  ∀ (lf : BitVec 3) (b : BitVec 1) (s : State), s.fault = none →
    (lf = 1 ∨ lf = 2 → exec (.signalInt lf b) s = .refused .levelHasNoPin) ∧
    (lf = 6 ∨ lf = 7 → exec (.signalInt lf b) s = .refused .refusedOperand) ∧
    (lf = 0 → exec (.signalInt lf b) s = .next { s with
      line := { s.line with l0 := b == 1 }, result := .none
      pending := { s.pending with l0 := s.pending.l0 || (b == 1 && !s.line.l0) } }) ∧
    (lf = 3 → exec (.signalInt lf b) s = .next { s with
      line := { s.line with l3 := b == 1 }, result := .none
      pending := { s.pending with l3 := s.pending.l3 || (b == 1 && !s.line.l3) } }) ∧
    (lf = 4 → exec (.signalInt lf b) s = .next { s with
      line := { s.line with l4 := b == 1 }, result := .none
      pending := { s.pending with l4 := s.pending.l4 || (b == 1 && !s.line.l4) } }) ∧
    (lf = 5 → exec (.signalInt lf b) s = .next { s with
      line := { s.line with l5 := b == 1 }, result := .none
      pending := { s.pending with l5 := s.pending.l5 || (b == 1 && !s.line.l5) } })

/-- R291: AGG_LINE latches on a rising edge and keeps the level, and lowering a line clears nothing; source 2 is refused. -/
def Obligations.SourcesLatchOnTheRisingEdge : Prop :=
  ∀ (b : BitVec 1) (s : State), s.fault = none →
    exec (.aggLine 2 b) s = .refused .sourceIsInternal ∧
    (∃ p : BitVec 4,
      exec (.aggLine 0 b) s = .next { s with apend := p, aline := { s.aline with video := b == 1 }, result := .none } ∧
      ∀ k : Fin 4, p.getLsbD k.val = (s.apend.getLsbD k.val || (k == 0 && b == 1 && !s.aline.video))) ∧
    (∃ p : BitVec 4,
      exec (.aggLine 1 b) s = .next { s with apend := p, aline := { s.aline with audio := b == 1 }, result := .none } ∧
      ∀ k : Fin 4, p.getLsbD k.val = (s.apend.getLsbD k.val || (k == 1 && b == 1 && !s.aline.audio))) ∧
    (∃ p : BitVec 4,
      exec (.aggLine 3 b) s = .next { s with apend := p, aline := { s.aline with internal := b == 1 }, result := .none } ∧
      ∀ k : Fin 4, p.getLsbD k.val = (s.apend.getLsbD k.val || (k == 3 && b == 1 && !s.aline.internal)))

/-- R291, R209: the whole-machine rule of the pending bits. apend[k] is cleared by RESET and RESTORE, by a write with bit k of
IRQ_ACK (or of an EXTRA_REGS entry, whose action may make one), as an operation or as a word write to the window, and by an
instruction, which may make such a write; STEP clears it only where it executes an instruction. -/
def Obligations.SourcesStayPendingUntilAcknowledged : Prop :=
  ∀ (i : Instr) (k : Fin 4) (s t : State), exec i s = .next t → s.apend.getLsbD k.val = true →
    t.apend.getLsbD k.val = false →
    (∃ strap, i = .reset strap) ∨ (∃ snap, i = .restore snap) ∨
      (∃ off v, (i = .periphWrite off v ∨ ∃ a, i = .memWrite16 a v ∧ decodeAddr s.cfg a = .window off) ∧
        (lookup s.cfg off = .base .irqAck ∧ v.getLsbD k.val = true ∨ ∃ j e, lookup s.cfg off = .extra j e)) ∨
      (∃ w, i = .instr w) ∨ (∃ w, i = .cpuWord w) ∨ (∃ b, i = .run b) ∨
      (i = .step ∧ arbitrate s = none ∧ s.waiting = false)

/-- R294, R295: the vector is the number of the highest-priority source that is pending and enabled. Where there is none
the spec states no vector, and it is a free value (log entry 20). -/
def Obligations.VectorNamesTheFirstSource : Prop :=
  ∀ s : State, s.fault = none →
    ∃ (v : Word) (n : Nat), exec .aggVectorFetch s = .next { s with draws := n, result := .word v } ∧
      ∀ en : Word, s.bank.irqEnable = .val en → ∀ k : Fin 4, s.apend.getLsbD k.val = true → en.getLsbD k.val = true →
        (∀ m : Fin 4, m < k → ¬ (s.apend.getLsbD m.val = true ∧ en.getLsbD m.val = true)) →
        v.toNat = k.val ∧ n = s.draws

/-! ## Save and restore -/

/-- R326: SAVE returns every field of the snapshot and changes nothing, on a faulted machine too; before the first RESET it
is refused. That field 6 holds a base register also where an EXTRA_REGS entry overrides it, and in this order, is the model's
choice (log entry 23). -/
def Obligations.SaveReturnsTheSnapshot : Prop :=
  ∀ s : State, (s.resetDone = false → exec .save s = .refused .notYetReset) ∧
    (s.resetDone = true → ∃ snap, exec .save s = .next { s with result := .snapshot snap } ∧
      snap.pc = s.pc ∧ snap.fr = s.fr ∧ snap.ac = s.ac ∧ snap.sp = s.sp ∧ snap.stk = s.stk ∧ snap.dma = s.dma ∧
      snap.csRegions = s.csRegions ∧ snap.pending = s.pending ∧ snap.line = s.line ∧ snap.waiting = s.waiting ∧
      snap.bootMode = s.bootMode ∧ snap.apend = s.apend ∧ snap.aline = s.aline ∧ snap.fault = s.fault ∧
      snap.resetDone = s.resetDone ∧
      ∃ rs : List Reg, snap.periph = rs.map (fun r => getReg r s) ∧ rs.Nodup ∧
        rs.Pairwise (fun q r => (regOffset s.cfg q).toNat ≤ (regOffset s.cfg r).toNat) ∧
        ∀ r, r ∈ rs ↔ ((∀ c sl, r ≠ .dmaP c sl) ∧
          ((r ∈ baseRegs s.cfg ∧ baseKind r ≠ .computed) ∨
            ∃ k e, r = .extra k ∧ s.cfg.extraRegs[k]? = some e ∧ e.kind ≠ .computed)))

/-- R328: the snapshot of any machine that meets the invariant, restored in any other state of the same machine, gives a
state whose snapshot is the same. -/
def Obligations.RestoreBringsBackTheSnapshot : Prop :=
  ∀ (s s' : State) (snap : Snapshot), Inv s → s.resetDone = true → Inv s' → s'.fault = none → s'.cfg = s.cfg →
    exec .save s = .next { s with result := .snapshot snap } →
    ∃ t, exec (.restore snap) s' = .next t ∧
      (exec .save t = .next { t with result := .snapshot snap }) ∧
      t.mem = s'.mem ∧ (∃ outs, t.trace = s'.trace ++ outs) ∧ t.inbox = s'.inbox

/-- R327, R166: RESTORE sets every field of a snapshot with SP in 0..9, FR bits 0 and 15 set and a cell for each register of
the machine (log entry 24), FR last, with the flag outputs of its change, and emits no other event; any other snapshot is refused. -/
def Obligations.RestoreSetsEveryField : Prop :=
  ∀ (snap : Snapshot) (s : State), s.fault = none → BankShaped s →
    (snap.sp.toNat ≤ 9 → snap.fr &&& 0x8001 = 0x8001 → snap.periph.length = (savedRegs s.cfg).length →
      ∃ t, exec (.restore snap) s = .next t ∧
      t.pc = snap.pc ∧ t.fr = snap.fr ∧ t.ac = snap.ac ∧ t.sp = snap.sp ∧ t.stk = snap.stk ∧ t.dma = snap.dma ∧
      t.csRegions = snap.csRegions ∧ t.pending = snap.pending ∧ t.line = snap.line ∧ t.waiting = snap.waiting ∧
      t.bootMode = snap.bootMode ∧ t.apend = snap.apend ∧ t.aline = snap.aline ∧ t.fault = snap.fault ∧
      t.resetDone = snap.resetDone ∧ (savedRegs s.cfg).map (fun r => getReg r t) = snap.periph ∧
      t.trace = s.trace ++ [(0 : Fin 4), 1, 2, 3].filterMap (fun k =>
        if snap.fr.getLsbD (11 + k.val) = s.fr.getLsbD (11 + k.val) then none
        else some (.flagOut k (snap.fr.getLsbD (11 + k.val)))) ∧
      t.cfg = s.cfg ∧ t.mem = s.mem ∧ t.npc = s.npc ∧ t.ilen = s.ilen ∧ t.draws = s.draws ∧ t.inbox = s.inbox) ∧
    (9 < snap.sp.toNat ∨ snap.fr &&& 0x8001 ≠ 0x8001 ∨ snap.periph.length ≠ (savedRegs s.cfg).length →
      exec (.restore snap) s = .refused .illFormedSnapshot)

/-! ## Invariants -/

/-- R33, R164, R35, R166: every step of every machine keeps FR's hard-wired bits, SP in 0..9, memory canonical and the
bank's shape. -/
def Obligations.EveryStepKeepsTheInvariant : Prop :=
  ∀ s t : State, Inv s → step s = .next t → Inv t

/-- R223, R220, R74: no step changes CS_BASE, the window or any other parameter of the machine. -/
def Obligations.NoStepChangesTheConfiguration : Prop :=
  ∀ s t : State, step s = .next t → t.cfg = s.cfg

/-- R84: reading changes nothing but the draws that a random status, a port or an IO word takes. -/
def Obligations.ReadsChangeNothing : Prop :=
  ∀ (i : Instr) (s t : State),
    ((∃ a, i = .memRead16 a) ∨ (∃ ba, i = .memRead8 ba) ∨ (∃ a, i = .fetch a) ∨ (∃ off, i = .periphRead off) ∨
     (∃ c sl, i = .dmaReadParam c sl) ∨ (∃ k, i = .acRead k) ∨ i = .frRead ∨ i = .spRead ∨ (∃ f, i = .dbgRead f) ∨
     (∃ j, i = .jcRead j) ∨ i = .aggVectorFetch ∨ i = .save) →
    exec i s = .next t → t = { s with draws := t.draws, result := t.result }

/-- R248: busy is 0 at every boundary that engine steps reach, in one step and in a whole RUN. -/
def Obligations.EngineStepsLeaveChannelsIdle : Prop :=
  ∀ (s t : State) (b : BitVec 32), ChannelsIdle s →
    (exec .step s = .next t → ChannelsIdle t) ∧ (exec (.run b) s = .next t → ChannelsIdle t)

/-- R321: no rule reads boot_mode: an engine step of a machine that differs in the strap alone differs in the strap
alone. Both machines take the same draws, since a draw's value is the model's at one counter value (log entry 2). -/
def Obligations.StrapIsNeverRead : Prop :=
  ∀ (s t : State) (m : BitVec 2), exec .step s = .next t →
    exec .step { s with bootMode := m } = .next { t with bootMode := m }
end

