-- ==== Sys2Proof/Laws/Memory.lean ====
section
/-! SUPPORT. The laws of memory: a read after a write, and the canonical form kept. -/

namespace Sys2Proof.Machine

/-- Below the least address of a canonical memory every byte reads as unlisted. -/
theorem Memory.read_below {m : Memory} {lo k : Nat} (h : Memory.risesAbove lo m = true) (hk : k < lo) :
    m.read k = Memory.unlisted := by
  induction m generalizing lo with
  | nil => rfl
  | cons p rest ih =>
    obtain ⟨a, b⟩ := p
    simp only [risesAbove, Bool.and_eq_true, decide_eq_true_eq] at h
    have ha : a ≠ k := by omega
    simp only [read, if_neg ha]
    exact ih h.2 (by omega)

theorem Memory.risesAbove_mono {m : Memory} {lo lo' : Nat} (h : Memory.risesAbove lo m = true) (hl : lo' ≤ lo) :
    Memory.risesAbove lo' m = true := by
  cases m with
  | nil => rfl
  | cons p rest =>
    obtain ⟨a, b⟩ := p
    simp only [risesAbove, Bool.and_eq_true, decide_eq_true_eq] at h ⊢
    exact ⟨⟨⟨by omega, h.1.1.2⟩, h.1.2⟩, h.2⟩

/-- A write of the canonical form keeps it. -/
theorem Memory.risesAbove_write {m : Memory} {lo k : Nat} (v : Byte) (h : Memory.risesAbove lo m = true) (hk : lo ≤ k)
    (hb : k < Memory.byteCount) : Memory.risesAbove lo (m.write k v) = true := by
  induction m generalizing lo with
  | nil =>
    unfold write
    split
    · rfl
    · simp_all [risesAbove]
  | cons p rest ih =>
    obtain ⟨a, b⟩ := p
    have h' := h
    simp only [risesAbove, Bool.and_eq_true, decide_eq_true_eq] at h
    simp only [write]
    split
    · split
      · exact h'
      · simp only [risesAbove, Bool.and_eq_true, decide_eq_true_eq]
        exact ⟨⟨⟨hk, hb⟩, by simpa using ‹_›⟩, ⟨⟨by omega, h.1.1.2⟩, h.1.2⟩, h.2⟩
    · split
      · split
        · exact risesAbove_mono h.2 (by omega)
        · subst a
          simp only [risesAbove, Bool.and_eq_true, decide_eq_true_eq]
          exact ⟨⟨⟨hk, hb⟩, by simpa using ‹_›⟩, h.2⟩
      · simp only [risesAbove, Bool.and_eq_true, decide_eq_true_eq]
        exact ⟨h.1, ih h.2 (by omega)⟩

theorem Memory.wf_write {m : Memory} (k : Nat) (v : Byte) (h : m.wf = true) (hb : k < Memory.byteCount) :
    (m.write k v).wf = true := risesAbove_write v h (Nat.zero_le k) hb

/-- A byte reads as what was last written to it. -/
theorem Memory.read_write_same {m : Memory} {lo k : Nat} (v : Byte) (h : Memory.risesAbove lo m = true) :
    (m.write k v).read k = v := by
  induction m generalizing lo with
  | nil =>
    unfold write
    split
    · simp_all [read]
    · simp [read]
  | cons p rest ih =>
    obtain ⟨a, b⟩ := p
    have h' := h
    simp only [risesAbove, Bool.and_eq_true, decide_eq_true_eq] at h
    simp only [write]
    split
    · split
      · have : risesAbove (k + 1) ((a, b) :: rest) = true := by
          simp only [risesAbove, Bool.and_eq_true, decide_eq_true_eq]
          exact ⟨⟨⟨by omega, h.1.1.2⟩, h.1.2⟩, h.2⟩
        rw [read_below this (by omega)]
        exact Eq.symm ‹_›
      · simp [read]
    · split
      · split
        · rw [read_below h.2 (by omega)]
          exact Eq.symm ‹_›
        · simp [read]
      · have ha : a ≠ k := fun e => ‹¬k = a› e.symm
        simp only [read, if_neg ha]
        exact ih h.2

/-- A write leaves every other byte alone. -/
theorem Memory.read_write_other {m : Memory} {lo k j : Nat} (v : Byte) (h : Memory.risesAbove lo m = true) (hj : j ≠ k) :
    (m.write k v).read j = m.read j := by
  induction m generalizing lo with
  | nil =>
    unfold write
    split
    · rfl
    · simp [read, hj.symm]
  | cons p rest ih =>
    obtain ⟨a, b⟩ := p
    simp only [risesAbove, Bool.and_eq_true, decide_eq_true_eq] at h
    simp only [write]
    split
    · split
      · rfl
      · simp [read, hj.symm]
    · split
      · subst a
        split
        · simp [read, hj.symm]
        · simp [read, hj.symm]
      · simp only [read]
        split
        · rfl
        · exact ih h.2

/-! ## Words -/

@[simp] theorem laneLo_wordOfLanes (lo hi : Byte) : laneLo (wordOfLanes lo hi) = lo := by
  unfold laneLo wordOfLanes
  apply BitVec.eq_of_getLsbD_eq
  intro i h
  have : i < 16 := by omega
  simp [h, this]

@[simp] theorem laneHi_wordOfLanes (lo hi : Byte) : laneHi (wordOfLanes lo hi) = hi := by
  unfold laneHi wordOfLanes
  apply BitVec.eq_of_getLsbD_eq
  intro i h
  have : 8 + i < 16 := by omega
  simp [h, this]

@[simp] theorem wordOfLanes_lanes (w : Word) : wordOfLanes (laneLo w) (laneHi w) = w := by
  unfold laneLo laneHi wordOfLanes
  apply BitVec.eq_of_getLsbD_eq
  intro i h
  by_cases h8 : i < 8
  · simp [h, h8]
  · have h1 : i - 8 < 8 := by omega
    have h2 : 8 + (i - 8) = i := by omega
    simp [h, h8, h1, h2]

theorem byteAddr_toNat (a : Word) (lane : Bool) : (byteAddr a lane).toNat = 2 * a.toNat + lane.toNat := by
  unfold byteAddr
  have := a.isLt
  have hl : lane.toNat ≤ 1 := Bool.toNat_le lane
  rw [BitVec.toNat_ofNat, Nat.mod_eq_of_lt (by omega)]

theorem wordOfByteAddr_byteAddr (a : Word) (lane : Bool) : wordOfByteAddr (byteAddr a lane) = a := by
  apply BitVec.eq_of_toNat_eq
  have := a.isLt
  have hl : lane.toNat ≤ 1 := Bool.toNat_le lane
  simp only [wordOfByteAddr, BitVec.extractLsb'_toNat, byteAddr_toNat, Nat.shiftRight_eq_div_pow]
  omega

theorem byteAddr_lane (a : Word) (lane : Bool) : (byteAddr a lane).getLsbD 0 = lane := by
  have h : (byteAddr a lane).getLsbD 0 = decide ((byteAddr a lane).toNat % 2 = 1) := by
    rw [← BitVec.testBit_toNat, Nat.testBit_zero]
  rw [h, byteAddr_toNat]
  cases lane <;> simp

theorem byteAddr_lt (a : Word) (lane : Bool) : (byteAddr a lane).toNat < Memory.byteCount :=
  (byteAddr a lane).isLt

theorem Memory.wf_writeWord {m : Memory} (a v : Word) (h : m.wf = true) : (m.writeWord a v).wf = true :=
  wf_write _ _ (wf_write _ _ h (byteAddr_lt a false)) (byteAddr_lt a true)

/-- A word reads as what was last written to it. -/
theorem Memory.readWord_writeWord_same {m : Memory} (a v : Word) (h : m.wf = true) : (m.writeWord a v).readWord a = v := by
  have hne : (byteAddr a false).toNat ≠ (byteAddr a true).toNat := by simp [byteAddr_toNat]
  unfold readWord writeWord
  rw [read_write_same _ (wf_write _ _ h (byteAddr_lt a false)),
    read_write_other _ (wf_write _ _ h (byteAddr_lt a false)) hne, read_write_same _ h, wordOfLanes_lanes]

/-- A word write leaves every byte outside its two lanes alone. -/
theorem Memory.read_writeWord_other {m : Memory} {a v : Word} {k : Nat} (h : m.wf = true)
    (h0 : k ≠ (byteAddr a false).toNat) (h1 : k ≠ (byteAddr a true).toNat) : (m.writeWord a v).read k = m.read k := by
  unfold writeWord
  rw [read_write_other _ (wf_write _ _ h (byteAddr_lt a false)) h1, read_write_other _ h h0]

/-- A word write leaves every other word alone. -/
theorem Memory.readWord_writeWord_other {m : Memory} {a b : Word} (v : Word) (h : m.wf = true) (hab : b ≠ a) :
    (m.writeWord a v).readWord b = m.readWord b := by
  have hn : b.toNat ≠ a.toNat := fun e => hab (BitVec.eq_of_toNat_eq e)
  unfold readWord
  rw [read_writeWord_other h, read_writeWord_other h] <;> simp [byteAddr_toNat] <;> omega

end Sys2Proof.Machine
end

