-- ==== Sys2Proof/Laws/Res.lean ====
section
/-! SUPPORT. How the answers of operations compose, and when a performed operation answers a next state or a fault. -/

namespace Sys2Proof.Machine

@[simp] theorem Res.bind_ok {α β : Type} (v : α) (s : State) (f : α → State → Res β) : (Res.ok v s).bind f = f v s := rfl
@[simp] theorem Res.bind_fault {α β : Type} (r : Fault) (f : α → State → Res β) : (Res.fault r).bind f = .fault r := rfl
@[simp] theorem Res.bind_refused {α β : Type} (r : Refusal) (f : α → State → Res β) :
    (Res.refused r).bind f = .refused r := rfl

@[simp] theorem raise_bind {α β : Type} (reason : FaultReason) (s : State) (f : α → State → Res β) :
    (raise reason s : Res α).bind f = raise reason s := rfl

/-- On a machine that has not faulted a fault is recorded with its reason. -/
theorem raise_unfaulted {α : Type} {s : State} (h : s.fault = none) (reason : FaultReason) :
    (raise reason s : Res α) = .fault (.raised reason { s with fault := some reason }) := by
  simp [raise, h]

theorem Res.bind_assoc {α β γ : Type} (x : Res α) (f : α → State → Res β) (g : β → State → Res γ) :
    (x.bind f).bind g = x.bind fun v s => (f v s).bind g := by
  cases x <;> rfl

theorem Res.bind_eq_ok {α β : Type} {x : Res α} {f : α → State → Res β} {w : β} {t : State} :
    x.bind f = .ok w t ↔ ∃ v u, x = .ok v u ∧ f v u = .ok w t := by
  cases x <;> simp [Res.bind]

/-- On a machine that has not faulted an operation is performed. -/
@[simp] theorem perform_unfaulted {α : Type} {op : State → Res α} {res : α → Result} {s : State} (h : s.fault = none) :
    perform op res s = (op s).outcome res := by
  simp [perform, h]

/-- On a faulted machine it is refused (spec/60_exceptions.md R303). -/
theorem perform_faulted {α : Type} {op : State → Res α} {res : α → Result} {s : State} (h : s.fault ≠ none) :
    perform op res s = .refused .faultedMachine := by
  cases hf : s.fault with
  | none => exact absurd hf h
  | some r => simp [perform, hf]

theorem afterReset_of {α : Type} (x : State → Res α) {s : State} (h : s.resetDone = true) : afterReset x s = x s := by
  simp [afterReset, h]

/-- Before the first RESET it is refused (spec/10_state.md R37). -/
theorem afterReset_before {α : Type} (x : State → Res α) {s : State} (h : s.resetDone = false) :
    afterReset x s = .refused .notYetReset := by
  simp [afterReset, h]

/-- After a RESET and without a fault an operation that needs a RESET is performed. -/
theorem performAfterReset_running {α : Type} {op : State → Res α} {res : α → Result} {s : State} (h : s.fault = none)
    (hr : s.resetDone = true) : performAfterReset op res s = (op s).outcome res := by
  simp [performAfterReset, afterReset, h, hr]

theorem Res.outcome_eq_next {α : Type} {x : Res α} {res : α → Result} {t : State} :
    x.outcome res = .next t ↔ ∃ v u, x = .ok v u ∧ t = { u with result := res v } := by
  cases x with
  | ok v u => simp only [Res.outcome, Host.Outcome.next.injEq, Res.ok.injEq]; exact ⟨fun h => ⟨v, u, ⟨rfl, rfl⟩, h.symm⟩, by rintro ⟨_, _, ⟨rfl, rfl⟩, rfl⟩; rfl⟩
  | fault r => simp [Res.outcome]
  | refused r => simp [Res.outcome]

theorem Res.outcome_eq_fault {α : Type} {x : Res α} {res : α → Result} {r : Fault} :
    x.outcome res = .fault r ↔ x = .fault r := by
  cases x <;> simp [Res.outcome]

/-- A next state comes from an operation that answered a value on a machine that had not faulted. -/
theorem perform_eq_next {α : Type} {op : State → Res α} {res : α → Result} {s t : State} :
    perform op res s = .next t ↔ s.fault = none ∧ ∃ v u, op s = .ok v u ∧ t = { u with result := res v } := by
  by_cases h : s.fault = none
  · rw [perform_unfaulted h, Res.outcome_eq_next]; simp [h]
  · rw [perform_faulted h]; simp [h]

theorem performAfterReset_eq_next {α : Type} {op : State → Res α} {res : α → Result} {s t : State} :
    performAfterReset op res s = .next t ↔
      s.fault = none ∧ s.resetDone = true ∧ ∃ v u, op s = .ok v u ∧ t = { u with result := res v } := by
  unfold performAfterReset
  rw [perform_eq_next]
  unfold afterReset
  cases s.resetDone <;> simp

theorem perform_eq_fault {α : Type} {op : State → Res α} {res : α → Result} {s : State} {r : Fault} :
    perform op res s = .fault r ↔ s.fault = none ∧ op s = .fault r := by
  by_cases h : s.fault = none
  · rw [perform_unfaulted h, Res.outcome_eq_fault]; simp [h]
  · rw [perform_faulted h]; simp [h]

theorem performAfterReset_eq_fault {α : Type} {op : State → Res α} {res : α → Result} {s : State} {r : Fault} :
    performAfterReset op res s = .fault r ↔ s.fault = none ∧ s.resetDone = true ∧ op s = .fault r := by
  unfold performAfterReset
  rw [perform_eq_fault]
  unfold afterReset
  cases s.resetDone <;> simp

end Sys2Proof.Machine
end

