-- ==== Sys2Proof/Laws/State.lean ====
section
/-! SUPPORT. One lemma per field and update of the state. -/

namespace Sys2Proof.Machine

@[simp] theorem emit_cfg (e : Event) (s : State) : (emit e s).cfg = s.cfg := rfl
@[simp] theorem emit_pc (e : Event) (s : State) : (emit e s).pc = s.pc := rfl
@[simp] theorem emit_fr (e : Event) (s : State) : (emit e s).fr = s.fr := rfl
@[simp] theorem emit_ac (e : Event) (s : State) : (emit e s).ac = s.ac := rfl
@[simp] theorem emit_sp (e : Event) (s : State) : (emit e s).sp = s.sp := rfl
@[simp] theorem emit_stk (e : Event) (s : State) : (emit e s).stk = s.stk := rfl
@[simp] theorem emit_npc (e : Event) (s : State) : (emit e s).npc = s.npc := rfl
@[simp] theorem emit_ilen (e : Event) (s : State) : (emit e s).ilen = s.ilen := rfl
@[simp] theorem emit_line (e : Event) (s : State) : (emit e s).line = s.line := rfl
@[simp] theorem emit_pending (e : Event) (s : State) : (emit e s).pending = s.pending := rfl
@[simp] theorem emit_waiting (e : Event) (s : State) : (emit e s).waiting = s.waiting := rfl
@[simp] theorem emit_bootMode (e : Event) (s : State) : (emit e s).bootMode = s.bootMode := rfl
@[simp] theorem emit_fault (e : Event) (s : State) : (emit e s).fault = s.fault := rfl
@[simp] theorem emit_resetDone (e : Event) (s : State) : (emit e s).resetDone = s.resetDone := rfl
@[simp] theorem emit_bank (e : Event) (s : State) : (emit e s).bank = s.bank := rfl
@[simp] theorem emit_dma (e : Event) (s : State) : (emit e s).dma = s.dma := rfl
@[simp] theorem emit_apend (e : Event) (s : State) : (emit e s).apend = s.apend := rfl
@[simp] theorem emit_aline (e : Event) (s : State) : (emit e s).aline = s.aline := rfl
@[simp] theorem emit_csRegions (e : Event) (s : State) : (emit e s).csRegions = s.csRegions := rfl
@[simp] theorem emit_mem (e : Event) (s : State) : (emit e s).mem = s.mem := rfl
@[simp] theorem emit_inbox (e : Event) (s : State) : (emit e s).inbox = s.inbox := rfl
@[simp] theorem emit_trace (e : Event) (s : State) : (emit e s).trace = s.trace ++ [e] := rfl
@[simp] theorem emit_result (e : Event) (s : State) : (emit e s).result = s.result := rfl
@[simp] theorem emit_draws (e : Event) (s : State) : (emit e s).draws = s.draws := rfl

@[simp] theorem drawn_cfg (s : State) : (drawn s).cfg = s.cfg := rfl
@[simp] theorem drawn_pc (s : State) : (drawn s).pc = s.pc := rfl
@[simp] theorem drawn_fr (s : State) : (drawn s).fr = s.fr := rfl
@[simp] theorem drawn_ac (s : State) : (drawn s).ac = s.ac := rfl
@[simp] theorem drawn_sp (s : State) : (drawn s).sp = s.sp := rfl
@[simp] theorem drawn_stk (s : State) : (drawn s).stk = s.stk := rfl
@[simp] theorem drawn_npc (s : State) : (drawn s).npc = s.npc := rfl
@[simp] theorem drawn_ilen (s : State) : (drawn s).ilen = s.ilen := rfl
@[simp] theorem drawn_line (s : State) : (drawn s).line = s.line := rfl
@[simp] theorem drawn_pending (s : State) : (drawn s).pending = s.pending := rfl
@[simp] theorem drawn_waiting (s : State) : (drawn s).waiting = s.waiting := rfl
@[simp] theorem drawn_bootMode (s : State) : (drawn s).bootMode = s.bootMode := rfl
@[simp] theorem drawn_fault (s : State) : (drawn s).fault = s.fault := rfl
@[simp] theorem drawn_resetDone (s : State) : (drawn s).resetDone = s.resetDone := rfl
@[simp] theorem drawn_bank (s : State) : (drawn s).bank = s.bank := rfl
@[simp] theorem drawn_dma (s : State) : (drawn s).dma = s.dma := rfl
@[simp] theorem drawn_apend (s : State) : (drawn s).apend = s.apend := rfl
@[simp] theorem drawn_aline (s : State) : (drawn s).aline = s.aline := rfl
@[simp] theorem drawn_csRegions (s : State) : (drawn s).csRegions = s.csRegions := rfl
@[simp] theorem drawn_mem (s : State) : (drawn s).mem = s.mem := rfl
@[simp] theorem drawn_inbox (s : State) : (drawn s).inbox = s.inbox := rfl
@[simp] theorem drawn_trace (s : State) : (drawn s).trace = s.trace := rfl
@[simp] theorem drawn_result (s : State) : (drawn s).result = s.result := rfl
@[simp] theorem drawn_draws (s : State) : (drawn s).draws = s.draws + 1 := rfl

@[simp] theorem setFlags_cfg (v : Word) (s : State) : (setFlags v s).cfg = s.cfg := rfl
@[simp] theorem setFlags_pc (v : Word) (s : State) : (setFlags v s).pc = s.pc := rfl
@[simp] theorem setFlags_fr (v : Word) (s : State) : (setFlags v s).fr = v ||| frOnes := rfl
@[simp] theorem setFlags_ac (v : Word) (s : State) : (setFlags v s).ac = s.ac := rfl
@[simp] theorem setFlags_sp (v : Word) (s : State) : (setFlags v s).sp = s.sp := rfl
@[simp] theorem setFlags_stk (v : Word) (s : State) : (setFlags v s).stk = s.stk := rfl
@[simp] theorem setFlags_npc (v : Word) (s : State) : (setFlags v s).npc = s.npc := rfl
@[simp] theorem setFlags_ilen (v : Word) (s : State) : (setFlags v s).ilen = s.ilen := rfl
@[simp] theorem setFlags_line (v : Word) (s : State) : (setFlags v s).line = s.line := rfl
@[simp] theorem setFlags_pending (v : Word) (s : State) : (setFlags v s).pending = s.pending := rfl
@[simp] theorem setFlags_waiting (v : Word) (s : State) : (setFlags v s).waiting = s.waiting := rfl
@[simp] theorem setFlags_bootMode (v : Word) (s : State) : (setFlags v s).bootMode = s.bootMode := rfl
@[simp] theorem setFlags_fault (v : Word) (s : State) : (setFlags v s).fault = s.fault := rfl
@[simp] theorem setFlags_resetDone (v : Word) (s : State) : (setFlags v s).resetDone = s.resetDone := rfl
@[simp] theorem setFlags_bank (v : Word) (s : State) : (setFlags v s).bank = s.bank := rfl
@[simp] theorem setFlags_dma (v : Word) (s : State) : (setFlags v s).dma = s.dma := rfl
@[simp] theorem setFlags_apend (v : Word) (s : State) : (setFlags v s).apend = s.apend := rfl
@[simp] theorem setFlags_aline (v : Word) (s : State) : (setFlags v s).aline = s.aline := rfl
@[simp] theorem setFlags_csRegions (v : Word) (s : State) : (setFlags v s).csRegions = s.csRegions := rfl
@[simp] theorem setFlags_mem (v : Word) (s : State) : (setFlags v s).mem = s.mem := rfl
@[simp] theorem setFlags_inbox (v : Word) (s : State) : (setFlags v s).inbox = s.inbox := rfl
@[simp] theorem setFlags_trace (v : Word) (s : State) : (setFlags v s).trace = s.trace ++ flagOuts s.fr v := rfl
@[simp] theorem setFlags_result (v : Word) (s : State) : (setFlags v s).result = s.result := rfl
@[simp] theorem setFlags_draws (v : Word) (s : State) : (setFlags v s).draws = s.draws := rfl

@[simp] theorem writeAc_cfg (i : Fin 4) (v : Cell) (s : State) : (writeAc i v s).cfg = s.cfg := rfl
@[simp] theorem writeAc_pc (i : Fin 4) (v : Cell) (s : State) : (writeAc i v s).pc = s.pc := rfl
@[simp] theorem writeAc_fr (i : Fin 4) (v : Cell) (s : State) : (writeAc i v s).fr = s.fr := rfl
@[simp] theorem writeAc_ac (i : Fin 4) (v : Cell) (s : State) : (writeAc i v s).ac = s.ac.set i.val v i.isLt := rfl
@[simp] theorem writeAc_sp (i : Fin 4) (v : Cell) (s : State) : (writeAc i v s).sp = s.sp := rfl
@[simp] theorem writeAc_stk (i : Fin 4) (v : Cell) (s : State) : (writeAc i v s).stk = s.stk := rfl
@[simp] theorem writeAc_npc (i : Fin 4) (v : Cell) (s : State) : (writeAc i v s).npc = s.npc := rfl
@[simp] theorem writeAc_ilen (i : Fin 4) (v : Cell) (s : State) : (writeAc i v s).ilen = s.ilen := rfl
@[simp] theorem writeAc_line (i : Fin 4) (v : Cell) (s : State) : (writeAc i v s).line = s.line := rfl
@[simp] theorem writeAc_pending (i : Fin 4) (v : Cell) (s : State) : (writeAc i v s).pending = s.pending := rfl
@[simp] theorem writeAc_waiting (i : Fin 4) (v : Cell) (s : State) : (writeAc i v s).waiting = s.waiting := rfl
@[simp] theorem writeAc_bootMode (i : Fin 4) (v : Cell) (s : State) : (writeAc i v s).bootMode = s.bootMode := rfl
@[simp] theorem writeAc_fault (i : Fin 4) (v : Cell) (s : State) : (writeAc i v s).fault = s.fault := rfl
@[simp] theorem writeAc_resetDone (i : Fin 4) (v : Cell) (s : State) : (writeAc i v s).resetDone = s.resetDone := rfl
@[simp] theorem writeAc_bank (i : Fin 4) (v : Cell) (s : State) : (writeAc i v s).bank = s.bank := rfl
@[simp] theorem writeAc_dma (i : Fin 4) (v : Cell) (s : State) : (writeAc i v s).dma = s.dma := rfl
@[simp] theorem writeAc_apend (i : Fin 4) (v : Cell) (s : State) : (writeAc i v s).apend = s.apend := rfl
@[simp] theorem writeAc_aline (i : Fin 4) (v : Cell) (s : State) : (writeAc i v s).aline = s.aline := rfl
@[simp] theorem writeAc_csRegions (i : Fin 4) (v : Cell) (s : State) : (writeAc i v s).csRegions = s.csRegions := rfl
@[simp] theorem writeAc_mem (i : Fin 4) (v : Cell) (s : State) : (writeAc i v s).mem = s.mem := rfl
@[simp] theorem writeAc_inbox (i : Fin 4) (v : Cell) (s : State) : (writeAc i v s).inbox = s.inbox := rfl
@[simp] theorem writeAc_trace (i : Fin 4) (v : Cell) (s : State) : (writeAc i v s).trace = s.trace := rfl
@[simp] theorem writeAc_result (i : Fin 4) (v : Cell) (s : State) : (writeAc i v s).result = s.result := rfl
@[simp] theorem writeAc_draws (i : Fin 4) (v : Cell) (s : State) : (writeAc i v s).draws = s.draws := rfl

@[simp] theorem writeSp_cfg (v : Byte) (s : State) : (writeSp v s).cfg = s.cfg := rfl
@[simp] theorem writeSp_pc (v : Byte) (s : State) : (writeSp v s).pc = s.pc := rfl
@[simp] theorem writeSp_fr (v : Byte) (s : State) : (writeSp v s).fr = s.fr := rfl
@[simp] theorem writeSp_ac (v : Byte) (s : State) : (writeSp v s).ac = s.ac := rfl
@[simp] theorem writeSp_sp (v : Byte) (s : State) : (writeSp v s).sp = clamp v := rfl
@[simp] theorem writeSp_stk (v : Byte) (s : State) : (writeSp v s).stk = s.stk := rfl
@[simp] theorem writeSp_npc (v : Byte) (s : State) : (writeSp v s).npc = s.npc := rfl
@[simp] theorem writeSp_ilen (v : Byte) (s : State) : (writeSp v s).ilen = s.ilen := rfl
@[simp] theorem writeSp_line (v : Byte) (s : State) : (writeSp v s).line = s.line := rfl
@[simp] theorem writeSp_pending (v : Byte) (s : State) : (writeSp v s).pending = s.pending := rfl
@[simp] theorem writeSp_waiting (v : Byte) (s : State) : (writeSp v s).waiting = s.waiting := rfl
@[simp] theorem writeSp_bootMode (v : Byte) (s : State) : (writeSp v s).bootMode = s.bootMode := rfl
@[simp] theorem writeSp_fault (v : Byte) (s : State) : (writeSp v s).fault = s.fault := rfl
@[simp] theorem writeSp_resetDone (v : Byte) (s : State) : (writeSp v s).resetDone = s.resetDone := rfl
@[simp] theorem writeSp_bank (v : Byte) (s : State) : (writeSp v s).bank = s.bank := rfl
@[simp] theorem writeSp_dma (v : Byte) (s : State) : (writeSp v s).dma = s.dma := rfl
@[simp] theorem writeSp_apend (v : Byte) (s : State) : (writeSp v s).apend = s.apend := rfl
@[simp] theorem writeSp_aline (v : Byte) (s : State) : (writeSp v s).aline = s.aline := rfl
@[simp] theorem writeSp_csRegions (v : Byte) (s : State) : (writeSp v s).csRegions = s.csRegions := rfl
@[simp] theorem writeSp_mem (v : Byte) (s : State) : (writeSp v s).mem = s.mem := rfl
@[simp] theorem writeSp_inbox (v : Byte) (s : State) : (writeSp v s).inbox = s.inbox := rfl
@[simp] theorem writeSp_trace (v : Byte) (s : State) : (writeSp v s).trace = s.trace := rfl
@[simp] theorem writeSp_result (v : Byte) (s : State) : (writeSp v s).result = s.result := rfl
@[simp] theorem writeSp_draws (v : Byte) (s : State) : (writeSp v s).draws = s.draws := rfl

@[simp] theorem writeStk_cfg (j : BitVec 4) (v : Cell) (s : State) : (writeStk j v s).cfg = s.cfg := rfl
@[simp] theorem writeStk_pc (j : BitVec 4) (v : Cell) (s : State) : (writeStk j v s).pc = s.pc := rfl
@[simp] theorem writeStk_fr (j : BitVec 4) (v : Cell) (s : State) : (writeStk j v s).fr = s.fr := rfl
@[simp] theorem writeStk_ac (j : BitVec 4) (v : Cell) (s : State) : (writeStk j v s).ac = s.ac := rfl
@[simp] theorem writeStk_sp (j : BitVec 4) (v : Cell) (s : State) : (writeStk j v s).sp = s.sp := rfl
@[simp] theorem writeStk_stk (j : BitVec 4) (v : Cell) (s : State) : (writeStk j v s).stk = s.stk.setIfInBounds j.toNat v := rfl
@[simp] theorem writeStk_npc (j : BitVec 4) (v : Cell) (s : State) : (writeStk j v s).npc = s.npc := rfl
@[simp] theorem writeStk_ilen (j : BitVec 4) (v : Cell) (s : State) : (writeStk j v s).ilen = s.ilen := rfl
@[simp] theorem writeStk_line (j : BitVec 4) (v : Cell) (s : State) : (writeStk j v s).line = s.line := rfl
@[simp] theorem writeStk_pending (j : BitVec 4) (v : Cell) (s : State) : (writeStk j v s).pending = s.pending := rfl
@[simp] theorem writeStk_waiting (j : BitVec 4) (v : Cell) (s : State) : (writeStk j v s).waiting = s.waiting := rfl
@[simp] theorem writeStk_bootMode (j : BitVec 4) (v : Cell) (s : State) : (writeStk j v s).bootMode = s.bootMode := rfl
@[simp] theorem writeStk_fault (j : BitVec 4) (v : Cell) (s : State) : (writeStk j v s).fault = s.fault := rfl
@[simp] theorem writeStk_resetDone (j : BitVec 4) (v : Cell) (s : State) : (writeStk j v s).resetDone = s.resetDone := rfl
@[simp] theorem writeStk_bank (j : BitVec 4) (v : Cell) (s : State) : (writeStk j v s).bank = s.bank := rfl
@[simp] theorem writeStk_dma (j : BitVec 4) (v : Cell) (s : State) : (writeStk j v s).dma = s.dma := rfl
@[simp] theorem writeStk_apend (j : BitVec 4) (v : Cell) (s : State) : (writeStk j v s).apend = s.apend := rfl
@[simp] theorem writeStk_aline (j : BitVec 4) (v : Cell) (s : State) : (writeStk j v s).aline = s.aline := rfl
@[simp] theorem writeStk_csRegions (j : BitVec 4) (v : Cell) (s : State) : (writeStk j v s).csRegions = s.csRegions := rfl
@[simp] theorem writeStk_mem (j : BitVec 4) (v : Cell) (s : State) : (writeStk j v s).mem = s.mem := rfl
@[simp] theorem writeStk_inbox (j : BitVec 4) (v : Cell) (s : State) : (writeStk j v s).inbox = s.inbox := rfl
@[simp] theorem writeStk_trace (j : BitVec 4) (v : Cell) (s : State) : (writeStk j v s).trace = s.trace := rfl
@[simp] theorem writeStk_result (j : BitVec 4) (v : Cell) (s : State) : (writeStk j v s).result = s.result := rfl
@[simp] theorem writeStk_draws (j : BitVec 4) (v : Cell) (s : State) : (writeStk j v s).draws = s.draws := rfl

@[simp] theorem raiseStackLevel_cfg (s : State) : (raiseStackLevel s).cfg = s.cfg := rfl
@[simp] theorem raiseStackLevel_pc (s : State) : (raiseStackLevel s).pc = s.pc := rfl
@[simp] theorem raiseStackLevel_fr (s : State) : (raiseStackLevel s).fr = s.fr := rfl
@[simp] theorem raiseStackLevel_ac (s : State) : (raiseStackLevel s).ac = s.ac := rfl
@[simp] theorem raiseStackLevel_sp (s : State) : (raiseStackLevel s).sp = s.sp := rfl
@[simp] theorem raiseStackLevel_stk (s : State) : (raiseStackLevel s).stk = s.stk := rfl
@[simp] theorem raiseStackLevel_npc (s : State) : (raiseStackLevel s).npc = s.npc := rfl
@[simp] theorem raiseStackLevel_ilen (s : State) : (raiseStackLevel s).ilen = s.ilen := rfl
@[simp] theorem raiseStackLevel_line (s : State) : (raiseStackLevel s).line = s.line := rfl
@[simp] theorem raiseStackLevel_pending (s : State) : (raiseStackLevel s).pending = { s.pending with l1 := true } := rfl
@[simp] theorem raiseStackLevel_waiting (s : State) : (raiseStackLevel s).waiting = s.waiting := rfl
@[simp] theorem raiseStackLevel_bootMode (s : State) : (raiseStackLevel s).bootMode = s.bootMode := rfl
@[simp] theorem raiseStackLevel_fault (s : State) : (raiseStackLevel s).fault = s.fault := rfl
@[simp] theorem raiseStackLevel_resetDone (s : State) : (raiseStackLevel s).resetDone = s.resetDone := rfl
@[simp] theorem raiseStackLevel_bank (s : State) : (raiseStackLevel s).bank = s.bank := rfl
@[simp] theorem raiseStackLevel_dma (s : State) : (raiseStackLevel s).dma = s.dma := rfl
@[simp] theorem raiseStackLevel_apend (s : State) : (raiseStackLevel s).apend = s.apend := rfl
@[simp] theorem raiseStackLevel_aline (s : State) : (raiseStackLevel s).aline = s.aline := rfl
@[simp] theorem raiseStackLevel_csRegions (s : State) : (raiseStackLevel s).csRegions = s.csRegions := rfl
@[simp] theorem raiseStackLevel_mem (s : State) : (raiseStackLevel s).mem = s.mem := rfl
@[simp] theorem raiseStackLevel_inbox (s : State) : (raiseStackLevel s).inbox = s.inbox := rfl
@[simp] theorem raiseStackLevel_trace (s : State) : (raiseStackLevel s).trace = s.trace := rfl
@[simp] theorem raiseStackLevel_result (s : State) : (raiseStackLevel s).result = s.result := rfl
@[simp] theorem raiseStackLevel_draws (s : State) : (raiseStackLevel s).draws = s.draws := rfl

@[simp] theorem writeNpc_cfg (v : Word) (s : State) : (writeNpc v s).cfg = s.cfg := rfl
@[simp] theorem writeNpc_pc (v : Word) (s : State) : (writeNpc v s).pc = s.pc := rfl
@[simp] theorem writeNpc_fr (v : Word) (s : State) : (writeNpc v s).fr = s.fr := rfl
@[simp] theorem writeNpc_ac (v : Word) (s : State) : (writeNpc v s).ac = s.ac := rfl
@[simp] theorem writeNpc_sp (v : Word) (s : State) : (writeNpc v s).sp = s.sp := rfl
@[simp] theorem writeNpc_stk (v : Word) (s : State) : (writeNpc v s).stk = s.stk := rfl
@[simp] theorem writeNpc_npc (v : Word) (s : State) : (writeNpc v s).npc = some v := rfl
@[simp] theorem writeNpc_ilen (v : Word) (s : State) : (writeNpc v s).ilen = s.ilen := rfl
@[simp] theorem writeNpc_line (v : Word) (s : State) : (writeNpc v s).line = s.line := rfl
@[simp] theorem writeNpc_pending (v : Word) (s : State) : (writeNpc v s).pending = s.pending := rfl
@[simp] theorem writeNpc_waiting (v : Word) (s : State) : (writeNpc v s).waiting = s.waiting := rfl
@[simp] theorem writeNpc_bootMode (v : Word) (s : State) : (writeNpc v s).bootMode = s.bootMode := rfl
@[simp] theorem writeNpc_fault (v : Word) (s : State) : (writeNpc v s).fault = s.fault := rfl
@[simp] theorem writeNpc_resetDone (v : Word) (s : State) : (writeNpc v s).resetDone = s.resetDone := rfl
@[simp] theorem writeNpc_bank (v : Word) (s : State) : (writeNpc v s).bank = s.bank := rfl
@[simp] theorem writeNpc_dma (v : Word) (s : State) : (writeNpc v s).dma = s.dma := rfl
@[simp] theorem writeNpc_apend (v : Word) (s : State) : (writeNpc v s).apend = s.apend := rfl
@[simp] theorem writeNpc_aline (v : Word) (s : State) : (writeNpc v s).aline = s.aline := rfl
@[simp] theorem writeNpc_csRegions (v : Word) (s : State) : (writeNpc v s).csRegions = s.csRegions := rfl
@[simp] theorem writeNpc_mem (v : Word) (s : State) : (writeNpc v s).mem = s.mem := rfl
@[simp] theorem writeNpc_inbox (v : Word) (s : State) : (writeNpc v s).inbox = s.inbox := rfl
@[simp] theorem writeNpc_trace (v : Word) (s : State) : (writeNpc v s).trace = s.trace := rfl
@[simp] theorem writeNpc_result (v : Word) (s : State) : (writeNpc v s).result = s.result := rfl
@[simp] theorem writeNpc_draws (v : Word) (s : State) : (writeNpc v s).draws = s.draws := rfl

@[simp] theorem aggDmaDone_cfg (s : State) : (aggDmaDone s).cfg = s.cfg := rfl
@[simp] theorem aggDmaDone_pc (s : State) : (aggDmaDone s).pc = s.pc := rfl
@[simp] theorem aggDmaDone_fr (s : State) : (aggDmaDone s).fr = s.fr := rfl
@[simp] theorem aggDmaDone_ac (s : State) : (aggDmaDone s).ac = s.ac := rfl
@[simp] theorem aggDmaDone_sp (s : State) : (aggDmaDone s).sp = s.sp := rfl
@[simp] theorem aggDmaDone_stk (s : State) : (aggDmaDone s).stk = s.stk := rfl
@[simp] theorem aggDmaDone_npc (s : State) : (aggDmaDone s).npc = s.npc := rfl
@[simp] theorem aggDmaDone_ilen (s : State) : (aggDmaDone s).ilen = s.ilen := rfl
@[simp] theorem aggDmaDone_line (s : State) : (aggDmaDone s).line = s.line := rfl
@[simp] theorem aggDmaDone_pending (s : State) : (aggDmaDone s).pending = s.pending := rfl
@[simp] theorem aggDmaDone_waiting (s : State) : (aggDmaDone s).waiting = s.waiting := rfl
@[simp] theorem aggDmaDone_bootMode (s : State) : (aggDmaDone s).bootMode = s.bootMode := rfl
@[simp] theorem aggDmaDone_fault (s : State) : (aggDmaDone s).fault = s.fault := rfl
@[simp] theorem aggDmaDone_resetDone (s : State) : (aggDmaDone s).resetDone = s.resetDone := rfl
@[simp] theorem aggDmaDone_bank (s : State) : (aggDmaDone s).bank = s.bank := rfl
@[simp] theorem aggDmaDone_dma (s : State) : (aggDmaDone s).dma = s.dma := rfl
@[simp] theorem aggDmaDone_apend (s : State) : (aggDmaDone s).apend = s.apend ||| 0b0100#4 := rfl
@[simp] theorem aggDmaDone_aline (s : State) : (aggDmaDone s).aline = s.aline := rfl
@[simp] theorem aggDmaDone_csRegions (s : State) : (aggDmaDone s).csRegions = s.csRegions := rfl
@[simp] theorem aggDmaDone_mem (s : State) : (aggDmaDone s).mem = s.mem := rfl
@[simp] theorem aggDmaDone_inbox (s : State) : (aggDmaDone s).inbox = s.inbox := rfl
@[simp] theorem aggDmaDone_trace (s : State) : (aggDmaDone s).trace = s.trace := rfl
@[simp] theorem aggDmaDone_result (s : State) : (aggDmaDone s).result = s.result := rfl
@[simp] theorem aggDmaDone_draws (s : State) : (aggDmaDone s).draws = s.draws := rfl

@[simp] theorem setChannel_cfg (c : Fin 7) (ch : Channel) (s : State) : (setChannel c ch s).cfg = s.cfg := rfl
@[simp] theorem setChannel_pc (c : Fin 7) (ch : Channel) (s : State) : (setChannel c ch s).pc = s.pc := rfl
@[simp] theorem setChannel_fr (c : Fin 7) (ch : Channel) (s : State) : (setChannel c ch s).fr = s.fr := rfl
@[simp] theorem setChannel_ac (c : Fin 7) (ch : Channel) (s : State) : (setChannel c ch s).ac = s.ac := rfl
@[simp] theorem setChannel_sp (c : Fin 7) (ch : Channel) (s : State) : (setChannel c ch s).sp = s.sp := rfl
@[simp] theorem setChannel_stk (c : Fin 7) (ch : Channel) (s : State) : (setChannel c ch s).stk = s.stk := rfl
@[simp] theorem setChannel_npc (c : Fin 7) (ch : Channel) (s : State) : (setChannel c ch s).npc = s.npc := rfl
@[simp] theorem setChannel_ilen (c : Fin 7) (ch : Channel) (s : State) : (setChannel c ch s).ilen = s.ilen := rfl
@[simp] theorem setChannel_line (c : Fin 7) (ch : Channel) (s : State) : (setChannel c ch s).line = s.line := rfl
@[simp] theorem setChannel_pending (c : Fin 7) (ch : Channel) (s : State) : (setChannel c ch s).pending = s.pending := rfl
@[simp] theorem setChannel_waiting (c : Fin 7) (ch : Channel) (s : State) : (setChannel c ch s).waiting = s.waiting := rfl
@[simp] theorem setChannel_bootMode (c : Fin 7) (ch : Channel) (s : State) : (setChannel c ch s).bootMode = s.bootMode := rfl
@[simp] theorem setChannel_fault (c : Fin 7) (ch : Channel) (s : State) : (setChannel c ch s).fault = s.fault := rfl
@[simp] theorem setChannel_resetDone (c : Fin 7) (ch : Channel) (s : State) : (setChannel c ch s).resetDone = s.resetDone := rfl
@[simp] theorem setChannel_bank (c : Fin 7) (ch : Channel) (s : State) : (setChannel c ch s).bank = s.bank := rfl
@[simp] theorem setChannel_dma (c : Fin 7) (ch : Channel) (s : State) : (setChannel c ch s).dma = s.dma.set c.val ch c.isLt := rfl
@[simp] theorem setChannel_apend (c : Fin 7) (ch : Channel) (s : State) : (setChannel c ch s).apend = s.apend := rfl
@[simp] theorem setChannel_aline (c : Fin 7) (ch : Channel) (s : State) : (setChannel c ch s).aline = s.aline := rfl
@[simp] theorem setChannel_csRegions (c : Fin 7) (ch : Channel) (s : State) : (setChannel c ch s).csRegions = s.csRegions := rfl
@[simp] theorem setChannel_mem (c : Fin 7) (ch : Channel) (s : State) : (setChannel c ch s).mem = s.mem := rfl
@[simp] theorem setChannel_inbox (c : Fin 7) (ch : Channel) (s : State) : (setChannel c ch s).inbox = s.inbox := rfl
@[simp] theorem setChannel_trace (c : Fin 7) (ch : Channel) (s : State) : (setChannel c ch s).trace = s.trace := rfl
@[simp] theorem setChannel_result (c : Fin 7) (ch : Channel) (s : State) : (setChannel c ch s).result = s.result := rfl
@[simp] theorem setChannel_draws (c : Fin 7) (ch : Channel) (s : State) : (setChannel c ch s).draws = s.draws := rfl

@[simp] theorem enterWait_cfg (s : State) : (enterWait s).cfg = s.cfg := rfl
@[simp] theorem enterWait_pc (s : State) : (enterWait s).pc = s.pc := rfl
@[simp] theorem enterWait_fr (s : State) : (enterWait s).fr = s.fr := rfl
@[simp] theorem enterWait_ac (s : State) : (enterWait s).ac = s.ac := rfl
@[simp] theorem enterWait_sp (s : State) : (enterWait s).sp = s.sp := rfl
@[simp] theorem enterWait_stk (s : State) : (enterWait s).stk = s.stk := rfl
@[simp] theorem enterWait_npc (s : State) : (enterWait s).npc = s.npc := rfl
@[simp] theorem enterWait_ilen (s : State) : (enterWait s).ilen = s.ilen := rfl
@[simp] theorem enterWait_line (s : State) : (enterWait s).line = s.line := rfl
@[simp] theorem enterWait_pending (s : State) : (enterWait s).pending = s.pending := rfl
@[simp] theorem enterWait_waiting (s : State) : (enterWait s).waiting = true := rfl
@[simp] theorem enterWait_bootMode (s : State) : (enterWait s).bootMode = s.bootMode := rfl
@[simp] theorem enterWait_fault (s : State) : (enterWait s).fault = s.fault := rfl
@[simp] theorem enterWait_resetDone (s : State) : (enterWait s).resetDone = s.resetDone := rfl
@[simp] theorem enterWait_bank (s : State) : (enterWait s).bank = s.bank := rfl
@[simp] theorem enterWait_dma (s : State) : (enterWait s).dma = s.dma := rfl
@[simp] theorem enterWait_apend (s : State) : (enterWait s).apend = s.apend := rfl
@[simp] theorem enterWait_aline (s : State) : (enterWait s).aline = s.aline := rfl
@[simp] theorem enterWait_csRegions (s : State) : (enterWait s).csRegions = s.csRegions := rfl
@[simp] theorem enterWait_mem (s : State) : (enterWait s).mem = s.mem := rfl
@[simp] theorem enterWait_inbox (s : State) : (enterWait s).inbox = s.inbox := rfl
@[simp] theorem enterWait_trace (s : State) : (enterWait s).trace = s.trace := rfl
@[simp] theorem enterWait_result (s : State) : (enterWait s).result = s.result := rfl
@[simp] theorem enterWait_draws (s : State) : (enterWait s).draws = s.draws := rfl

@[simp] theorem ackSources_cfg (v : Word) (s : State) : (ackSources v s).cfg = s.cfg := rfl
@[simp] theorem ackSources_pc (v : Word) (s : State) : (ackSources v s).pc = s.pc := rfl
@[simp] theorem ackSources_fr (v : Word) (s : State) : (ackSources v s).fr = s.fr := rfl
@[simp] theorem ackSources_ac (v : Word) (s : State) : (ackSources v s).ac = s.ac := rfl
@[simp] theorem ackSources_sp (v : Word) (s : State) : (ackSources v s).sp = s.sp := rfl
@[simp] theorem ackSources_stk (v : Word) (s : State) : (ackSources v s).stk = s.stk := rfl
@[simp] theorem ackSources_npc (v : Word) (s : State) : (ackSources v s).npc = s.npc := rfl
@[simp] theorem ackSources_ilen (v : Word) (s : State) : (ackSources v s).ilen = s.ilen := rfl
@[simp] theorem ackSources_line (v : Word) (s : State) : (ackSources v s).line = s.line := rfl
@[simp] theorem ackSources_pending (v : Word) (s : State) : (ackSources v s).pending = s.pending := rfl
@[simp] theorem ackSources_waiting (v : Word) (s : State) : (ackSources v s).waiting = s.waiting := rfl
@[simp] theorem ackSources_bootMode (v : Word) (s : State) : (ackSources v s).bootMode = s.bootMode := rfl
@[simp] theorem ackSources_fault (v : Word) (s : State) : (ackSources v s).fault = s.fault := rfl
@[simp] theorem ackSources_resetDone (v : Word) (s : State) : (ackSources v s).resetDone = s.resetDone := rfl
@[simp] theorem ackSources_bank (v : Word) (s : State) : (ackSources v s).bank = s.bank := rfl
@[simp] theorem ackSources_dma (v : Word) (s : State) : (ackSources v s).dma = s.dma := rfl
@[simp] theorem ackSources_apend (v : Word) (s : State) : (ackSources v s).apend = s.apend &&& ~~~ (v.setWidth 4) := rfl
@[simp] theorem ackSources_aline (v : Word) (s : State) : (ackSources v s).aline = s.aline := rfl
@[simp] theorem ackSources_csRegions (v : Word) (s : State) : (ackSources v s).csRegions = s.csRegions := rfl
@[simp] theorem ackSources_mem (v : Word) (s : State) : (ackSources v s).mem = s.mem := rfl
@[simp] theorem ackSources_inbox (v : Word) (s : State) : (ackSources v s).inbox = s.inbox := rfl
@[simp] theorem ackSources_trace (v : Word) (s : State) : (ackSources v s).trace = s.trace := rfl
@[simp] theorem ackSources_result (v : Word) (s : State) : (ackSources v s).result = s.result := rfl
@[simp] theorem ackSources_draws (v : Word) (s : State) : (ackSources v s).draws = s.draws := rfl

@[simp] theorem beginInstr_cfg (s : State) : (beginInstr s).cfg = s.cfg := rfl
@[simp] theorem beginInstr_pc (s : State) : (beginInstr s).pc = s.pc := rfl
@[simp] theorem beginInstr_fr (s : State) : (beginInstr s).fr = s.fr := rfl
@[simp] theorem beginInstr_ac (s : State) : (beginInstr s).ac = s.ac := rfl
@[simp] theorem beginInstr_sp (s : State) : (beginInstr s).sp = s.sp := rfl
@[simp] theorem beginInstr_stk (s : State) : (beginInstr s).stk = s.stk := rfl
@[simp] theorem beginInstr_npc (s : State) : (beginInstr s).npc = none := rfl
@[simp] theorem beginInstr_ilen (s : State) : (beginInstr s).ilen = 1 := rfl
@[simp] theorem beginInstr_line (s : State) : (beginInstr s).line = s.line := rfl
@[simp] theorem beginInstr_pending (s : State) : (beginInstr s).pending = s.pending := rfl
@[simp] theorem beginInstr_waiting (s : State) : (beginInstr s).waiting = s.waiting := rfl
@[simp] theorem beginInstr_bootMode (s : State) : (beginInstr s).bootMode = s.bootMode := rfl
@[simp] theorem beginInstr_fault (s : State) : (beginInstr s).fault = s.fault := rfl
@[simp] theorem beginInstr_resetDone (s : State) : (beginInstr s).resetDone = s.resetDone := rfl
@[simp] theorem beginInstr_bank (s : State) : (beginInstr s).bank = s.bank := rfl
@[simp] theorem beginInstr_dma (s : State) : (beginInstr s).dma = s.dma := rfl
@[simp] theorem beginInstr_apend (s : State) : (beginInstr s).apend = s.apend := rfl
@[simp] theorem beginInstr_aline (s : State) : (beginInstr s).aline = s.aline := rfl
@[simp] theorem beginInstr_csRegions (s : State) : (beginInstr s).csRegions = s.csRegions := rfl
@[simp] theorem beginInstr_mem (s : State) : (beginInstr s).mem = s.mem := rfl
@[simp] theorem beginInstr_inbox (s : State) : (beginInstr s).inbox = s.inbox := rfl
@[simp] theorem beginInstr_trace (s : State) : (beginInstr s).trace = s.trace := rfl
@[simp] theorem beginInstr_result (s : State) : (beginInstr s).result = s.result := rfl
@[simp] theorem beginInstr_draws (s : State) : (beginInstr s).draws = s.draws := rfl

end Sys2Proof.Machine
end

