-- ==== Sys2Proof/Laws/Frame.lean ====
section
/-! SUPPORT. What every operation that an instruction or a bank action can reach does and does not do, said once: `Frame`
from the state before to the state after, and `Sound` of its answer, which composes along `Res.bind` and programs. -/

namespace Sys2Proof.Machine

/-- What holds between the states before and after any primitive, any bank access and any program over them: what the
engine owns and they cannot reach is unchanged, the invariants are kept, and the wait state is not left. -/
structure Frame (s t : State) : Prop where
  cfg       : t.cfg = s.cfg
  pc        : t.pc = s.pc
  line      : t.line = s.line
  bootMode  : t.bootMode = s.bootMode
  fault     : t.fault = s.fault
  resetDone : t.resetDone = s.resetDone
  aline     : t.aline = s.aline
  inbox     : t.inbox = s.inbox
  result    : t.result = s.result
  waiting   : s.waiting = true → t.waiting = true
  inv       : Inv s → Inv t
  idle      : ChannelsIdle s → ChannelsIdle t

theorem Frame.refl (s : State) : Frame s s := by constructor <;> simp

theorem Frame.trans {s t u : State} (h : Frame s t) (g : Frame t u) : Frame s u where
  cfg := g.cfg.trans h.cfg
  pc := g.pc.trans h.pc
  line := g.line.trans h.line
  bootMode := g.bootMode.trans h.bootMode
  fault := g.fault.trans h.fault
  resetDone := g.resetDone.trans h.resetDone
  aline := g.aline.trans h.aline
  inbox := g.inbox.trans h.inbox
  result := g.result.trans h.result
  waiting := fun w => g.waiting (h.waiting w)
  inv := fun i => g.inv (h.inv i)
  idle := fun i => g.idle (h.idle i)

/-- An answer to an operation performed in `s`: a value with a framed state, or a fault recorded as spec/60_exceptions.md
R302 says; only RUN is refused for want of an end. -/
def Sound {α : Type} (s : State) (x : Res α) : Prop :=
  match x with
  | .ok _ t => Frame s t
  | .fault (.raised reason left) => left.fault = s.fault.or (some reason)
  | .refused r => r ≠ .runWithoutEnd

theorem Sound.ok {α : Type} {s t : State} (v : α) (h : Frame s t) : Sound s (Res.ok v t) := h

theorem Sound.refused {α : Type} {s : State} {r : Refusal} (h : r ≠ .runWithoutEnd) : Sound s (Res.refused r : Res α) := h

theorem Sound.raise {α : Type} (reason : FaultReason) {s t : State} (h : t.fault = s.fault) :
    Sound s (raise reason t : Res α) := by
  simp only [Machine.raise, Sound]
  rw [h]

theorem Sound.from {α : Type} {s t : State} {x : Res α} (h : Frame s t) (hx : Sound t x) : Sound s x := by
  cases x with
  | ok v u => exact h.trans hx
  | fault r => cases r; simpa [Sound, h.fault] using hx
  | refused r => exact hx

theorem Sound.bind {α β : Type} {s : State} {x : Res α} {f : α → State → Res β} (hx : Sound s x)
    (hf : ∀ v t, Frame s t → Sound t (f v t)) : Sound s (x.bind f) := by
  cases x with
  | ok v t => exact Sound.from hx (hf v t hx)
  | fault r => exact hx
  | refused r => exact hx

theorem Sound.afterReset {α : Type} {s : State} {x : State → Res α} (h : Sound s (x s)) : Sound s (Machine.afterReset x s) := by
  unfold Machine.afterReset
  split
  · exact h
  · exact Sound.refused (by decide)

/-! ## Draws, events and the register file -/

/-- The shape of the bank rests on its configuration, its reserved registers and its EXTRA_REGS places. -/
theorem BankShaped.of_same {s t : State} (hc : t.cfg = s.cfg)
    (hb : t.bank.rsv.length = s.bank.rsv.length ∧ t.bank.extra = s.bank.extra) (h : BankShaped s) : BankShaped t where
  rsv := by rw [hb.1, hc]; exact h.rsv
  extra := by rw [hb.2, hc]; exact h.extra
  computed := fun k hk he => by
    rw [hc] at hk he
    have := h.computed k hk he
    simpa only [getReg, hb.2] using this

/-- The invariant reads five components: states that agree on them agree on it. -/
theorem Inv.of_same {s t : State} (hc : t.cfg = s.cfg) (hf : t.fr = s.fr) (hp : t.sp = s.sp) (hm : t.mem = s.mem)
    (hb : t.bank.rsv.length = s.bank.rsv.length ∧ t.bank.extra = s.bank.extra) (h : Inv s) : Inv t where
  flags := by have := h.flags; simpa [FlagsHardwired, hf] using this
  sp := by have := h.sp; simpa [StackPointerInRange, hp] using this
  memory := by have := h.memory; simpa [MemoryCanonical, hm] using this
  bank := h.bank.of_same hc hb

theorem Frame.emit (e : Event) (s : State) : Frame s (emit e s) := by
  constructor <;> first | rfl | exact id | exact Inv.of_same rfl rfl rfl rfl ⟨rfl, rfl⟩

theorem Frame.drawn (s : State) : Frame s (drawn s) := by
  constructor <;> first | rfl | exact id | exact Inv.of_same rfl rfl rfl rfl ⟨rfl, rfl⟩

theorem Frame.writeAc (i : Fin 4) (v : Cell) (s : State) : Frame s (writeAc i v s) := by
  constructor <;> first | rfl | exact id | exact Inv.of_same rfl rfl rfl rfl ⟨rfl, rfl⟩

theorem Frame.writeStk (j : BitVec 4) (v : Cell) (s : State) : Frame s (writeStk j v s) := by
  constructor <;> first | rfl | exact id | exact Inv.of_same rfl rfl rfl rfl ⟨rfl, rfl⟩

theorem Frame.writeNpc (v : Word) (s : State) : Frame s (writeNpc v s) := by
  constructor <;> first | rfl | exact id | exact Inv.of_same rfl rfl rfl rfl ⟨rfl, rfl⟩

theorem Frame.ilen (n : Nat) (s : State) : Frame s { s with ilen := n } := by
  constructor <;> first | rfl | exact id | exact Inv.of_same rfl rfl rfl rfl ⟨rfl, rfl⟩

theorem Frame.raiseStackLevel (s : State) : Frame s (raiseStackLevel s) := by
  constructor <;> first | rfl | exact id | exact Inv.of_same rfl rfl rfl rfl ⟨rfl, rfl⟩

theorem Frame.enterWait (s : State) : Frame s (enterWait s) := by
  constructor <;> first | rfl | exact id | exact Inv.of_same rfl rfl rfl rfl ⟨rfl, rfl⟩ | (intro _; rfl)

theorem Frame.ackSources (v : Word) (s : State) : Frame s (ackSources v s) := by
  constructor <;> first | rfl | exact id | exact Inv.of_same rfl rfl rfl rfl ⟨rfl, rfl⟩

theorem Frame.aggDmaDone (s : State) : Frame s (aggDmaDone s) := by
  constructor <;> first | rfl | exact id | exact Inv.of_same rfl rfl rfl rfl ⟨rfl, rfl⟩

/-- "(result & 0x8001) == 0x8001" for every value written (spec/41_register_file.md R164). -/
theorem or_frOnes_hardwired (v : Word) : (v ||| frOnes) &&& 0x8001#16 = 0x8001#16 := by
  apply BitVec.eq_of_getLsbD_eq
  intro i h
  simp only [frOnes, BitVec.getLsbD_and, BitVec.getLsbD_or]
  cases hb : (0x8001#16).getLsbD i <;> simp

theorem Frame.setFlags (v : Word) (s : State) : Frame s (setFlags v s) := by
  constructor <;> try first | rfl | exact id
  exact fun h => ⟨or_frOnes_hardwired v, h.sp, h.memory, .of_same (s := s) rfl ⟨rfl, rfl⟩ h.bank⟩

/-- The clamp's range (spec/41_register_file.md R165). -/
theorem clamp_le (v : Byte) : (clamp v).toNat ≤ 9 := by
  unfold clamp
  split
  · omega
  · split <;> decide

theorem Frame.writeSp (v : Byte) (s : State) : Frame s (writeSp v s) := by
  constructor <;> try first | rfl | exact id
  exact fun h => ⟨h.flags, clamp_le v, h.memory, .of_same (s := s) rfl ⟨rfl, rfl⟩ h.bank⟩

theorem Frame.ite {s t u : State} (c : Prop) [Decidable c] (h : Frame s t) (g : Frame s u) : Frame s (if c then t else u) := by
  split <;> assumption

theorem Frame.push (v : Word) (s : State) : Frame s (push v s) :=
  (Frame.ite _ (Frame.raiseStackLevel s) (Frame.refl s)).trans ((Frame.writeStk _ _ _).trans (Frame.writeSp _ _))

theorem Frame.popPointer (s : State) : Frame s (popPointer s) :=
  (Frame.ite _ (Frame.raiseStackLevel s) (Frame.refl s)).trans (Frame.writeSp _ _)

theorem Sound.pop (s : State) : Sound s (pop s) := by
  unfold Machine.pop
  dsimp only
  split
  · exact Frame.popPointer s
  · exact Sound.raise _ (Frame.popPointer s).fault

theorem Sound.returnFromInterrupt (s : State) : Sound s (returnFromInterrupt s) :=
  Sound.bind (Sound.pop s) fun _ _ _ => (Frame.writeNpc _ _).trans (Frame.setFlags _ _)

theorem Sound.drawWord (s : State) : Sound s (drawWord s) := Frame.drawn s

theorem Sound.drawBool (s : State) : Sound s (drawBool s) := Frame.drawn s

theorem Sound.readAc (i : Fin 4) (s : State) : Sound s (readAc i s) := by
  unfold Machine.readAc
  split
  · exact Frame.refl s
  · exact Sound.raise _ rfl

theorem Sound.readJump (j : BitVec 2) (s : State) : Sound s (readJump j s) := by
  unfold Machine.readJump
  split
  · exact Sound.refused (by decide)
  · exact Sound.drawBool s

theorem Frame.cycleCost (n : Nat) (s : State) : Frame s (cycleCost n s).2 := by
  induction n generalizing s with
  | zero => exact Frame.refl s
  | succ n ih => exact (Frame.drawn s).trans (ih _)

theorem Sound.costOf (n : Nat) (s : State) : Sound s (costOf n s) := Frame.cycleCost n s

theorem Frame.aggVector (s : State) : Frame s (aggVector s).2 := by
  unfold Machine.aggVector
  split
  · exact Frame.refl s
  · exact Frame.drawn s

/-! ## External memory -/

theorem Sound.readExt (a : Word) (s : State) : Sound s (readExt a s) := by
  unfold Machine.readExt
  split
  · exact Frame.refl s
  · exact Frame.refl s
  · exact Sound.drawWord s

theorem Frame.mem {s : State} {m : Memory} (h : s.mem.wf = true → m.wf = true) : Frame s { s with mem := m } := by
  constructor <;> try first | rfl | exact id
  exact fun i => ⟨i.flags, i.sp, h i.memory, .of_same (s := s) rfl ⟨rfl, rfl⟩ i.bank⟩

theorem Frame.writeExt (a v : Word) (s : State) : Frame s (writeExt a v s) := by
  unfold Machine.writeExt
  split
  · exact Frame.mem (Memory.wf_writeWord a v)
  · exact Frame.refl s
  · exact Frame.emit _ s

theorem Sound.readByte (ba : BitVec 17) (s : State) : Sound s (readByte ba s) := by
  unfold Machine.readByte
  split
  · exact Sound.raise _ rfl
  · exact Sound.bind (Sound.readExt _ s) fun _ t _ => Frame.refl t

theorem Sound.writeByte (ba : BitVec 17) (b : Byte) (s : State) : Sound s (writeByte ba b s) := by
  unfold Machine.writeByte
  split
  · exact Sound.raise _ rfl
  · split
    · exact Frame.mem fun h => Memory.wf_write _ _ h ba.isLt
    · exact Frame.refl s
    · exact Frame.emit _ s

theorem Sound.fetchWord (a : Word) (s : State) : Sound s (fetchWord a s) := by
  unfold Machine.fetchWord
  split
  · exact Sound.raise _ rfl
  · exact Sound.readExt a s

theorem Sound.fetchFurther (k : Nat) (s : State) : Sound s (fetchFurther k s) :=
  Sound.from (Frame.ilen _ s) (Sound.fetchWord _ _)

/-! ## The DMA controller -/

/-- A channel replaced by one that is as idle keeps every frame. -/
theorem Frame.setChannel {c : Fin 7} {ch : Channel} {s : State} (h : ch.busy = true → (s.dma.get c).busy = true) :
    Frame s (setChannel c ch s) := by
  constructor <;> try first | rfl | exact id | exact Inv.of_same rfl rfl rfl rfl ⟨rfl, rfl⟩
  intro hi d
  have hd : ((Machine.setChannel c ch s).dma.get d) = if c.val = d.val then ch else s.dma.get d := by
    simp [Machine.setChannel, Vector.get_eq_getElem, Vector.getElem_set]
  rw [hd]
  split
  · cases hb : ch.busy with
    | false => rfl
    | true => rw [hi c] at h; exact absurd (h hb) (by simp)
  · exact hi d

theorem Frame.writeParam (c : Fin 7) (slot : Slot) (v : Cell) (s : State) : Frame s (writeParam c slot v s) := by
  cases slot <;> exact Frame.setChannel id

theorem Sound.readParam (c : Fin 7) (slot : Slot) (s : State) : Sound s (readParam c slot s) := by
  unfold Machine.readParam
  split
  · exact Frame.refl s
  · exact Sound.raise _ rfl

theorem Sound.transferWords (c : Fin 7) (n : Nat) (t : Word) (s : State) : Sound s (transferWords c n t s) := by
  induction n generalizing t s with
  | zero => exact Frame.refl s
  | succ n ih =>
    refine Sound.bind (Sound.drawWord s) fun w u _ => ?_
    split
    · exact Sound.raise _ rfl
    · exact Sound.from (Frame.writeExt _ _ _) (ih _ _)

/-- A transfer leaves the channels as they are. -/
theorem transferWords_dma {c : Fin 7} {n : Nat} {a : Word} {s t : State} (h : transferWords c n a s = .ok () t) :
    t.dma = s.dma := by
  induction n generalizing a s with
  | zero => cases h; rfl
  | succ n ih =>
    simp only [transferWords, drawWord, Res.bind_ok] at h
    split at h
    · cases h
    · rw [ih h]; unfold writeExt; split <;> rfl

theorem Sound.dmaTransfer (c : Fin 7) (s : State) : Sound s (dmaTransfer c s) :=
  Sound.bind (Sound.readParam c .p0 s) fun _ _ _ =>
    Sound.bind (Sound.readParam c .p1 _) fun _ _ _ =>
      Sound.from (Frame.emit _ _) (Sound.transferWords _ _ _ _)

theorem readParam_eq_ok {c : Fin 7} {slot : Slot} {s t : State} {w : Word} (h : readParam c slot s = .ok w t) :
    t = s ∧ paramCell s c slot = .val w := by
  unfold readParam at h
  split at h
  · cases h; exact ⟨rfl, ‹_›⟩
  · cases h

theorem dmaTransfer_dma {c : Fin 7} {s t : State} (h : dmaTransfer c s = .ok () t) : t.dma = s.dma := by
  unfold dmaTransfer at h
  obtain ⟨p0, u, h0, h'⟩ := Res.bind_eq_ok.mp h
  obtain ⟨p1, w, h1, h''⟩ := Res.bind_eq_ok.mp h'
  obtain ⟨rfl, -⟩ := readParam_eq_ok h0
  obtain ⟨rfl, -⟩ := readParam_eq_ok h1
  rw [transferWords_dma h'']
  rfl

/-- A trigger leaves its channel idle where it was (spec/43_dma.md R248): busy is set and cleared inside it. -/
theorem Sound.triggerChannel (c : Fin 7) (s : State) : Sound s (triggerChannel c s) := by
  unfold Machine.triggerChannel
  split
  · exact Frame.setChannel id
  · rename_i hb
    have hbegin : Sound (beginTransfer c s) (Machine.dmaTransfer c (beginTransfer c s)) := Sound.dmaTransfer c _
    cases hx : Machine.dmaTransfer c (beginTransfer c s) with
    | fault r => rw [hx] at hbegin; cases r; exact hbegin
    | refused r => rw [hx] at hbegin; exact hbegin
    | ok v t =>
      rw [hx] at hbegin
      have hd := dmaTransfer_dma hx
      have hf : Frame (beginTransfer c s) t := hbegin
      refine Frame.trans ?_ (Frame.aggDmaDone _)
      refine ⟨hf.cfg, hf.pc, hf.line, hf.bootMode, hf.fault, hf.resetDone, hf.aline, hf.inbox, hf.result, hf.waiting,
        ?_, ?_⟩
      · intro h
        have hi : Inv (beginTransfer c s) := Inv.of_same (s := s) rfl rfl rfl rfl ⟨rfl, rfl⟩ h
        exact Inv.of_same (s := t) rfl rfl rfl rfl ⟨rfl, rfl⟩ (hf.inv hi)
      · intro hi d
        have e : (setChannel c { t.dma.get c with busy := false, done := true } t).dma.get d
            = if c.val = d.val then { t.dma.get c with busy := false, done := true } else t.dma.get d := by
          simp [Machine.setChannel, Vector.get_eq_getElem, Vector.getElem_set]
        rw [e]
        split
        · rfl
        · rename_i hne
          rw [hd]
          have : (beginTransfer c s).dma.get d = s.dma.get d := by
            simp [beginTransfer, Machine.setChannel, Vector.get_eq_getElem, hne]
          rw [this]; exact hi d

/-! ## The bank -/

theorem Frame.bank {s : State} {b : Bank}
    (h : b.rsv.length = s.bank.rsv.length ∧ b.extra = s.bank.extra) : Frame s { s with bank := b } := by
  constructor <;> try first | rfl | exact id
  exact Inv.of_same rfl rfl rfl rfl h

theorem BankShaped.setExtra {k : Nat} {v : Cell} {s : State} (h : BankShaped s) :
    BankShaped (Machine.setReg (.extra k) v s) where
  rsv := h.rsv
  extra := by simp only [Machine.setReg]; split <;> simpa using h.extra
  computed := fun j hj he => by
    have hc := h.computed j hj he
    simp only [getReg, Machine.setReg]
    split
    · exact hc
    · rename_i hk
      have hne : k ≠ j := fun e => hk (e ▸ he)
      simpa [getReg, List.getD_eq_getElem?_getD, List.getElem?_set_ne hne] using hc

theorem Frame.setReg (r : Reg) (v : Cell) (s : State) : Frame s (setReg r v s) := by
  cases r with
  | extra k =>
    constructor <;> try first | rfl | exact id
    exact fun h => ⟨h.flags, h.sp, h.memory, h.bank.setExtra⟩
  | rsv k => exact Frame.bank (by simp)
  | dmaP c slot => exact Frame.writeParam _ _ _ s
  | rndStatus | dmaStatus | irqStatus => exact Frame.refl s
  | _ => exact Frame.bank ⟨rfl, rfl⟩

theorem Sound.readCell (off : Word) (c : Cell) (s : State) : Sound s (readCell off c s) := by
  cases c with
  | undef => exact Sound.raise _ rfl
  | val w => exact Frame.refl s

theorem Frame.csRegions (r : Option CsRegions) (s : State) : Frame s { s with csRegions := r } := by
  constructor <;> first | rfl | exact id | exact Inv.of_same rfl rfl rfl rfl ⟨rfl, rfl⟩

theorem Frame.csRecompute (s : State) : Frame s (csRecompute s) := by
  unfold Machine.csRecompute
  split
  · exact (Frame.csRegions _ s).trans (Frame.emit _ _)
  · exact (Frame.drawn s).trans ((Frame.csRegions _ _).trans (Frame.emit _ _))

theorem Sound.triggerByWrite (v : Word) (s : State) : Sound s (triggerByWrite v s) := by
  unfold Machine.triggerByWrite
  split
  · exact Sound.triggerChannel _ s
  · exact Frame.refl s

theorem Sound.readBase (r : Reg) (off : Word) (s : State) : Sound s (readBase r off s) := by
  cases r <;> simp only [Machine.readBase] <;>
    try first | exact Sound.readCell _ _ s | exact Sound.drawWord s | exact Frame.refl s | exact Sound.readParam _ _ s
  split
  · exact Sound.drawWord s
  · exact Frame.refl s

theorem Sound.writeBase (r : Reg) (v : Word) (s : State) : Sound s (writeBase r v s) := by
  cases r <;> simp only [Machine.writeBase] <;>
    try first
      | exact Frame.refl s
      | exact Frame.setReg _ _ s
      | exact (Frame.setReg _ _ s).trans (Frame.emit _ _)
      | exact Frame.writeParam _ _ _ s
      | exact (Frame.setReg _ _ s).trans (Frame.csRecompute _)
      | exact (Frame.setReg _ _ s).trans (Frame.enterWait _)
      | exact (Frame.setReg _ _ s).trans (Frame.ackSources _ _)
  exact Sound.from (Frame.setReg _ _ s) (Sound.triggerByWrite _ _)

/-! ## Programs -/

/-- A program over sound primitives is sound. -/
theorem Sound.runProg {π ω : Type} {perform : π → Scope → State → Res Word} (h : ∀ p sc s, Sound s (perform p sc s))
    (prog : Prog π ω) (sc : Scope) (s : State) : Sound s (runProg perform prog sc s) := by
  induction prog generalizing sc s with
  | done o => exact Frame.refl s
  | call p k ih => exact Sound.bind (h p sc s) fun _ _ _ => ih _ _
  | cond c t e iht ihe =>
    unfold Machine.runProg
    split
    · exact ihe _ _
    · exact iht _ _

theorem Sound.performIsa {rd : Word → State → Res Word} {wr : Word → Word → State → Res Unit} {ft : Nat → State → Res Word}
    (hr : ∀ a s, Sound s (rd a s)) (hw : ∀ a v s, Sound s (wr a v s)) (hf : ∀ k s, Sound s (ft k s)) (p : IsaPrim) (sc : Scope)
    (s : State) : Sound s (performIsa rd wr ft p sc s) := by
  cases p <;> simp only [Machine.performIsa] <;>
    first
      | exact Sound.readAc _ s
      | exact Frame.writeAc _ _ s
      | exact Frame.writeNpc _ s
      | exact Frame.refl s
      | exact Sound.afterReset (Frame.refl s)
      | exact Frame.setFlags _ s
      | exact Frame.writeSp _ s
      | exact Sound.afterReset (Frame.push _ s)
      | exact Sound.afterReset (Sound.pop s)
      | exact Sound.afterReset (Sound.bind (Sound.returnFromInterrupt s) fun _ t _ => Frame.refl t)
      | exact hr _ s
      | exact Sound.afterReset (hf _ s)
      | exact Sound.bind (Sound.readJump _ s) fun _ t _ => Frame.refl t
      | exact Sound.bind (hw _ _ s) fun _ t _ => Frame.refl t
      | exact Sound.bind (Sound.readByte _ s) fun _ t _ => Frame.refl t
      | exact Sound.bind (Sound.writeByte _ _ s) fun _ t _ => Frame.refl t

theorem Sound.readRegister {rd : Word → State → Res Word} (hr : ∀ a s, Sound s (rd a s)) (r : Reg) (s : State) :
    Sound s (readRegister rd r s) := by
  unfold Machine.readRegister
  split
  · exact hr _ s
  · exact Sound.readBase _ _ s

theorem Sound.writeRegister {wr : Word → Word → State → Res Unit} (hw : ∀ a v s, Sound s (wr a v s)) (r : Reg) (v : Word)
    (s : State) : Sound s (writeRegister wr r v s) := by
  unfold Machine.writeRegister
  split
  · exact hw _ _ s
  · exact Sound.writeBase _ _ s

theorem Sound.performRead {rd : Word → State → Res Word} (hr : ∀ a s, Sound s (rd a s)) (c : Cell) (p : ReadPrim) (sc : Scope)
    (s : State) : Sound s (performRead rd c p sc s) := by
  cases p with
  | regRead r => exact Sound.readRegister hr r s
  | stored => exact Sound.readCell _ _ s
  | draw => exact Sound.drawWord s
  | acRead i => exact Sound.readAc _ s
  | frRead => exact Frame.refl s
  | spRead => exact Sound.afterReset (Frame.refl s)
  | jcRead j => exact Sound.bind (Sound.readJump _ s) fun _ t _ => Frame.refl t
  | memRead16 a => exact hr _ s
  | memRead8 a lane => exact Sound.bind (Sound.readByte _ s) fun _ t _ => Frame.refl t
  | fetch a => exact Sound.fetchWord _ s
  | dmaReadParam c slot => exact Sound.readParam _ _ s
  | aggVectorFetch => exact Frame.aggVector s

theorem Sound.runRead {rd : Word → State → Res Word} (hr : ∀ a s, Sound s (rd a s)) (c : Cell) (e : ExtraReg) (off : Word)
    (s : State) : Sound s (runRead rd c e off s) :=
  Sound.bind (Sound.runProg (Sound.performRead hr c) _ _ s) fun _ t _ => Frame.refl t

theorem Sound.readExtraOver {rd : Word → State → Res Word} (hr : ∀ a s, Sound s (rd a s)) (k : Nat) (e : ExtraReg) (off : Word)
    (s : State) : Sound s (readExtraOver rd k e off s) := by
  unfold Machine.readExtraOver
  split
  · exact Sound.readCell _ _ s
  · exact Sound.runRead hr _ _ _ s
  · exact Sound.runRead hr _ _ _ s

theorem Sound.readOver {rd : Word → State → Res Word} (hr : ∀ a s, Sound s (rd a s)) (a : Word) (s : State) :
    Sound s (readOver rd a s) := by
  unfold Machine.readOver
  split
  · exact Sound.readExt a s
  · split
    · exact Frame.refl s
    · exact Sound.readBase _ _ s
    · exact Sound.readExtraOver hr _ _ _ s

theorem Sound.readNested (n : Nat) {rd : Word → State → Res Word} (hr : ∀ a s, Sound s (rd a s)) (a : Word) (s : State) :
    Sound s (readNested n rd a s) := by
  induction n generalizing rd a s with
  | zero => exact Sound.readOver hr a s
  | succ n ih => exact ih (fun a s => ih hr a s) a s

theorem Sound.actionRead (a : Word) (s : State) : Sound s (actionRead a s) :=
  Sound.readNested _ (fun _ _ => Sound.refused (by decide)) a s

theorem Sound.readExtra (k : Nat) (e : ExtraReg) (off : Word) (s : State) : Sound s (readExtra k e off s) :=
  Sound.readExtraOver Sound.actionRead k e off s

theorem Sound.performBank {wr : Word → Word → State → Res Unit} (hw : ∀ a v s, Sound s (wr a v s)) (p : BankPrim) (sc : Scope)
    (s : State) : Sound s (performBank wr p sc s) := by
  cases p with
  | isa p => exact Sound.performIsa Sound.actionRead hw (fun _ s => Sound.fetchWord _ s) p sc s
  | regRead r => exact Sound.readRegister Sound.actionRead r s
  | regWrite r v => exact Sound.bind (Sound.writeRegister hw r _ s) fun _ t _ => Frame.refl t
  | dmaWriteParam c slot v => exact Frame.writeParam _ _ _ s
  | dmaReadParam c slot => exact Sound.readParam _ _ s
  | fetch a => exact Sound.fetchWord _ s
  | dmaTrigger c => exact Sound.bind (Sound.triggerChannel _ s) fun _ t _ => Frame.refl t
  | csRecompute => exact Frame.csRecompute s
  | waitEnter => exact Frame.enterWait s
  | aggVectorFetch => exact Frame.aggVector s

theorem Sound.runWrite {wr : Word → Word → State → Res Unit} (hw : ∀ a v s, Sound s (wr a v s)) (e : ExtraReg) (off v : Word)
    (s : State) : Sound s (runWrite wr e off v s) :=
  Sound.bind (Sound.runProg (Sound.performBank hw) _ _ _) fun _ t _ => Frame.refl t

theorem Sound.writeExtraOver {wr : Word → Word → State → Res Unit} (hw : ∀ a v s, Sound s (wr a v s)) (k : Nat) (e : ExtraReg)
    (off v : Word) (s : State) : Sound s (writeExtraOver wr k e off v s) := by
  unfold Machine.writeExtraOver
  split
  · exact Sound.from (Frame.setReg _ _ s) (Sound.runWrite hw _ _ _ _)
  · exact Sound.from (Frame.setReg _ _ s) (Sound.runWrite hw _ _ _ _)
  · exact Frame.refl s

theorem Sound.writeOver {wr : Word → Word → State → Res Unit} (hw : ∀ a v s, Sound s (wr a v s)) (a v : Word) (s : State) :
    Sound s (writeOver wr a v s) := by
  unfold Machine.writeOver
  split
  · exact Frame.writeExt a v s
  · split
    · exact Frame.refl s
    · exact Sound.writeBase _ _ s
    · exact Sound.writeExtraOver hw _ _ _ _ s

theorem Sound.writeNested (n : Nat) {wr : Word → Word → State → Res Unit} (hw : ∀ a v s, Sound s (wr a v s)) (a v : Word)
    (s : State) : Sound s (writeNested n wr a v s) := by
  induction n generalizing wr a v s with
  | zero => exact Sound.writeOver hw a v s
  | succ n ih => exact ih (fun a v s => ih hw a v s) a v s

theorem Sound.actionWrite (a v : Word) (s : State) : Sound s (actionWrite a v s) :=
  Sound.writeNested _ (fun _ _ _ => Sound.refused (by decide)) a v s

theorem Sound.writeExtra (k : Nat) (e : ExtraReg) (off v : Word) (s : State) : Sound s (writeExtra k e off v s) :=
  Sound.writeExtraOver Sound.actionWrite k e off v s

theorem Sound.readPeriph (off : Word) (s : State) : Sound s (readPeriph off s) := by
  unfold Machine.readPeriph
  split
  · exact Frame.refl s
  · exact Sound.readBase _ _ s
  · exact Sound.readExtra _ _ _ s

theorem Sound.writePeriph (off v : Word) (s : State) : Sound s (writePeriph off v s) := by
  unfold Machine.writePeriph
  split
  · exact Frame.refl s
  · exact Sound.writeBase _ _ s
  · exact Sound.writeExtra _ _ _ _ s

theorem Sound.readWord (a : Word) (s : State) : Sound s (readWord a s) := by
  unfold Machine.readWord
  split
  · exact Sound.readPeriph _ s
  · exact Sound.readExt a s

theorem Sound.writeWord (a v : Word) (s : State) : Sound s (writeWord a v s) := by
  unfold Machine.writeWord
  split
  · exact Sound.writePeriph _ _ s
  · exact Frame.writeExt a v s

theorem Sound.performInstr (p : IsaPrim) (sc : Scope) (s : State) : Sound s (performInstr p sc s) :=
  Sound.performIsa Sound.readWord Sound.writeWord Sound.fetchFurther p sc s

end Sys2Proof.Machine
end

