-- ==== Sys2Proof/Laws/Ops.lean ====
section
/-! SUPPORT. What each shared operation does, said once: the stack pointer, the stack, the flag register, taking and leaving
an interrupt, arbitration, the aggregator and external memory. -/

namespace Sys2Proof.Machine

/-! ## The stack (spec/41_register_file.md R165 to R173) -/

/-- SP moves up the ring of ten (R173). -/
theorem clamp_succ (p : BitVec 4) (h : p.toNat ≤ 9) : (clamp (p.setWidth 8 + 1)).toNat = (p.toNat + 1) % 10 := by
  revert p; decide

/-- SP moves down the ring of ten (R173). -/
theorem clamp_pred (p : BitVec 4) (h : p.toNat ≤ 9) : (clamp (p.setWidth 8 - 1)).toNat = (p.toNat + 9) % 10 := by
  revert p; decide

/-- The clamp by the low four bits of its argument. -/
theorem clamp_toNat (v : Byte) :
    (clamp v).toNat = if v.toNat % 16 < 10 then v.toNat % 16 else if v.toNat % 2 = 1 then 9 else 0 := by
  revert v; decide

/-- The pending latches after a stack operation that wraps where SP is `edge`. -/
def wrapPending (edge : BitVec 4) (s : State) : Pending :=
  if s.sp = edge then { s.pending with l1 := true } else s.pending

theorem push_eq (v : Word) (s : State) :
    push v s = { s with
      sp := clamp (s.sp.setWidth 8 + 1), stk := s.stk.setIfInBounds s.sp.toNat (.val v), pending := wrapPending 9#4 s } := by
  unfold push wrapPending
  split <;> rfl

theorem popPointer_eq (s : State) :
    popPointer s = { s with sp := clamp (s.sp.setWidth 8 - 1), pending := wrapPending 0#4 s } := by
  unfold popPointer wrapPending
  split <;> rfl

theorem stk_get_setIfInBounds (stk : Vector Cell 10) (p : Nat) (c : Cell) (j : Fin 10) :
    (stk.setIfInBounds p c).get j = if j.val = p then c else stk.get j := by
  simp [Vector.get_eq_getElem, Vector.getElem_setIfInBounds, eq_comm]

theorem stkSlot_of_val (s : State) (p : BitVec 4) (j : Fin 10) (h : j.val = p.toNat) : stkSlot s p = s.stk.get j := by
  have hj := j.isLt
  have : p.toNat < 10 := by omega
  simp [stkSlot, this, Vector.get_eq_getElem, h]

/-- STACK_POP of a slot that holds a word. -/
theorem pop_val {s : State} {w : Word} (h : stkSlot s (clamp (s.sp.setWidth 8 - 1)) = .val w) :
    pop s = .ok w (popPointer s) := by
  have h' : stkSlot (popPointer s) (popPointer s).sp = .val w := by rw [popPointer_eq]; exact h
  simp [pop, h']

/-- STACK_POP of an `Undefined` slot. -/
theorem pop_undef {s : State} (h : stkSlot s (clamp (s.sp.setWidth 8 - 1)) = .undef) :
    pop s = raise (.readUndefined .stk ((popPointer s).sp.setWidth 16)) (popPointer s) := by
  have h' : stkSlot (popPointer s) (popPointer s).sp = .undef := by rw [popPointer_eq]; exact h
  simp [pop, h']

/-- A pop reads the slot that the push before it wrote. -/
theorem stkSlot_push (v : Word) (s : State) (h : s.sp.toNat ≤ 9) :
    stkSlot (push v s) (clamp ((push v s).sp.setWidth 8 - 1)) = .val v ∧ clamp ((push v s).sp.setWidth 8 - 1) = s.sp := by
  have hup : ∀ p : BitVec 4, p.toNat ≤ 9 → clamp ((clamp (p.setWidth 8 + 1)).setWidth 8 - 1) = p := by decide
  have e : clamp ((push v s).sp.setWidth 8 - 1) = s.sp := by rw [push_eq]; exact hup s.sp h
  refine ⟨?_, e⟩
  rw [e, push_eq]
  have hl : s.sp.toNat < 10 := by omega
  simp [stkSlot, hl]

/-- An accumulator after the write of one (R161). -/
theorem writeAc_get (i j : Fin 4) (c : Cell) (s : State) :
    (writeAc i c s).ac.get j = if j = i then c else s.ac.get j := by
  show (s.ac.set i.val c i.isLt).get j = _
  simp only [Vector.get_eq_getElem, Vector.getElem_set, Fin.ext_iff, eq_comm]

/-! ## Flags (R163) -/

/-- A write that leaves bits 11..14 alone calls nothing back. -/
theorem flagOuts_same {old v : Word} (h : ∀ i, 11 ≤ i → i < 15 → v.getLsbD i = old.getLsbD i) : flagOuts old v = [] := by
  simpa [flagOuts] using And.intro (h 11 (by decide) (by decide))
    (And.intro (h 12 (by decide) (by decide)) (And.intro (h 13 (by decide) (by decide)) (h 14 (by decide) (by decide))))

theorem frBit_getLsbD (i : Fin 16) (k : Nat) : (frBit i).getLsbD k = decide (k = i.val) := by
  have hi := i.isLt
  unfold frBit
  rw [BitVec.getLsbD_shiftLeft, BitVec.getLsbD_one]
  by_cases h : k = i.val
  · subst h; simp [hi]
  · by_cases h2 : k < i.val
    · simp [h, h2]
    · have : k - i.val ≠ 0 := by omega
      simp [h, h2, this]

/-- Clearing a bit below 11 calls nothing back. -/
theorem flagOuts_clear {i : Fin 16} (h : i.val < 11) (old : Word) : flagOuts old (old &&& ~~~ (frBit i)) = [] :=
  flagOuts_same fun k h1 h2 => by
    have : k ≠ i.val := by omega
    have h3 : k < 16 := by omega
    rw [BitVec.getLsbD_and, BitVec.getLsbD_not, frBit_getLsbD]
    simp only [this, decide_false, Bool.not_false, h3, decide_true, Bool.and_true]

/-- Setting a bit below 11 calls nothing back. -/
theorem flagOuts_set {i : Fin 16} (h : i.val < 11) (old : Word) : flagOuts old (old ||| frBit i) = [] :=
  flagOuts_same fun k h1 h2 => by
    have : k ≠ i.val := by omega
    rw [BitVec.getLsbD_or, frBit_getLsbD]
    simp only [this, decide_false, Bool.or_false]

/-! ## Interrupts (spec/60_exceptions.md) -/

/-- What the vector fetch takes: the source it names, or a free value and a draw (R294). -/
theorem aggVector_of_source {s : State} {k : Nat} (h : aggSource s = some k) : aggVector s = (BitVec.ofNat 16 k, s) := by
  simp [aggVector, h]

/-- The enables of the sources are IRQ_ENABLE's value (R293). -/
theorem sourceEnables_val {s : State} {w : Word} (h : s.bank.irqEnable = .val w) : sourceEnables s = w := by
  simp [sourceEnables, h]

/-- The vector is the first source that is pending and enabled (R295). -/
theorem aggSource_eq_some {s : State} {k : Fin 4} (hp : s.apend.getLsbD k.val = true)
    (he : (sourceEnables s).getLsbD k.val = true)
    (hm : ∀ m : Fin 4, m < k → ¬ (s.apend.getLsbD m.val = true ∧ (sourceEnables s).getLsbD m.val = true)) :
    aggSource s = some k.val := by
  have no : ∀ m : Fin 4, m < k → (s.apend.getLsbD m.val && (sourceEnables s).getLsbD m.val) = false := by
    intro m h
    have := hm m h
    cases h1 : s.apend.getLsbD m.val <;> cases h2 : (sourceEnables s).getLsbD m.val <;> simp_all
  unfold aggSource
  match k, hp, he, no with
  | 0, hp, he, no => simp_all
  | 1, hp, he, no => have := no 0 (by decide); simp_all
  | 2, hp, he, no => have := no 0 (by decide); have := no 1 (by decide); simp_all
  | 3, hp, he, no => have := no 0 (by decide); have := no 1 (by decide); have := no 2 (by decide); simp_all

theorem aggVector_state (s : State) : ∃ n, (aggVector s).2 = { s with draws := n } := by
  unfold aggVector
  split
  · exact ⟨s.draws, rfl⟩
  · exact ⟨s.draws + 1, rfl⟩

@[simp] theorem aggVector_cfg (s : State) : (aggVector s).2.cfg = s.cfg := by
  obtain ⟨n, h⟩ := aggVector_state s
  rw [h]

/-- The state of an entry before its vector is fetched (R277). -/
def entryStart (l : Level) (s : State) : State :=
  setFlags (s.fr &&& ~~~ (frBit s.cfg.ienBit))
    (push s.pc { s with pending := setPending s.pending l false, waiting := false })

/-- Taking an interrupt of a level without a vector. -/
theorem takeInterrupt_plain {l : Level} (h : l ≠ .l2) (s : State) :
    takeInterrupt l s = { emit (.intAck l 0#16) (entryStart l s) with pc := intVector s.cfg l 0#16 } := by
  have e : (push s.pc { s with pending := setPending s.pending l false, waiting := false }).fr = s.fr := by
    rw [push_eq]
  have e2 : (push s.pc { s with pending := setPending s.pending l false, waiting := false }).cfg = s.cfg := by
    rw [push_eq]
  cases l <;> first | exact absurd rfl h | (simp only [takeInterrupt, entryStart, emit_cfg, setFlags_cfg, e, e2])

/-- Taking the aggregator's interrupt, with its vector. -/
theorem takeInterrupt_agg (s : State) :
    takeInterrupt .l2 s = { emit (.intAck .l2 (aggVector (entryStart .l2 s)).1) (aggVector (entryStart .l2 s)).2 with
      pc := intVector s.cfg .l2 (aggVector (entryStart .l2 s)).1 } := by
  have e : (push s.pc { s with pending := setPending s.pending .l2 false, waiting := false }).fr = s.fr := by
    rw [push_eq]
  have e2 : (push s.pc { s with pending := setPending s.pending .l2 false, waiting := false }).cfg = s.cfg := by
    rw [push_eq]
  simp only [takeInterrupt, entryStart, emit_cfg, aggVector_cfg, setFlags_cfg, e, e2]

/-- INT_RETURN of a slot that holds a word (R279). -/
theorem returnFromInterrupt_val {s : State} {w : Word} (h : stkSlot s (clamp (s.sp.setWidth 8 - 1)) = .val w) :
    returnFromInterrupt s = .ok w (setFlags (s.fr ||| frBit s.cfg.ienBit) (writeNpc w (popPointer s))) := by
  unfold returnFromInterrupt
  rw [pop_val h]
  simp only [Res.bind_ok]
  rw [popPointer_eq]

/-- A pop leaves the aggregator alone. -/
theorem pop_apend {s t : State} {w : Word} (h : pop s = .ok w t) : t.apend = s.apend := by
  unfold pop at h
  dsimp only at h
  split at h
  · cases h; rw [popPointer_eq]
  · cases h

/-- An entry does not clear the aggregator's pending bits (R277). -/
theorem takeInterrupt_apend (l : Level) (s : State) : (takeInterrupt l s).apend = s.apend := by
  have e : (entryStart l s).apend = s.apend := by simp only [entryStart, push_eq]; rfl
  by_cases hl : l = .l2
  · subst hl
    rw [takeInterrupt_agg]
    obtain ⟨n, hn⟩ := aggVector_state (entryStart .l2 s)
    rw [hn]; exact e
  · rw [takeInterrupt_plain hl]; exact e

/-! ## External memory (spec/20_memory.md) -/

theorem readExt_ram {a : Word} {s : State} (h : memKind s.cfg a = .ram) :
    readExt a s = .ok (s.mem.readWord a) s := by
  simp [readExt, h]

theorem writeExt_ram {a v : Word} {s : State} (h : memKind s.cfg a = .ram) :
    writeExt a v s = { s with mem := s.mem.writeWord a v } := by
  simp [writeExt, h]

theorem fetchWord_ram {a : Word} {s : State} (hd : decodeAddr s.cfg a = .external) (h : memKind s.cfg a = .ram) :
    fetchWord a s = .ok (s.mem.readWord a) s := by
  simp [fetchWord, hd, readExt_ram h]

/-- The value of a word of two lanes. -/
theorem wordOfLanes_toNat (lo hi : Byte) : (wordOfLanes lo hi).toNat = lo.toNat + 256 * hi.toNat := by
  have h1 := lo.isLt
  have h2 := hi.isLt
  unfold wordOfLanes
  rw [← BitVec.add_eq_or_of_and_eq_zero]
  · rw [BitVec.toNat_add, BitVec.toNat_shiftLeft, BitVec.toNat_setWidth, BitVec.toNat_setWidth, Nat.shiftLeft_eq]
    omega
  · apply BitVec.eq_of_getLsbD_eq
    intro i hi16
    by_cases h8 : i < 8
    · simp [h8]
    · simp [h8, BitVec.getLsbD_of_ge lo i (by omega)]

theorem Memory.readWord_toNat (m : Memory) (a : Word) :
    (m.readWord a).toNat = (m.read (2 * a.toNat)).toNat + 256 * (m.read (2 * a.toNat + 1)).toNat := by
  unfold Memory.readWord
  rw [wordOfLanes_toNat, byteAddr_toNat, byteAddr_toNat]
  rfl

end Sys2Proof.Machine
end

