-- ==== Sys2Proof/Laws/Engine.lean ====
section
/-! SUPPORT. What the engine's operations do and leave: an instruction, an interrupt entry, a step and a run. -/

namespace Sys2Proof.Machine

/-- What holds between the states before and after an engine step: as `Frame`, but for PC, which moves, and the wait
state, which an entry ends. -/
structure StepFrame (s t : State) : Prop where
  cfg       : t.cfg = s.cfg
  line      : t.line = s.line
  bootMode  : t.bootMode = s.bootMode
  fault     : t.fault = s.fault
  resetDone : t.resetDone = s.resetDone
  aline     : t.aline = s.aline
  inbox     : t.inbox = s.inbox
  result    : t.result = s.result
  inv       : Inv s → Inv t
  idle      : ChannelsIdle s → ChannelsIdle t

theorem Frame.toStep {s t : State} (h : Frame s t) : StepFrame s t :=
  ⟨h.cfg, h.line, h.bootMode, h.fault, h.resetDone, h.aline, h.inbox, h.result, h.inv, h.idle⟩

theorem StepFrame.trans {s t u : State} (h : StepFrame s t) (g : StepFrame t u) : StepFrame s u where
  cfg := g.cfg.trans h.cfg
  line := g.line.trans h.line
  bootMode := g.bootMode.trans h.bootMode
  fault := g.fault.trans h.fault
  resetDone := g.resetDone.trans h.resetDone
  aline := g.aline.trans h.aline
  inbox := g.inbox.trans h.inbox
  result := g.result.trans h.result
  inv := fun i => g.inv (h.inv i)
  idle := fun i => g.idle (h.idle i)

theorem StepFrame.setPc (v : Word) (s : State) : StepFrame s { s with pc := v } := by
  constructor <;> first | rfl | exact id | exact Inv.of_same rfl rfl rfl rfl ⟨rfl, rfl⟩

theorem StepFrame.beginInstr (s : State) : StepFrame s (beginInstr s) := by
  constructor <;> first | rfl | exact id | exact Inv.of_same rfl rfl rfl rfl ⟨rfl, rfl⟩

theorem StepFrame.endInstr (s : State) : StepFrame s (endInstr s) := by
  constructor <;> first | rfl | exact id | exact Inv.of_same rfl rfl rfl rfl ⟨rfl, rfl⟩

theorem StepFrame.acknowledge (p : Pending) (s : State) : StepFrame s { s with pending := p, waiting := false } := by
  constructor <;> first | rfl | exact id | exact Inv.of_same rfl rfl rfl rfl ⟨rfl, rfl⟩

theorem StepFrame.takeInterrupt (l : Level) (s : State) : StepFrame s (takeInterrupt l s) := by
  have h0 := (StepFrame.acknowledge (setPending s.pending l false) s).trans
    ((Frame.push s.pc _).trans (Frame.setFlags (s.fr &&& ~~~ (frBit s.cfg.ienBit)) _)).toStep
  by_cases hl : l = .l2
  · subst hl
    rw [takeInterrupt_agg]
    exact (h0.trans ((Frame.aggVector _).trans (Frame.emit _ _)).toStep).trans (StepFrame.setPc _ _)
  · rw [takeInterrupt_plain hl]
    exact (h0.trans (Frame.emit _ _).toStep).trans (StepFrame.setPc _ _)

/-- An answer of the engine in `s`: a value with a framed state, or a recorded fault. -/
def StepSound {α : Type} (s : State) (x : Res α) : Prop :=
  match x with
  | .ok _ t => StepFrame s t
  | .fault (.raised reason left) => left.fault = s.fault.or (some reason)
  | .refused _ => True

theorem Sound.toStep {α : Type} {s : State} {x : Res α} (h : Sound s x) : StepSound s x := by
  cases x with
  | ok v t => exact Frame.toStep h
  | fault r => cases r; exact h
  | refused r => trivial

theorem StepSound.from {α : Type} {s t : State} {x : Res α} (h : StepFrame s t) (hx : StepSound t x) : StepSound s x := by
  cases x with
  | ok v u => exact h.trans hx
  | fault r => cases r; simpa [StepSound, h.fault] using hx
  | refused r => trivial

theorem StepSound.bind {α β : Type} {s : State} {x : Res α} {f : α → State → Res β} (hx : StepSound s x)
    (hf : ∀ v t, StepFrame s t → StepSound t (f v t)) : StepSound s (x.bind f) := by
  cases x with
  | ok v t => exact StepSound.from hx (hf v t hx)
  | fault r => exact hx
  | refused r => trivial

theorem StepSound.runInstr (w : Word) (s : State) : StepSound s (runInstr w s) := by
  unfold Machine.runInstr
  split
  · exact (Sound.raise _ rfl : Sound s (raise _ s : Res Nat)).toStep
  · exact StepSound.from (StepFrame.beginInstr s)
      (StepSound.bind (Sound.runProg Sound.performInstr _ _ _).toStep fun _ t _ => StepFrame.endInstr t)

theorem StepSound.runCpuWord (w : Word) (s : State) : StepSound s (runCpuWord w s) :=
  StepSound.bind (StepSound.runInstr w s) fun _ t _ => (Sound.costOf _ t).toStep

/-- An instruction that writes WAIT_ENTER or not, the wait state is not left inside it (spec/40_engine.md R150). -/
theorem runInstr_waiting {w : Word} {s t : State} {n : Nat} (h : runInstr w s = .ok n t) (hw : s.waiting = true) :
    t.waiting = true := by
  unfold runInstr at h
  split at h
  · cases h
  · obtain ⟨r, u, hr, h'⟩ := Res.bind_eq_ok.mp h
    cases h'
    have hs := Sound.runProg Sound.performInstr ‹_› { pc := s.pc, word := w, vals := [] } (beginInstr s)
    rw [hr] at hs
    exact (show Frame (beginInstr s) u from hs).waiting hw

theorem runCpuWord_waiting {w : Word} {s t : State} {n : Nat} (h : runCpuWord w s = .ok n t) (hw : s.waiting = true) :
    t.waiting = true := by
  obtain ⟨k, u, hr, hc⟩ := Res.bind_eq_ok.mp h
  have hs := Sound.costOf k u
  rw [hc] at hs
  exact (show Frame u t from hs).waiting (runInstr_waiting hr hw)

/-! ## A step (spec/40_engine.md R132) -/

theorem engineStep_entry {s : State} {l : Level} (h : arbitrate s = some l) :
    engineStep s = costOf s.cfg.intEntryCycles (takeInterrupt l s) := by
  simp [engineStep, h]

theorem engineStep_idle {s : State} (h : arbitrate s = none) (hw : s.waiting = true) :
    engineStep s = costOf s.cfg.idleCycles s := by
  simp [engineStep, h, hw]

theorem engineStep_fetch {s : State} (h : arbitrate s = none) (hw : s.waiting = false) :
    engineStep s = (fetchWord s.pc (emit (.debugHook s.pc) s)).bind runCpuWord := by
  simp [engineStep, h, hw]

theorem StepSound.engineStep (s : State) : StepSound s (engineStep s) := by
  cases h : arbitrate s with
  | some l =>
    rw [engineStep_entry h]
    exact StepSound.from (StepFrame.takeInterrupt l s) (Sound.costOf _ _).toStep
  | none =>
    cases hw : s.waiting with
    | true => rw [engineStep_idle h hw]; exact (Sound.costOf _ s).toStep
    | false =>
      rw [engineStep_fetch h hw]
      exact StepSound.from (Frame.emit _ s).toStep
        (StepSound.bind (Sound.fetchWord _ _).toStep fun w t _ => StepSound.runCpuWord w t)

/-- Only an interrupt entry ends the wait state (R152). -/
theorem engineStep_waiting {s t : State} {n : Nat} (h : arbitrate s = none) (hw : s.waiting = true)
    (he : engineStep s = .ok n t) : t.waiting = true := by
  rw [engineStep_idle h hw] at he
  have hs := Sound.costOf s.cfg.idleCycles s
  rw [he] at hs
  exact Frame.waiting hs hw

/-! ## Costs (R134) -/

/-- A cost of n cycles takes n draws and nothing else, and is at least n. -/
theorem cycleCost_eq (n : Nat) (s : State) : (cycleCost n s).2 = { s with draws := s.draws + n } ∧ n ≤ (cycleCost n s).1 := by
  induction n generalizing s with
  | zero => exact ⟨rfl, Nat.le_refl 0⟩
  | succ n ih =>
    obtain ⟨h1, h2⟩ := ih (drawn s)
    refine ⟨?_, ?_⟩
    · show (cycleCost n (drawn s)).2 = _
      rw [h1]
      simp [drawn]
      omega
    · show n + 1 ≤ 1 + Config.drawNat s.draws + (cycleCost n (drawn s)).1
      omega

theorem costOf_eq (n : Nat) (s : State) : ∃ m, n ≤ m ∧ costOf n s = .ok m { s with draws := s.draws + n } :=
  ⟨(cycleCost n s).1, (cycleCost_eq n s).2, by rw [costOf, (cycleCost_eq n s).1]⟩

/-- The cost does not depend on anything but the draw counter. -/
theorem cycleCost_fst {s t : State} (n : Nat) (h : s.draws = t.draws) : (cycleCost n s).1 = (cycleCost n t).1 := by
  induction n generalizing s t with
  | zero => rfl
  | succ n ih =>
    show 1 + Config.drawNat s.draws + (cycleCost n (drawn s)).1 = 1 + Config.drawNat t.draws + (cycleCost n (drawn t)).1
    rw [h, ih (s := drawn s) (t := drawn t) (by simp [h])]

/-! ## A run (R133) -/

theorem runLoop_done {fuel : Nat} {b : Int} {s : State} (h : b ≤ 0) : runLoop fuel b s = .ok b s := by
  cases fuel <;> simp [runLoop, h]

theorem StepSound.runLoop (fuel : Nat) (b : Int) (s : State) : StepSound s (runLoop fuel b s) := by
  induction fuel generalizing b s with
  | zero =>
    unfold Machine.runLoop
    split
    · exact (Frame.refl s).toStep
    · trivial
  | succ fuel ih =>
    unfold Machine.runLoop
    split
    · exact (Frame.refl s).toStep
    · have hs := StepSound.engineStep s
      dsimp only
      split
      · rename_i c t he
        rw [he] at hs
        exact StepSound.from hs (ih _ _)
      · rename_i reason left he
        rw [he] at hs
        exact hs
      · trivial

/-- The leaf a program ends in is one of its leaves. -/
theorem runProg_leaf {π ω : Type} {perform : π → Scope → State → Res Word} {ok : ω → Bool} {p : Prog π ω}
    (h : leavesOk ok p = true) {sc sc' : Scope} {s t : State} {o : ω} (hr : runProg perform p sc s = .ok (o, sc') t) :
    ok o = true := by
  induction p generalizing sc s with
  | done o' => simp only [runProg, Res.ok.injEq, Prod.mk.injEq] at hr; obtain ⟨⟨rfl, -⟩, -⟩ := hr; exact h
  | call q k ih =>
    obtain ⟨v, u, -, hk⟩ := Res.bind_eq_ok.mp hr
    exact ih h hk
  | cond c a b iha ihb =>
    simp only [leavesOk, Bool.and_eq_true] at h
    unfold runProg at hr
    split at hr
    · exact ihb h.2 hr
    · exact iha h.1 hr

theorem isaExec_mem {cfg : Config} {pc w : Word} {p : Prog IsaPrim Nat} (h : isaExec cfg pc w = some p) :
    ∃ e ∈ cfg.isa, e.prog = p := by
  unfold isaExec at h
  obtain ⟨e, he, rfl⟩ := Option.map_eq_some_iff.mp h
  exact ⟨e, List.mem_of_find?_eq_some he, rfl⟩

/-- In a well-formed configuration a step costs at least one cycle (log entry 21). -/
theorem engineStep_cost {s t : State} {n : Nat} (hc : configOk s.cfg = true) (h : engineStep s = .ok n t) : 1 ≤ n := by
  simp only [configOk, Bool.and_eq_true, decide_eq_true_eq, List.all_eq_true] at hc
  obtain ⟨⟨⟨⟨-, hisa⟩, hentry⟩, hidle⟩, -⟩ := hc
  cases ha : arbitrate s with
  | some l =>
    rw [engineStep_entry ha] at h
    obtain ⟨m, hm, e⟩ := costOf_eq s.cfg.intEntryCycles (takeInterrupt l s)
    rw [e] at h; cases h; omega
  | none =>
    cases hw : s.waiting with
    | true =>
      rw [engineStep_idle ha hw] at h
      obtain ⟨m, hm, e⟩ := costOf_eq s.cfg.idleCycles s
      rw [e] at h; cases h; omega
    | false =>
      rw [engineStep_fetch ha hw] at h
      obtain ⟨w, u, hf, h⟩ := Res.bind_eq_ok.mp h
      have hu : u.cfg = s.cfg := by
        have := Sound.fetchWord s.pc (emit (.debugHook s.pc) s)
        rw [hf] at this
        exact (show Frame (emit (.debugHook s.pc) s) u from this).cfg
      obtain ⟨k, v, hr, h⟩ := Res.bind_eq_ok.mp h
      obtain ⟨m, hm, e⟩ := costOf_eq k v
      rw [e] at h; cases h
      unfold runInstr at hr
      split at hr
      · cases hr
      · rename_i p hp
        obtain ⟨r, x, hrun, hr⟩ := Res.bind_eq_ok.mp hr
        cases hr
        obtain ⟨q, hq, rfl⟩ := isaExec_mem hp
        rw [hu] at hq
        have := runProg_leaf (hisa q hq) (sc' := r.2) (o := r.1) hrun
        simp only [decide_eq_true_eq] at this
        omega

/-- A step is not refused for want of an end. -/
theorem engineStep_ends (s : State) : engineStep s ≠ .refused .runWithoutEnd := by
  have bound : ∀ {α β : Type} {s : State} {x : Res α} {f : α → State → Res β}, Sound s x →
      (∀ v t, f v t ≠ .refused .runWithoutEnd) → x.bind f ≠ .refused .runWithoutEnd := by
    intro α β s x f hx hf
    cases x with
    | ok v t => exact hf v t
    | fault r => simp
    | refused r => exact fun e => hx (by cases e; rfl)
  cases h : arbitrate s with
  | some l => rw [engineStep_entry h]; simp [costOf]
  | none =>
    cases hw : s.waiting with
    | true => rw [engineStep_idle h hw]; simp [costOf]
    | false =>
      rw [engineStep_fetch h hw]
      refine bound (Sound.fetchWord _ _) fun w t => ?_
      unfold runCpuWord runInstr
      split
      · simp [Machine.raise]
      · rw [Res.bind_assoc]
        exact bound (Sound.runProg Sound.performInstr _ _ _) fun r u => by simp [costOf]

/-- In a well-formed configuration a run ends (log entry 21). -/
theorem runLoop_ends {fuel : Nat} {b : Int} {s : State} (hc : configOk s.cfg = true) (hf : b ≤ fuel) :
    runLoop fuel b s ≠ .refused .runWithoutEnd := by
  induction fuel generalizing b s with
  | zero => rw [runLoop_done (by omega)]; simp
  | succ fuel ih =>
    by_cases hb : b ≤ 0
    · rw [runLoop_done hb]; simp
    · unfold runLoop
      simp only [hb, if_false]
      have hs := StepSound.engineStep s
      cases he : engineStep s with
      | ok c t =>
        rw [he] at hs
        have h1 := engineStep_cost hc he
        exact ih (by rw [StepFrame.cfg hs]; exact hc) (by omega)
      | fault r => cases r; simp
      | refused r => intro h; cases h; exact engineStep_ends s he

/-- As many steps as the budget has cycles are enough (log entry 21). -/
theorem runLoop_fuel {f g : Nat} {b : Int} {s : State} (hc : configOk s.cfg = true) (hf : b ≤ f) (hg : b ≤ g) :
    runLoop f b s = runLoop g b s := by
  induction f generalizing g b s with
  | zero => rw [runLoop_done (by omega), runLoop_done (by omega)]
  | succ f ih =>
    by_cases hb : b ≤ 0
    · rw [runLoop_done hb, runLoop_done hb]
    · cases g with
      | zero => omega
      | succ g =>
        unfold runLoop
        simp only [hb, if_false]
        have hs := StepSound.engineStep s
        cases he : engineStep s with
        | ok c t =>
          rw [he] at hs
          have h1 := engineStep_cost hc he
          have hcfg : t.cfg = s.cfg := StepFrame.cfg hs
          exact ih (by rw [hcfg]; exact hc) (by omega) (by omega)
        | fault r => rfl
        | refused r => rfl

/-- A waiting machine with no enabled request spends its budget on idle steps (R151, R133). -/
theorem runLoop_idle {fuel : Nat} {b : Int} {s : State} (hw : s.waiting = true) (ha : arbitrate s = none)
    (hi : 1 ≤ s.cfg.idleCycles) (hf : b ≤ fuel) :
    ∃ (r : Int) (n : Nat), runLoop fuel b s = .ok r { s with draws := n } ∧ r ≤ 0 ∧ (b ≤ 0 → r = b ∧ n = s.draws) := by
  induction fuel generalizing b s with
  | zero => exact ⟨b, s.draws, runLoop_done (by omega), by omega, fun _ => ⟨rfl, rfl⟩⟩
  | succ f ih =>
    by_cases hb : b ≤ 0
    · exact ⟨b, s.draws, runLoop_done hb, hb, fun _ => ⟨rfl, rfl⟩⟩
    · unfold runLoop
      simp only [hb, if_false]
      rw [engineStep_idle ha hw]
      obtain ⟨m, hm, e⟩ := costOf_eq s.cfg.idleCycles s
      rw [e]
      obtain ⟨r, n, e2, h1, h2⟩ := ih (b := b - m) (s := { s with draws := s.draws + s.cfg.idleCycles }) hw ha hi (by omega)
      exact ⟨r, n, e2, h1, fun h => h.elim⟩

end Sys2Proof.Machine
end

