-- ==== Sys2Proof/Laws/Host.lean ====
section
/-! SUPPORT. What the host's operations keep: the configuration, the invariant, and the registers that SAVE and RESTORE carry. -/

namespace Sys2Proof.Machine

/-- A computed register has no RESET_VALUE (spec/10_state.md R42). -/
theorem resetValue_computed {cfg : Config} {r : Reg} (h : isComputed cfg r = true) : resetValue cfg r = .undef := by
  simp [resetValue, h]

/-- A state with the bank of RESET has the bank's shape. -/
theorem resetBank_shaped {s : State} (h : s.bank = resetBank s.cfg) : BankShaped s where
  rsv := by simp [h, resetBank]
  extra := by simp [h, resetBank]
  computed := fun k hk hc => by simp [getReg, h, resetBank, hk, resetValue_computed hc]

theorem resetChannels_get (cfg : Config) (c : Fin 7) : (resetChannels cfg).get c = resetChannel cfg c := by
  match c with
  | 0 | 1 | 2 | 3 | 4 | 5 | 6 => rfl

/-! ## The debugger's fields (spec/41_register_file.md R181) -/

theorem dbgField_ac {f : BitVec 5} {i : Fin 4} (h : f.toNat = 2 + i.val) : dbgField f = some (.ac i) := by
  have hf : f = BitVec.ofNat 5 (2 + i.val) := BitVec.eq_of_toNat_eq (by simp [h]; omega)
  subst hf
  clear h
  revert i
  decide

theorem dbgField_stk {f : BitVec 5} {j : Fin 10} (h : f.toNat = 7 + j.val) : dbgField f = some (.stk j) := by
  have hf : f = BitVec.ofNat 5 (7 + j.val) := BitVec.eq_of_toNat_eq (by simp [h]; omega)
  subst hf
  clear h
  revert j
  decide

theorem dbgField_none {f : BitVec 5} (h : 17 ≤ f.toNat) : dbgField f = none := by
  revert f
  decide

/-- Every number up to 16 names a field. -/
theorem dbgField_some {f : BitVec 5} (h : f.toNat ≤ 16) : ∃ d, dbgField f = some d := by
  have h' : ∀ f : BitVec 5, f.toNat ≤ 16 → (dbgField f).isSome = true := by decide
  exact Option.isSome_iff_exists.mp (h' f h)

/-! ## What the host's writes keep -/

theorem Inv.resetWith {s : State} (strap : BitVec 2) (h : Inv s) : Inv (resetWith strap s) where
  flags := or_frOnes_hardwired _
  sp := clamp_le _
  memory := h.memory
  bank := resetBank_shaped rfl

theorem Inv.signalLine {s : State} (l : Level) (old b : Bool) (h : Inv s) : Inv (signalLine l old b s) :=
  ⟨h.flags, h.sp, h.memory, .of_same (s := s) rfl ⟨rfl, rfl⟩ h.bank⟩

theorem Inv.driveSource {s : State} (src : BitVec 2) (old b : Bool) (h : Inv s) : Inv (driveSource src old b s) :=
  ⟨h.flags, h.sp, h.memory, .of_same (s := s) rfl ⟨rfl, rfl⟩ h.bank⟩

theorem Inv.writeField {s : State} (f : DbgField) (v : Word) (h : Inv s) : Inv (writeField f v s) := by
  cases f with
  | pc => exact ⟨h.flags, h.sp, h.memory, .of_same (s := s) rfl ⟨rfl, rfl⟩ h.bank⟩
  | fr => exact (Frame.setFlags v s).inv h
  | ac i => exact (Frame.writeAc i _ s).inv h
  | sp => exact (Frame.writeSp _ s).inv h
  | stk j => exact (Frame.writeStk _ _ s).inv h

theorem writeField_cfg (f : DbgField) (v : Word) (s : State) : (writeField f v s).cfg = s.cfg := by
  cases f <;> rfl

theorem Frame.setRegs (rs : List Reg) (cs : List Cell) (s : State) : Frame s (setRegs rs cs s) := by
  induction rs generalizing cs s with
  | nil => exact Frame.refl s
  | cons r rs ih =>
    cases cs with
    | nil => exact Frame.refl s
    | cons c cs => exact (Frame.setReg r c s).trans (ih cs _)

/-- The state of RESTORE before the registers of the bank are set (spec/70_reset_and_hazards.md R327). -/
def loadFields (snap : Snapshot) (s : State) : State :=
  { s with
    pc        := snap.pc
    ac        := snap.ac
    sp        := snap.sp
    stk       := snap.stk
    dma       := snap.dma
    csRegions := snap.csRegions
    pending   := snap.pending
    line      := snap.line
    waiting   := snap.waiting
    bootMode  := snap.bootMode
    apend     := snap.apend
    aline     := snap.aline
    fault     := snap.fault
    resetDone := snap.resetDone }

theorem loadSnapshot_eq (snap : Snapshot) (s : State) :
    loadSnapshot snap s = setRegs (savedRegs s.cfg) snap.periph (loadFields snap s) := rfl

theorem loadSnapshot_cfg (snap : Snapshot) (s : State) : (loadSnapshot snap s).cfg = s.cfg :=
  (Frame.setRegs _ _ (loadFields snap s)).cfg

theorem Inv.loadSnapshot {s : State} {snap : Snapshot} (hs : snapshotFits s.cfg snap = true) (h : Inv s) :
    Inv (loadSnapshot snap s) := by
  have hsp : snap.sp.toNat ≤ 9 := by
    simp only [snapshotFits, Bool.and_eq_true, decide_eq_true_eq] at hs
    exact hs.1.1
  exact (Frame.setRegs _ _ (loadFields snap s)).inv ⟨h.flags, hsp, h.memory, .of_same (s := s) rfl ⟨rfl, rfl⟩ h.bank⟩

end Sys2Proof.Machine
end

