-- ==== Sys2Proof/Laws/Exec.lean ====
section
/-! SUPPORT. The meanings of all instructions in one form: `exec` performs the instruction's `action`, so that a rule about
every instruction is a rule about actions. -/

namespace Sys2Proof.Machine

/-- An answer with its value as the operation's result. -/
def Res.with {α : Type} (x : Res α) (result : α → Result) : Res Result := x.bind fun v s => .ok (result v) s

theorem Res.with_eq_ok {α : Type} {x : Res α} {result : α → Result} {v : Result} {t : State}
    (h : x.with result = .ok v t) : ∃ w, x = .ok w t := by
  obtain ⟨w, u, h1, h2⟩ := Res.bind_eq_ok.mp h
  cases h2
  exact ⟨w, h1⟩

/-- The channel of a DMA operation, or its refusal (spec/30_encoding.md R103). -/
def onChannel (c : BitVec 3) (x : Fin 7 → Res Result) : Res Result :=
  match channelOf c with
  | some c => x c
  | none => .refused .refusedOperand

/-- What an instruction does on a machine that has not faulted. -/
def action (i : Instr) (s : State) : Res Result :=
  match i with
  | .reset strap => .ok .none (resetWith strap s)
  | .run b => afterReset (fun s => (runLoop b.toInt.toNat b.toInt s).with Result.budget) s
  | .signalInt l b =>
    match levelOf l with
    | none => .refused .refusedOperand
    | some lv =>
      match lineOf s.line lv with
      | none => .refused .levelHasNoPin
      | some old => .ok .none (signalLine lv old (levelBit b) s)
  | .aggLine src b =>
    match aggLineOf s.aline src with
    | none => .refused .sourceIsInternal
    | some old => .ok .none (driveSource src old (levelBit b) s)
  | .dbgRead f =>
    match dbgField f with
    | some f => (readField f s).with Result.cell
    | none => .refused .refusedOperand
  | .dbgWrite f v =>
    match dbgField f with
    | some f => .ok .none (writeField f v s)
    | none => .refused .refusedOperand
  | .save => afterReset (fun s => .ok (.snapshot (takeSnapshot s)) s) s
  | .restore snap =>
    if snapshotFits s.cfg snap then .ok .none (setFlags snap.fr (loadSnapshot snap s)) else .refused .illFormedSnapshot
  | .step => afterReset (fun s => (engineStep s).with Result.cycles) s
  | .instr w => afterReset (fun s => (runInstr w s).with Result.cycles) s
  | .intEntry l => afterReset (fun s =>
      match levelOf l with
      | some l => .ok .none (takeInterrupt l s)
      | none => .refused .refusedOperand) s
  | .idle => .ok .none s
  | .acRead k => (readAc (acIndex k) s).with Result.word
  | .acWrite k v => .ok .none (writeAc (acIndex k) (.val v) s)
  | .pcWrite v => .ok .none (writeNpc v s)
  | .frRead => .ok (.word s.fr) s
  | .frWrite v => .ok .none (setFlags v s)
  | .spRead => afterReset (fun s => .ok (.word (s.sp.setWidth 16)) s) s
  | .spWrite v => .ok .none (writeSp v s)
  | .stackPush v => afterReset (fun s => .ok .none (push v s)) s
  | .stackPop => afterReset (fun s => (pop s).with Result.word) s
  | .intReturn => afterReset (fun s => (returnFromInterrupt s).with fun _ => Result.none) s
  | .jcRead j => (readJump j s).with Result.bool
  | .memRead16 a => (readWord a s).with Result.word
  | .memWrite16 a v => (writeWord a v s).with fun _ => Result.none
  | .memRead8 ba => (readByte ba s).with Result.byte
  | .memWrite8 ba b => (writeByte ba b s).with fun _ => Result.none
  | .fetch a => (fetchWord a s).with Result.word
  | .periphRead off => (readPeriph off s).with Result.word
  | .periphWrite off v => (writePeriph off v s).with fun _ => Result.none
  | .dmaWriteParam c slot v => onChannel c fun c => .ok .none (writeParam c (slotOf slot) (.val v) s)
  | .dmaReadParam c slot => onChannel c fun c => (readParam c (slotOf slot) s).with Result.word
  | .dmaTrigger c => onChannel c fun c => (triggerChannel c s).with fun _ => Result.none
  | .csRecompute => .ok .none (csRecompute s)
  | .aggVectorFetch => .ok (.word (aggVector s).1) (aggVector s).2
  | .waitEnter => .ok .none (enterWait s)
  | .cpuWord w => afterReset (fun s => (runCpuWord w s).with Result.cycles) s

/-- The outcome of an action: its result stands in the next state. -/
def Res.finish (x : Res Result) : Host.Outcome State Fault Refusal :=
  match x with
  | .ok v s => .next { s with result := v }
  | .fault r => .fault r
  | .refused r => .refused r

theorem Res.finish_with {α : Type} (x : Res α) (result : α → Result) : (x.with result).finish = x.outcome result := by
  cases x <;> rfl

theorem Res.finish_eq_next {x : Res Result} {t : State} :
    x.finish = .next t ↔ ∃ v u, x = .ok v u ∧ t = { u with result := v } := by
  cases x with
  | ok v u =>
    simp only [Res.finish, Host.Outcome.next.injEq, Res.ok.injEq]
    exact ⟨fun h => ⟨v, u, ⟨rfl, rfl⟩, h.symm⟩, by rintro ⟨_, _, ⟨rfl, rfl⟩, rfl⟩; rfl⟩
  | fault r => simp [Res.finish]
  | refused r => simp [Res.finish]

theorem Res.finish_eq_fault {x : Res Result} {r : Fault} : x.finish = .fault r ↔ x = .fault r := by
  cases x <;> simp [Res.finish]

/-- Every instruction but DBG_READ and SAVE performs its action, unless the machine has faulted (R303). -/
theorem exec_eq {i : Instr} (hd : ∀ f, i ≠ .dbgRead f) (hs : i ≠ .save) (s : State) :
    exec i s = if s.fault.isSome then .refused .faultedMachine else (action i s).finish := by
  cases i with
  | dbgRead f => exact absurd rfl (hd f)
  | save => exact absurd rfl hs
  | signalInt l b =>
    simp only [exec, execSignalInt, perform, action]
    cases levelOf l with
    | none => rfl
    | some lv => dsimp only; cases lineOf s.line lv <;> rfl
  | aggLine src b => simp only [exec, execAggLine, perform, action]; cases aggLineOf s.aline src <;> rfl
  | dbgWrite f v => simp only [exec, execDbgWrite, perform, action]; cases dbgField f <;> rfl
  | restore snap => simp only [exec, execRestore, perform, action]; cases snapshotFits s.cfg snap <;> rfl
  | dmaWriteParam c slot v =>
    simp only [exec, execDmaWriteParam, perform, action, onChannel]; cases channelOf c <;> rfl
  | dmaReadParam c slot =>
    simp only [exec, execDmaReadParam, perform, action, onChannel]
    cases channelOf c <;> simp [Res.finish_with]; rfl
  | dmaTrigger c =>
    simp only [exec, execDmaTrigger, perform, action, onChannel]
    cases channelOf c <;> simp [Res.finish_with] <;> rfl
  | intEntry l =>
    simp only [exec, execIntEntry, performAfterReset, perform, action, afterReset]
    cases s.resetDone <;> cases levelOf l <;> rfl
  | intReturn =>
    simp only [exec, execIntReturn, performAfterReset, perform, action, afterReset]
    cases s.resetDone <;> cases returnFromInterrupt s <;> rfl
  | spRead => simp only [exec, execSpRead, performAfterReset, perform, action, afterReset]; cases s.resetDone <;> rfl
  | stackPush v => simp only [exec, execStackPush, performAfterReset, perform, action, afterReset]; cases s.resetDone <;> rfl
  | run b =>
    simp only [exec, execRun, performAfterReset, perform, action, afterReset]
    cases s.resetDone <;> simp [Res.finish_with]; rfl
  | step =>
    simp only [exec, execStep, performAfterReset, perform, action, afterReset]
    cases s.resetDone <;> simp [Res.finish_with]; rfl
  | instr w =>
    simp only [exec, execInstr, performAfterReset, perform, action, afterReset]
    cases s.resetDone <;> simp [Res.finish_with]; rfl
  | cpuWord w =>
    simp only [exec, execCpuWord, performAfterReset, perform, action, afterReset]
    cases s.resetDone <;> simp [Res.finish_with]; rfl
  | stackPop =>
    simp only [exec, execStackPop, performAfterReset, perform, action, afterReset]
    cases s.resetDone <;> simp [Res.finish_with]; rfl
  | acRead k => simp only [exec, execAcRead, perform, action, Res.finish_with]
  | jcRead j => simp only [exec, execJcRead, perform, action, Res.finish_with]
  | memRead16 a => simp only [exec, execMemRead16, perform, action, Res.finish_with]
  | memWrite16 a v => simp only [exec, execMemWrite16, perform, action, Res.finish_with]; rfl
  | memRead8 ba => simp only [exec, execMemRead8, perform, action, Res.finish_with]
  | memWrite8 ba b => simp only [exec, execMemWrite8, perform, action, Res.finish_with]; rfl
  | fetch a => simp only [exec, execFetch, perform, action, Res.finish_with]
  | periphRead off => simp only [exec, execPeriphRead, perform, action, Res.finish_with]
  | periphWrite off v => simp only [exec, execPeriphWrite, perform, action, Res.finish_with]; rfl
  | reset | idle | acWrite | pcWrite | frRead | frWrite | spWrite | csRecompute | aggVectorFetch | waitEnter => rfl

/-- DBG_READ performs its action on a faulted machine too (R303). -/
theorem exec_dbgRead (f : BitVec 5) (s : State) : exec (.dbgRead f) s = (action (.dbgRead f) s).finish := by
  simp only [exec, execDbgRead, action]
  cases dbgField f with
  | none => rfl
  | some d => exact (Res.finish_with _ _).symm

/-- And so does SAVE. -/
theorem exec_save (s : State) : exec .save s = (action .save s).finish := by
  simp only [exec, execSave, action, afterReset]
  cases s.resetDone <;> rfl

/-- On a machine that has not faulted every instruction performs its action. -/
theorem exec_unfaulted (i : Instr) {s : State} (h : s.fault = none) : exec i s = (action i s).finish := by
  by_cases hd : ∃ f, i = .dbgRead f
  · obtain ⟨f, rfl⟩ := hd
    exact exec_dbgRead f s
  · by_cases hs : i = .save
    · subst hs; exact exec_save s
    · rw [exec_eq (fun f e => hd ⟨f, e⟩) hs, h]; rfl

/-- A next state is what the instruction's action left, with its result. -/
theorem exec_eq_next {i : Instr} {s t : State} (h : exec i s = .next t) :
    ∃ v u, action i s = .ok v u ∧ t = { u with result := v } := by
  by_cases hd : ∃ f, i = .dbgRead f
  · obtain ⟨f, rfl⟩ := hd
    rw [exec_dbgRead] at h
    exact Res.finish_eq_next.mp h
  · by_cases hs : i = .save
    · subst hs; rw [exec_save] at h; exact Res.finish_eq_next.mp h
    · rw [exec_eq (fun f e => hd ⟨f, e⟩) hs] at h
      split at h
      · cases h
      · exact Res.finish_eq_next.mp h

theorem Sound.with {α : Type} {s : State} {x : Res α} (h : Sound s x) (result : α → Result) : Sound s (x.with result) :=
  Sound.bind h fun _ t _ => Frame.refl t

theorem StepSound.with {α : Type} {s : State} {x : Res α} (h : StepSound s x) (result : α → Result) :
    StepSound s (x.with result) :=
  StepSound.bind h fun _ t _ => (Frame.refl t).toStep

theorem StepSound.afterReset {s : State} {x : State → Res Result} (h : StepSound s (x s)) :
    StepSound s (Machine.afterReset x s) := by
  unfold Machine.afterReset
  split
  · exact h
  · trivial

theorem Sound.onChannel {s : State} {c : BitVec 3} {x : Fin 7 → Res Result} (h : ∀ c, Sound s (x c)) :
    Sound s (Machine.onChannel c x) := by
  unfold Machine.onChannel
  split
  · exact h _
  · exact Sound.refused (by decide)

/-- Whether an instruction is one of the host's that writes state which no engine step reaches. -/
def isHostWrite (i : Instr) : Bool :=
  match i with
  | .reset _ => true
  | .signalInt _ _ => true
  | .aggLine _ _ => true
  | .dbgWrite _ _ => true
  | .restore _ => true
  | _ => false

/-- Whether an instruction is a step of the engine or a part of one that moves PC. -/
def isEngineStep (i : Instr) : Bool :=
  match i with
  | .run _ => true
  | .step => true
  | .instr _ => true
  | .intEntry _ => true
  | .cpuWord _ => true
  | _ => false

/-- Every other instruction keeps the frame of a primitive. -/
theorem Sound.action {i : Instr} (hw : isHostWrite i = false) (he : isEngineStep i = false) (s : State) :
    Sound s (action i s) := by
  cases i with
  | reset | signalInt | aggLine | dbgWrite | restore => cases hw
  | run | step | instr | intEntry | cpuWord => cases he
  | dbgRead f =>
    dsimp only [Machine.action]
    split
    · refine Sound.with ?_ _
      rename_i d _
      cases d <;> simp only [readField] <;> first | exact Frame.refl s | (split <;> first | exact Frame.refl s | exact Sound.refused (by decide))
    · exact Sound.refused (by decide)
  | save => exact Sound.afterReset (α := Result) (x := fun s => .ok (.snapshot (takeSnapshot s)) s) (Frame.refl s)
  | idle => exact Frame.refl s
  | acRead k => exact (Sound.readAc _ s).with _
  | acWrite k v => exact Frame.writeAc _ _ s
  | pcWrite v => exact Frame.writeNpc v s
  | frRead => exact Frame.refl s
  | frWrite v => exact Frame.setFlags v s
  | spRead => exact Sound.afterReset (α := Result) (x := fun s => .ok (.word (s.sp.setWidth 16)) s) (Frame.refl s)
  | spWrite v => exact Frame.writeSp v s
  | stackPush v => exact Sound.afterReset (α := Result) (x := fun s => .ok .none (Machine.push v s)) (Frame.push v s)
  | stackPop => exact Sound.afterReset (α := Result) (x := fun s => (Machine.pop s).with Result.word) ((Sound.pop s).with _)
  | intReturn =>
    exact Sound.afterReset (α := Result) (x := fun s => (Machine.returnFromInterrupt s).with fun _ => Result.none)
      ((Sound.returnFromInterrupt s).with _)
  | jcRead j => exact (Sound.readJump j s).with _
  | memRead16 a => exact (Sound.readWord a s).with _
  | memWrite16 a v => exact (Sound.writeWord a v s).with _
  | memRead8 ba => exact (Sound.readByte ba s).with _
  | memWrite8 ba b => exact (Sound.writeByte ba b s).with _
  | fetch a => exact (Sound.fetchWord a s).with _
  | periphRead off => exact (Sound.readPeriph off s).with _
  | periphWrite off v => exact (Sound.writePeriph off v s).with _
  | dmaWriteParam c slot v => exact Sound.onChannel fun c => Frame.writeParam c _ _ s
  | dmaReadParam c slot => exact Sound.onChannel fun c => (Sound.readParam c _ s).with _
  | dmaTrigger c => exact Sound.onChannel fun c => (Sound.triggerChannel c s).with _
  | csRecompute => exact Frame.csRecompute s
  | aggVectorFetch => exact Frame.aggVector s
  | waitEnter => exact Frame.enterWait s

/-- Every instruction but the host's writes keeps the frame of a step. -/
theorem StepSound.action {i : Instr} (hw : isHostWrite i = false) (s : State) : StepSound s (action i s) := by
  cases he : isEngineStep i with
  | false => exact (Sound.action hw he s).toStep
  | true =>
    cases i with
    | run b =>
      exact StepSound.afterReset (x := fun s => (Machine.runLoop b.toInt.toNat b.toInt s).with Result.budget)
        ((StepSound.runLoop _ _ s).with _)
    | step => exact StepSound.afterReset (x := fun s => (Machine.engineStep s).with Result.cycles) ((StepSound.engineStep s).with _)
    | instr w => exact StepSound.afterReset (x := fun s => (Machine.runInstr w s).with Result.cycles) ((StepSound.runInstr w s).with _)
    | cpuWord w =>
      exact StepSound.afterReset (x := fun s => (Machine.runCpuWord w s).with Result.cycles) ((StepSound.runCpuWord w s).with _)
    | intEntry l =>
      refine StepSound.afterReset (x := fun s => match levelOf l with
        | some l => .ok .none (takeInterrupt l s)
        | none => .refused .refusedOperand) ?_
      split
      · exact StepFrame.takeInterrupt _ s
      · trivial
    | _ => cases he

/-- What a write of the host keeps. -/
theorem hostWrite_keeps {i : Instr} {s t : State} {v : Result} (hw : isHostWrite i = true) (h : action i s = .ok v t) :
    t.cfg = s.cfg ∧ (Inv s → Inv t) := by
  cases i with
  | reset => cases h; exact ⟨rfl, Inv.resetWith _⟩
  | signalInt =>
    simp only [action] at h
    split at h
    · cases h
    · split at h
      · cases h
      · cases h; exact ⟨rfl, Inv.signalLine _ _ _⟩
  | aggLine =>
    simp only [action] at h
    split at h
    · cases h
    · cases h; exact ⟨rfl, Inv.driveSource _ _ _⟩
  | dbgWrite =>
    simp only [action] at h
    split at h
    · cases h; exact ⟨writeField_cfg _ _ _, Inv.writeField _ _⟩
    · cases h
  | restore =>
    simp only [action] at h
    split at h
    · cases h; exact ⟨loadSnapshot_cfg _ _, fun hi => (Frame.setFlags _ _).inv (Inv.loadSnapshot ‹_› hi)⟩
    · cases h
  | _ => cases hw

/-! ## The primitives of a program (spec/40_engine.md R139) -/

theorem byteAddr_lowBit (a l : Word) : byteAddr a (l.getLsbD 0) = BitVec.ofNat 17 (2 * a.toNat + l.toNat % 2) := by
  unfold byteAddr
  congr 2
  rw [show l.getLsbD 0 = l.toNat.testBit 0 from rfl, Nat.testBit_zero]
  rcases Nat.mod_two_eq_zero_or_one l.toNat with h | h <;> simp [h]

theorem lowBits_eq (n : Nat) (sc : Scope) (e : Expr) : lowBits n sc e = BitVec.ofNat n (evalExpr sc e).toNat :=
  (BitVec.ofNat_toNat n _).symm

/-- Every primitive of a program is the operation of its name, and a FETCH counts the instruction's words (R137, R139). -/
theorem performInstr_eq (p : IsaPrim) (sc : Scope) {s : State} (h : s.resetDone = true) :
    performInstr p sc s =
      (action (primitiveInstr p sc s) (lengthCounted p s)).bind fun r t => .ok (resultWord r) t := by
  have word : ∀ x : Res Word, x = (x.with Result.word).bind fun r t => .ok (resultWord r) t := by
    intro x; cases x <;> rfl
  cases p <;> simp only [performInstr, performIsa, primitiveInstr, lengthCounted, action, afterReset_of _ h, lowBits_eq,
    scopeByteAddr, byteAddr_lowBit]
  case fetch k =>
    rw [← word, Nat.add_comm 1 k]; rfl
  all_goals first | exact word _ | (simp only [Res.with, Res.bind_assoc]; rfl)

/-- A call of a program as the operation of the primitive's name: it goes on in the state the operation leaves (R139). -/
theorem runProg_call (p : IsaPrim) (k : Prog IsaPrim Nat) (sc : Scope) {s : State} (h : s.resetDone = true) :
    runProg performInstr (.call p k) sc s = (action (primitiveInstr p sc s) (lengthCounted p s)).bind fun r t =>
      runProg performInstr k { sc with vals := sc.vals ++ [resultWord r] } t := by
  simp only [runProg, performInstr_eq p sc h, Res.bind_assoc, Res.bind_ok]

/-- What goes on from an operation's answer, told by the operation's outcome: it sees the result, and the state left with the
result that was there before. -/
theorem action_bind {β : Type} {i : Instr} {s : State} (h : s.fault = none) (hw : isHostWrite i = false)
    (he : isEngineStep i = false) (f : Result → State → Res β) :
    (∀ t, exec i s = .next t → (action i s).bind f = f t.result { t with result := s.result }) ∧
    (∀ r, exec i s = .fault r → (action i s).bind f = .fault r) ∧
    (∀ r, exec i s = .refused r → (action i s).bind f = .refused r) := by
  rw [exec_unfaulted i h]
  have hf := Sound.action hw he s
  generalize action i s = x at hf ⊢
  cases x with
  | ok v u =>
    have hu : u.result = s.result := Frame.result hf
    refine ⟨fun t ht => ?_, fun r hr => ?_, fun r hr => ?_⟩
    · simp only [Res.finish, Host.Outcome.next.injEq] at ht
      subst ht
      simp only [Res.bind_ok, ← hu]
    · simp [Res.finish] at hr
    · simp [Res.finish] at hr
  | fault r =>
    refine ⟨fun t ht => ?_, fun q hq => ?_, fun q hq => ?_⟩
    · simp [Res.finish] at ht
    · simp only [Res.finish, Host.Outcome.fault.injEq] at hq
      subst hq; rfl
    · simp [Res.finish] at hq
  | refused r =>
    refine ⟨fun t ht => ?_, fun q hq => ?_, fun q hq => ?_⟩
    · simp [Res.finish] at ht
    · simp [Res.finish] at hq
    · simp only [Res.finish, Host.Outcome.refused.injEq] at hq
      subst hq; rfl

theorem primitiveInstr_plain (p : IsaPrim) (sc : Scope) (s : State) :
    isHostWrite (primitiveInstr p sc s) = false ∧ isEngineStep (primitiveInstr p sc s) = false := by
  cases p <;> exact ⟨rfl, rfl⟩

end Sys2Proof.Machine
end

