-- ==== Sys2Proof/Laws/Bank.lean ====
section
/-! SUPPORT. The bank: which register an offset names, that the cells of the registers do not touch each other, and that the
calls of actions are operations. -/

namespace Sys2Proof.Machine

/-! ## Lookup -/

/-- The first EXTRA_REGS entry at an offset is the one found (spec/42_peripheral_bank.md R217). -/
theorem findExtra_eq {off : Word} {n k : Nat} {es : List ExtraReg} {e : ExtraReg} (hk : es[k]? = some e) (he : e.off = off)
    (hm : ∀ j e', j < k → es[j]? = some e' → e'.off ≠ off) : findExtra off n es = some (n + k, e) := by
  induction es generalizing n k with
  | nil => simp at hk
  | cons x xs ih =>
    cases k with
    | zero => simp at hk; subst hk; simp [findExtra, he]
    | succ k =>
      simp only [findExtra, if_neg (hm 0 x (by omega) rfl)]
      rw [ih (n := n + 1) (k := k) (by simpa using hk) (fun j e' hj h => hm (j + 1) e' (by omega) (by simpa using h))]
      congr 2
      omega

theorem lookup_extra {cfg : Config} {off : Word} {k : Nat} {e : ExtraReg} (hk : cfg.extraRegs[k]? = some e)
    (he : e.off = off) (hm : ∀ j e', j < k → cfg.extraRegs[j]? = some e' → e'.off ≠ off) :
    lookup cfg off = .extra k e := by
  unfold lookup
  rw [findExtra_eq hk he hm]
  simp

/-- A base register that an offset names stands in the base table, at that offset (spec/30_encoding.md R106). -/
theorem lookup_base {cfg : Config} {off : Word} {r : Reg} (h : lookup cfg off = .base r) :
    r ∈ baseRegs cfg ∧ regOffset cfg r = off := by
  unfold lookup at h
  split at h
  · cases h
  · split at h
    · cases h
      have := List.find?_some ‹List.find? _ _ = some _›
      exact ⟨List.mem_of_find?_eq_some ‹_›, by simpa using this⟩
    · cases h

theorem mem_baseRegs {cfg : Config} {r : Reg} :
    r ∈ baseRegs cfg ↔ (∀ k, r = .rsv k → k < cfg.offs.rsv.length) ∧ ∀ k, r ≠ .extra k := by
  unfold baseRegs
  simp only [List.mem_append, List.mem_map, List.mem_range]
  constructor
  · rintro ((h | h) | ⟨k, hk, rfl⟩)
    · exact ⟨fun k e => by subst e; simp [namedRegs] at h, fun k e => by subst e; simp [namedRegs] at h⟩
    · exact ⟨fun k e => by subst e; simp [dmaParamRegs] at h, fun k e => by subst e; simp [dmaParamRegs] at h⟩
    · exact ⟨fun j e => by cases e; exact hk, fun j e => by cases e⟩
  · rintro ⟨h1, h2⟩
    cases r with
    | rsv k => exact .inr ⟨k, h1 k rfl, rfl⟩
    | extra k => exact absurd rfl (h2 k)
    | dmaP c sl => exact .inl (.inr (by clear h1 h2; cases sl <;> (revert c; decide)))
    | _ => exact .inl (.inl (by decide))

/-- `OFF(r) = off` in the terms of the base table. -/
theorem offsetIs_iff {cfg : Config} {r : Reg} {off : Word} :
    OffsetIs cfg r off ↔ r ∈ baseRegs cfg ∧ regOffset cfg r = off := by
  rw [mem_baseRegs]
  cases r with
  | rsv k =>
    simp only [OffsetIs, regOffset, List.getD_eq_getElem?_getD, List.getElem?_eq_some_iff]
    constructor
    · rintro ⟨h, e⟩
      exact ⟨⟨fun j hj => by cases hj; exact h, nofun⟩, by simp [h, e]⟩
    · rintro ⟨⟨h, -⟩, e⟩
      exact ⟨h k rfl, by simpa [h k rfl] using e⟩
  | dmaP c sl => cases sl <;> simp [OffsetIs, regOffset]
  | extra k => simp [OffsetIs]
  | _ => simp [OffsetIs, regOffset]

/-- No entry of EXTRA_REGS has the offset. -/
theorem findExtra_none {off : Word} {n : Nat} {es : List ExtraReg} :
    findExtra off n es = none ↔ ∀ e ∈ es, e.off ≠ off := by
  induction es generalizing n with
  | nil => simp [findExtra]
  | cons x xs ih =>
    simp only [findExtra, List.mem_cons, forall_eq_or_imp]
    split <;> simp_all

theorem allDistinct_iff (l : List Word) : allDistinct l = true ↔ l.Nodup := by
  induction l with
  | nil => simp [allDistinct]
  | cons a l ih => simp [allDistinct, ih, List.nodup_cons]
/-! ## Cells -/

@[simp] theorem dma_get_set (dma : Vector Channel 7) (c d : Fin 7) (ch : Channel) :
    (dma.set c.val ch c.isLt).get d = if d = c then ch else dma.get d := by
  simp only [Vector.get_eq_getElem, Vector.getElem_set, Fin.ext_iff, eq_comm]

/-- A base register is a computed one by its kind alone. -/
theorem isComputed_base {cfg : Config} {r : Reg} (h : ∀ k, r ≠ .extra k) : isComputed cfg r = (baseKind r == .computed) := by
  cases r with
  | extra k => exact absurd rfl (h k)
  | _ => rfl

/-- An EXTRA_REGS register is a computed one by its entry's kind. -/
theorem isComputed_extra {cfg : Config} {k : Nat} {e : ExtraReg} (h : cfg.extraRegs[k]? = some e) :
    isComputed cfg (.extra k) = (e.kind == .computed) := by
  simp [isComputed, h]

/-- Setting the cell of an EXTRA_REGS entry that has one. -/
theorem setReg_extra {k : Nat} {e : ExtraReg} {s : State} (h : s.cfg.extraRegs[k]? = some e) (hk : e.kind ≠ .computed)
    (c : Cell) : setReg (.extra k) c s = { s with bank := { s.bank with extra := s.bank.extra.set k c } } := by
  have : isComputed s.cfg (.extra k) = false := by rw [isComputed_extra h]; simpa using hk
  simp [setReg, this]

/-- A register that has a cell reads as what was put there. -/
theorem getReg_setReg_cell {r : Reg} {c : Cell} {s : State} (hk : isComputed s.cfg r = false)
    (hr : ∀ k, r = .rsv k → k < s.bank.rsv.length) (he : ∀ k, r = .extra k → k < s.bank.extra.length) :
    getReg r (setReg r c s) = c := by
  cases r with
  | rsv k => simp [getReg, setReg, hr k rfl]
  | extra k => simp [getReg, setReg, he k rfl, hk]
  | dmaP c sl =>
    cases sl <;> simp [getReg, setReg, writeParam, setChannel, paramCell, dma_get_set]
  | rndStatus | dmaStatus | irqStatus => cases hk
  | _ => rfl

/-- And every other register as before. -/
theorem getReg_setReg_other {r q : Reg} {c : Cell} {s : State} (h : q ≠ r) : getReg q (setReg r c s) = getReg q s := by
  cases r with
  | rsv k =>
    cases q with
    | rsv j =>
      have : k ≠ j := fun e => h (by rw [e])
      simp [getReg, setReg, List.getD_eq_getElem?_getD, List.getElem?_set_ne this]
    | _ => rfl
  | extra k =>
    cases q with
    | extra j =>
      have : k ≠ j := fun e => h (by rw [e])
      simp only [getReg, setReg, List.getD_eq_getElem?_getD]
      split
      · rfl
      · rw [List.getElem?_set_ne this]
    | _ => rfl
  | dmaP d sl =>
    cases q with
    | dmaP e sk =>
      by_cases hd : e = d
      · subst hd
        cases sl <;> cases sk <;> first
          | exact absurd rfl h
          | simp [getReg, setReg, writeParam, setChannel, paramCell, dma_get_set]
      · cases sl <;> cases sk <;> simp [getReg, setReg, writeParam, setChannel, paramCell, dma_get_set, hd]
    | _ => cases sl <;> rfl
  | _ => cases q <;> first | rfl | exact absurd rfl h

/-- What a register's write leaves of its cell: the actions of a trigger touch no cell. -/
theorem getReg_csRecompute (q : Reg) (s : State) : getReg q (csRecompute s) = getReg q s := by
  unfold csRecompute
  cases s.bank.csCtrl <;> cases q <;> rfl

/-! ## Reads and writes through the bank -/

theorem readPeriph_base {off : Word} {r : Reg} {s : State} (h : lookup s.cfg off = .base r) :
    readPeriph off s = readBase r off s := by
  simp [readPeriph, h]

theorem writePeriph_base {off v : Word} {r : Reg} {s : State} (h : lookup s.cfg off = .base r) :
    writePeriph off v s = writeBase r v s := by
  simp [writePeriph, h]

theorem readPeriph_extra {off : Word} {k : Nat} {e : ExtraReg} {s : State} (h : lookup s.cfg off = .extra k e) :
    readPeriph off s = readExtra k e off s := by
  simp [readPeriph, h]

theorem writePeriph_extra {off v : Word} {k : Nat} {e : ExtraReg} {s : State} (h : lookup s.cfg off = .extra k e) :
    writePeriph off v s = writeExtra k e off v s := by
  simp [writePeriph, h]

/-- A storage or trigger entry's write stores and then acts (R205, R217). -/
theorem writeExtraOver_stores {wr : Word → Word → State → Res Unit} {k : Nat} {e : ExtraReg} (off v : Word) (s : State)
    (hk : e.kind ≠ .computed) : writeExtraOver wr k e off v s = runWrite wr e off v (setReg (.extra k) (.val v) s) := by
  unfold writeExtraOver
  cases h : e.kind with
  | computed => exact absurd h hk
  | _ => rfl

/-- A read function sees the cell of its entry: a computed one has none (R217, spec/10_state.md R42). -/
theorem readExtraOver_function {rd : Word → State → Res Word} {k : Nat} {e : ExtraReg} (off : Word) {s : State}
    (hb : BankShaped s) (he : s.cfg.extraRegs[k]? = some e) (hk : e.kind ≠ .storage) :
    readExtraOver rd k e off s = runRead rd (getReg (.extra k) s) e off s := by
  unfold readExtraOver
  cases h : e.kind with
  | storage => exact absurd h hk
  | trigger => rfl
  | computed =>
    rw [hb.computed k (List.getElem?_eq_some_iff.mp he).1 (by rw [isComputed_extra he, h]; rfl)]

theorem exec_periphRead_base {off : Word} {r : Reg} {s : State} (h : s.fault = none) (hl : lookup s.cfg off = .base r) :
    exec (.periphRead off) s = ((readBase r off s).with Result.word).finish := by
  simp only [exec_unfaulted _ h, action, readPeriph_base hl]

theorem exec_periphWrite_base {off v : Word} {r : Reg} {s : State} (h : s.fault = none)
    (hl : lookup s.cfg off = .base r) :
    exec (.periphWrite off v) s = ((writeBase r v s).with fun _ => Result.none).finish := by
  simp only [exec_unfaulted _ h, action, writePeriph_base hl]

/-- However deep accesses may nest, a read is one word read whose actions read over something. -/
theorem readNested_eq (n : Nat) (rd : Word → State → Res Word) : ∃ rd', readNested n rd = readOver rd' := by
  induction n generalizing rd with
  | zero => exact ⟨rd, rfl⟩
  | succ n ih => exact ih (readNested n rd)

/-- The same of a write. -/
theorem writeNested_eq (n : Nat) (wr : Word → Word → State → Res Unit) : ∃ wr', writeNested n wr = writeOver wr' := by
  induction n generalizing wr with
  | zero => exact ⟨wr, rfl⟩
  | succ n ih => exact ih (writeNested n wr)

/-- An action's read of the window word of an entry is that entry's read. -/
theorem actionRead_extra {a off : Word} {k : Nat} {e : ExtraReg} {s : State} (ha : decodeAddr s.cfg a = .window off)
    (hl : lookup s.cfg off = .extra k e) : ∃ rd, actionRead a s = readExtraOver rd k e off s := by
  obtain ⟨rd, h⟩ := readNested_eq nestingLevels fun _ _ => .refused .actionsWithoutEnd
  exact ⟨rd, by simp [actionRead, h, readOver, ha, hl]⟩

/-- An action's write to the window word of an entry is that entry's write. -/
theorem actionWrite_extra {a off v : Word} {k : Nat} {e : ExtraReg} {s : State} (ha : decodeAddr s.cfg a = .window off)
    (hl : lookup s.cfg off = .extra k e) : ∃ wr, actionWrite a v s = writeExtraOver wr k e off v s := by
  obtain ⟨wr, h⟩ := writeNested_eq nestingLevels fun _ _ _ => .refused .actionsWithoutEnd
  exact ⟨wr, by simp [actionWrite, h, writeOver, ha, hl]⟩

/-- An address of the window decodes to its offset (spec/20_memory.md R73). -/
theorem decodeAddr_window {cfg : Config} {off : Word} (h : off.toNat < cfg.periphSize)
    (hw : cfg.periphBase.toNat + cfg.periphSize ≤ 65536) : decodeAddr cfg (cfg.periphBase + off) = .window off := by
  have e : (cfg.periphBase + off).toNat = cfg.periphBase.toNat + off.toNat := by
    rw [BitVec.toNat_add, Nat.mod_eq_of_lt (by omega)]
  unfold decodeAddr
  rw [if_pos (by omega)]
  congr 1
  bv_omega

/-- The read of a register that has a cell and no computed value is the read of its cell (R201, R205). -/
theorem readBase_cell {r : Reg} {off : Word} {s : State} (hk : baseKind r ≠ .computed) (ha : r ≠ .portA) (hb : r ≠ .portB)
    (ho : regOffset s.cfg r = off) : readBase r off s = readCell off (getReg r s) s := by
  cases r with
  | rndStatus | dmaStatus | irqStatus => exact absurd rfl hk
  | portA => exact absurd rfl ha
  | portB => exact absurd rfl hb
  | dmaP c sl =>
    subst ho
    show readParam c sl s = readCell _ (paramCell s c sl) s
    unfold readParam readCell
    cases paramCell s c sl <;> rfl
  | _ => rfl

/-! ## The calls of actions (R217) -/

/-- A read that reaches no entry does not depend on what actions read over. -/
theorem actionRead_plain {a : Word} {s : State} (h : isEntryAddr s.cfg a = false) : actionRead a s = readWord a s := by
  obtain ⟨rd, e⟩ := readNested_eq nestingLevels fun _ _ => .refused .actionsWithoutEnd
  unfold isEntryAddr at h
  simp only [actionRead, e, readOver, readWord, readPeriph]
  split <;> rename_i hd <;> simp only [hd] at h ⊢
  split <;> rename_i hl <;> simp_all

/-- The same of a write. -/
theorem actionWrite_plain {a v : Word} {s : State} (h : isEntryAddr s.cfg a = false) :
    actionWrite a v s = writeWord a v s := by
  obtain ⟨wr, e⟩ := writeNested_eq nestingLevels fun _ _ _ => .refused .actionsWithoutEnd
  unfold isEntryAddr at h
  simp only [actionWrite, e, writeOver, writeWord, writePeriph]
  split <;> rename_i hd <;> simp only [hd] at h ⊢
  split <;> rename_i hl <;> simp_all

theorem plainAccess_some {cfg : Config} {a : Word} {i j : Instr} (h : plainAccess cfg a i = some j) :
    isEntryAddr cfg a = false ∧ i = j := by
  unfold plainAccess at h
  split at h <;> simp_all

theorem registerAccess_some {cfg : Config} {r : Reg} {i : Word → Instr} {j : Instr} (h : registerAccess cfg r i = some j) :
    lookup cfg (regOffset cfg r) = .base r ∧ i (regOffset cfg r) = j := by
  unfold registerAccess at h
  split at h <;> simp_all

/-- A register of the base table is none that EXTRA_REGS adds. -/
theorem lookup_notExtra {cfg : Config} {off : Word} {r : Reg} (h : lookup cfg off = .base r) : isExtra r = false := by
  have := (mem_baseRegs.mp (lookup_base h).1).2
  cases r <;> first | rfl | exact absurd rfl (this _)

theorem channelOf_ofNat (c : Fin 7) : channelOf (BitVec.ofNat 3 c.val) = some c := by revert c; decide

theorem slotOf_ite (slot : Slot) : slotOf (if slot = .p0 then 0 else 1) = slot := by cases slot <;> rfl

theorem actionInstr_plain {p : BankPrim} {sc : Scope} {s : State} {i : Instr} (h : actionInstr p sc s = some i) :
    isHostWrite i = false ∧ isEngineStep i = false := by
  unfold actionInstr at h
  split at h <;>
    first
    | (obtain ⟨-, rfl⟩ := plainAccess_some h; exact ⟨rfl, rfl⟩)
    | (obtain ⟨-, rfl⟩ := registerAccess_some h; exact ⟨rfl, rfl⟩)
    | (cases h; first | exact ⟨rfl, rfl⟩ | exact primitiveInstr_plain _ _ _)

/-- Every call of a write action that reaches no entry is the operation of its name. -/
theorem performBank_eq {p : BankPrim} {sc : Scope} {s : State} {i : Instr} (hr : s.resetDone = true)
    (h : actionInstr p sc s = some i) :
    performBank actionWrite p sc s = (action i s).bind fun r t => .ok (resultWord r) t := by
  have word : ∀ x : Res Word, x = (x.with Result.word).bind fun r t => .ok (resultWord r) t := by
    intro x; cases x <;> rfl
  cases p with
  | isa p =>
    have key := performInstr_eq p sc hr
    cases p with
    | memRead16 a =>
      obtain ⟨ha, rfl⟩ := plainAccess_some h
      exact (actionRead_plain ha).trans (word _)
    | memWrite16 a v =>
      obtain ⟨ha, rfl⟩ := plainAccess_some h
      simp only [performBank, performIsa, actionWrite_plain ha, action, Res.with, Res.bind_assoc]
      rfl
    | fetch k =>
      cases h
      simp only [performBank, performIsa, afterReset_of _ hr]
      exact word _
    | _ => cases h; exact key
  | regRead r =>
    obtain ⟨hl, rfl⟩ := registerAccess_some h
    simp only [performBank, readRegister, lookup_notExtra hl, action, readPeriph_base hl]
    exact word _
  | regWrite r v =>
    obtain ⟨hl, rfl⟩ := registerAccess_some (i := fun off => .periphWrite off (evalExpr sc v)) h
    simp only [performBank, writeRegister, lookup_notExtra hl, action, writePeriph_base hl, Res.with, Res.bind_assoc]
    rfl
  | dmaWriteParam c slot v =>
    cases h
    simp only [performBank, action, onChannel, channelOf_ofNat, slotOf_ite]
    rfl
  | dmaReadParam c slot =>
    cases h
    simp only [performBank, action, onChannel, channelOf_ofNat, slotOf_ite]
    exact word _
  | dmaTrigger c =>
    cases h
    simp only [performBank, action, onChannel, channelOf_ofNat, Res.with, Res.bind_assoc]
    rfl
  | fetch a => cases h; exact word _
  | csRecompute => cases h; rfl
  | waitEnter => cases h; rfl
  | aggVectorFetch => cases h; rfl

/-- A call of a read function is the write action's call of the same name. -/
theorem performRead_eq {p : ReadPrim} {q : BankPrim} (cell : Cell) (sc : Scope) (s : State) (h : readCall p = some q) :
    performRead actionRead cell p sc s = performBank actionWrite q sc s := by
  cases p <;> cases h <;> rfl

end Sys2Proof.Machine
end

