-- ==== Sys2Proof/Laws/Blind.lean ====
section
/-! SUPPORT. What operations cannot do: reads take draws and nothing else, and no engine operation reads the boot-mode strap. -/

namespace Sys2Proof.Machine

/-! ## Reads (spec/20_memory.md R84) -/

/-- An answer that changes nothing but the draws. -/
def ReadOnly {α : Type} (s : State) (x : Res α) : Prop := ∀ v t, x = .ok v t → t = { s with draws := t.draws }

theorem ReadOnly.ok {α : Type} (v : α) (s : State) : ReadOnly s (.ok v s) := by
  intro _ _ h; cases h; rfl

theorem ReadOnly.raise {α : Type} (r : FaultReason) (s t : State) : ReadOnly s (raise r t : Res α) := by
  intro _ _ h; cases h

theorem ReadOnly.refused {α : Type} (r : Refusal) (s : State) : ReadOnly s (.refused r : Res α) := by
  intro _ _ h; cases h

theorem ReadOnly.drawWord (s : State) : ReadOnly s (drawWord s) := by
  intro _ _ h; cases h; rfl

theorem ReadOnly.bind {α β : Type} {s : State} {x : Res α} {f : α → State → Res β} (hx : ReadOnly s x)
    (hf : ∀ v t, ReadOnly t (f v t)) : ReadOnly s (x.bind f) := by
  intro w u h
  obtain ⟨v, t, h1, h2⟩ := Res.bind_eq_ok.mp h
  have e1 := hx v t h1
  have e2 := hf v t w u h2
  rw [e2, e1]

theorem ReadOnly.with {α : Type} {s : State} {x : Res α} (hx : ReadOnly s x) (result : α → Result) :
    ReadOnly s (x.with result) :=
  hx.bind fun _ t => ReadOnly.ok _ t

theorem ReadOnly.readCell (off : Word) (c : Cell) (s : State) : ReadOnly s (readCell off c s) := by
  unfold Machine.readCell
  split
  · exact ReadOnly.ok _ s
  · exact ReadOnly.raise _ s s

theorem ReadOnly.readParam (c : Fin 7) (slot : Slot) (s : State) : ReadOnly s (readParam c slot s) := by
  unfold Machine.readParam
  split
  · exact ReadOnly.ok _ s
  · exact ReadOnly.raise _ s s

theorem ReadOnly.readBase (r : Reg) (off : Word) (s : State) : ReadOnly s (readBase r off s) := by
  cases r with
  | rndStatus =>
    unfold Machine.readBase
    dsimp only
    split
    · exact ReadOnly.drawWord s
    · exact ReadOnly.ok _ s
  | dmaP c slot => exact ReadOnly.readParam c slot s
  | dmaStatus | irqStatus => exact ReadOnly.ok _ s
  | portA | portB => exact ReadOnly.drawWord s
  | irqEnable => exact ReadOnly.readCell off (getReg .irqEnable s) s
  | _ => exact ReadOnly.readCell off _ s

theorem ReadOnly.runProg {π ω : Type} {perform : π → Scope → State → Res Word}
    (hp : ∀ p sc s, ReadOnly s (perform p sc s)) (p : Prog π ω) (sc : Scope) (s : State) :
    ReadOnly s (runProg perform p sc s) := by
  induction p generalizing sc s with
  | done o => exact ReadOnly.ok _ s
  | call q k ih => exact (hp q sc s).bind fun _ t => ih _ t
  | cond c a b iha ihb =>
    unfold Machine.runProg
    split
    · exact ihb sc s
    · exact iha sc s

theorem ReadOnly.readExt (a : Word) (s : State) : ReadOnly s (readExt a s) := by
  unfold Machine.readExt
  split
  · exact ReadOnly.ok _ s
  · exact ReadOnly.ok _ s
  · exact ReadOnly.drawWord s

theorem ReadOnly.readByte (ba : BitVec 17) (s : State) : ReadOnly s (readByte ba s) := by
  unfold Machine.readByte
  split
  · exact ReadOnly.raise _ s s
  · exact (ReadOnly.readExt _ s).bind fun _ t => ReadOnly.ok _ t

theorem ReadOnly.fetchWord (a : Word) (s : State) : ReadOnly s (fetchWord a s) := by
  unfold Machine.fetchWord
  split
  · exact ReadOnly.raise _ s s
  · exact ReadOnly.readExt a s

theorem ReadOnly.readAc (i : Fin 4) (s : State) : ReadOnly s (readAc i s) := by
  unfold Machine.readAc
  split
  · exact ReadOnly.ok _ s
  · exact ReadOnly.raise _ s s

theorem ReadOnly.readField (f : DbgField) (s : State) : ReadOnly s (readField f s) := by
  cases f <;> unfold Machine.readField <;> dsimp only <;>
    first | exact ReadOnly.ok _ s | (split <;> first | exact ReadOnly.ok _ s | exact ReadOnly.refused _ s)

theorem ReadOnly.readJump (j : BitVec 2) (s : State) : ReadOnly s (readJump j s) := by
  unfold Machine.readJump
  split
  · exact ReadOnly.refused _ s
  · intro _ _ h; cases h; rfl

theorem ReadOnly.aggVector (s : State) : ReadOnly s (.ok (aggVector s).1 (aggVector s).2) := by
  intro _ _ h
  cases h
  unfold Machine.aggVector
  split <;> rfl

theorem ReadOnly.afterReset {α : Type} {s : State} {x : State → Res α} (h : ReadOnly s (x s)) :
    ReadOnly s (Machine.afterReset x s) := by
  unfold Machine.afterReset
  split
  · exact h
  · exact ReadOnly.refused _ s

theorem ReadOnly.readRegister {rd : Word → State → Res Word} (hr : ∀ a s, ReadOnly s (rd a s)) (r : Reg) (s : State) :
    ReadOnly s (readRegister rd r s) := by
  unfold Machine.readRegister
  split
  · exact hr _ s
  · exact ReadOnly.readBase _ _ s

theorem ReadOnly.performRead {rd : Word → State → Res Word} (hr : ∀ a s, ReadOnly s (rd a s)) (c : Cell) (p : ReadPrim)
    (sc : Scope) (s : State) : ReadOnly s (performRead rd c p sc s) := by
  cases p with
  | stored => exact ReadOnly.readCell _ _ s
  | regRead r => exact ReadOnly.readRegister hr r s
  | draw => exact ReadOnly.drawWord s
  | acRead i => exact ReadOnly.readAc _ s
  | frRead => exact ReadOnly.ok _ s
  | spRead => exact ReadOnly.afterReset (ReadOnly.ok _ s)
  | jcRead j => exact (ReadOnly.readJump _ s).bind fun _ t => ReadOnly.ok _ t
  | memRead16 a => exact hr _ s
  | memRead8 a lane => exact (ReadOnly.readByte _ s).bind fun _ t => ReadOnly.ok _ t
  | fetch a => exact ReadOnly.fetchWord _ s
  | dmaReadParam c slot => exact ReadOnly.readParam c slot s
  | aggVectorFetch => exact ReadOnly.aggVector s

theorem ReadOnly.readExtraOver {rd : Word → State → Res Word} (hr : ∀ a s, ReadOnly s (rd a s)) (k : Nat) (e : ExtraReg)
    (off : Word) (s : State) : ReadOnly s (readExtraOver rd k e off s) := by
  have run : ∀ c, ReadOnly s (Machine.runRead rd c e off s) := fun c =>
    (ReadOnly.runProg (ReadOnly.performRead hr c) _ _ s).bind fun _ t => ReadOnly.ok _ t
  unfold Machine.readExtraOver
  split
  · exact ReadOnly.readCell _ _ s
  · exact run _
  · exact run _

theorem ReadOnly.readNested (n : Nat) {rd : Word → State → Res Word} (hr : ∀ a s, ReadOnly s (rd a s)) (a : Word) (s : State) :
    ReadOnly s (readNested n rd a s) := by
  induction n generalizing rd a s with
  | zero =>
    show ReadOnly s (readOver rd a s)
    unfold readOver
    split
    · exact ReadOnly.readExt a s
    · split
      · exact ReadOnly.ok _ s
      · exact ReadOnly.readBase _ _ s
      · exact ReadOnly.readExtraOver hr _ _ _ s
  | succ n ih => exact ih (fun a s => ih hr a s) a s

theorem ReadOnly.readExtra (k : Nat) (e : ExtraReg) (off : Word) (s : State) : ReadOnly s (readExtra k e off s) :=
  ReadOnly.readExtraOver (ReadOnly.readNested _ fun _ s => ReadOnly.refused _ s) k e off s

theorem ReadOnly.readPeriph (off : Word) (s : State) : ReadOnly s (readPeriph off s) := by
  unfold Machine.readPeriph
  split
  · exact ReadOnly.ok _ s
  · exact ReadOnly.readBase _ off s
  · exact ReadOnly.readExtra _ _ off s

theorem ReadOnly.readWord (a : Word) (s : State) : ReadOnly s (readWord a s) := by
  unfold Machine.readWord
  split
  · exact ReadOnly.readPeriph _ s
  · exact ReadOnly.readExt a s

/-! ## The boot-mode strap (spec/70_reset_and_hazards.md R321) -/

/-- The state with another strap. -/
def withStrap (m : BitVec 2) (s : State) : State := { s with bootMode := m }

/-- An operation that answers the same, whatever the strap is. -/
def Blind {α : Type} (f : State → Res α) : Prop :=
  ∀ (m : BitVec 2) (s t : State) (v : α), f s = .ok v t → f (withStrap m s) = .ok v (withStrap m t)

theorem Blind.pure {α : Type} {f : State → α} {g : State → State} (hf : ∀ m s, f (withStrap m s) = f s)
    (hg : ∀ m s, g (withStrap m s) = withStrap m (g s)) : Blind fun s => .ok (f s) (g s) := by
  intro m s t v h
  cases h
  dsimp only
  rw [hf, hg]

theorem Blind.bind {α β : Type} {f : State → Res α} {g : α → State → Res β} (hf : Blind f) (hg : ∀ v, Blind (g v)) :
    Blind fun s => (f s).bind g := by
  intro m s t v h
  obtain ⟨w, u, h1, h2⟩ := Res.bind_eq_ok.mp h
  dsimp only
  rw [hf m s u w h1]
  exact hg w m u t v h2

theorem Blind.raise {α : Type} (r : State → FaultReason) : Blind fun s => (raise (r s) s : Res α) := by
  intro m s t v h; cases h

theorem Blind.refused {α : Type} (r : Refusal) : Blind fun _ => (.refused r : Res α) := by
  intro m s t v h; cases h

/-- An operation that chooses by what the strap does not touch. -/
theorem Blind.choose {α γ : Type} {p : State → γ} {f : γ → State → Res α} (hp : ∀ m s, p (withStrap m s) = p s)
    (hf : ∀ c, Blind (f c)) : Blind fun s => f (p s) s := by
  intro m s t v h
  dsimp only
  rw [hp]
  exact hf _ m s t v h

theorem Blind.drawWord : Blind drawWord := Blind.pure (fun _ _ => rfl) fun _ _ => rfl

theorem Blind.readAc (i : Fin 4) : Blind (readAc i) :=
  Blind.choose (p := fun s => s.ac.get i)
    (f := fun c s => match c with
      | .val w => .ok w s
      | .undef => Machine.raise (.readUndefined .ac (BitVec.ofNat 16 i.val)) s)
    (fun _ _ => rfl) fun c => match c with
      | .val w => Blind.pure (f := fun _ => w) (g := fun s => s) (fun _ _ => rfl) fun _ _ => rfl
      | .undef => Blind.raise fun _ => .readUndefined .ac (BitVec.ofNat 16 i.val)

theorem push_withStrap (v : Word) (m : BitVec 2) (s : State) : push v (withStrap m s) = withStrap m (push v s) := by
  rw [push_eq, push_eq]; rfl

theorem popPointer_withStrap (m : BitVec 2) (s : State) : popPointer (withStrap m s) = withStrap m (popPointer s) := by
  rw [popPointer_eq, popPointer_eq]; rfl

theorem Blind.pop : Blind pop := by
  intro m s t v h
  unfold Machine.pop at h ⊢
  dsimp only at h ⊢
  rw [popPointer_withStrap]
  cases hc : stkSlot (popPointer s) (popPointer s).sp with
  | undef => rw [hc] at h; cases h
  | val w =>
    rw [hc] at h
    cases h
    have : stkSlot (withStrap m (popPointer s)) (withStrap m (popPointer s)).sp = .val v := hc
    rw [this]

theorem Blind.returnFromInterrupt : Blind returnFromInterrupt :=
  Blind.bind Blind.pop fun _ => Blind.pure (fun _ _ => rfl) fun _ _ => rfl

theorem aggVector_withStrap (m : BitVec 2) (s : State) :
    aggVector (withStrap m s) = ((aggVector s).1, withStrap m (aggVector s).2) := by
  have h : aggSource (withStrap m s) = aggSource s := rfl
  unfold aggVector
  rw [h]
  cases aggSource s <;> rfl

theorem writeExt_withStrap (a v : Word) (m : BitVec 2) (s : State) :
    writeExt a v (withStrap m s) = withStrap m (writeExt a v s) := by
  unfold writeExt
  rw [show (withStrap m s).cfg = s.cfg from rfl]
  cases memKind s.cfg a <;> rfl

theorem Blind.readExt (a : Word) : Blind (readExt a) :=
  Blind.choose (p := fun s => memKind s.cfg a)
    (f := fun k s => match k with
      | .ram => .ok (Memory.readWord s.mem a) s
      | .rom => .ok (Memory.readWord s.cfg.memInit a) s
      | .io => Machine.drawWord s)
    (fun _ _ => rfl) fun k => match k with
      | .ram => Blind.pure (fun _ _ => rfl) fun _ _ => rfl
      | .rom => Blind.pure (fun _ _ => rfl) fun _ _ => rfl
      | .io => Blind.drawWord

theorem Blind.readByte (ba : BitVec 17) : Blind (readByte ba) :=
  Blind.choose (p := fun s => decodeAddr s.cfg (wordOfByteAddr ba))
    (f := fun d s => match d with
      | .window _ => Machine.raise (.periphByteAccess ba) s
      | .external =>
        (Machine.readExt (wordOfByteAddr ba) s).bind fun w s => .ok (if ba.getLsbD 0 then laneHi w else laneLo w) s)
    (fun _ _ => rfl) fun d => match d with
      | .window _ => Blind.raise fun _ => _
      | .external => Blind.bind (Blind.readExt _) fun _ => Blind.pure (fun _ _ => rfl) fun _ _ => rfl

theorem Blind.writeByte (ba : BitVec 17) (b : Byte) : Blind (writeByte ba b) :=
  Blind.choose (p := fun s => (decodeAddr s.cfg (wordOfByteAddr ba), memKind s.cfg (wordOfByteAddr ba)))
    (f := fun d s => match d.1 with
      | .window _ => Machine.raise (.periphByteAccess ba) s
      | .external => match d.2 with
        | .ram => .ok () { s with mem := Memory.write s.mem ba.toNat b }
        | .rom => .ok () s
        | .io => .ok () (emit (.memEventByte ba b) s))
    (fun _ _ => rfl) fun d => match d with
      | (.window _, _) => Blind.raise fun _ => _
      | (.external, .ram) => Blind.pure (fun _ _ => rfl) fun _ _ => rfl
      | (.external, .rom) => Blind.pure (fun _ _ => rfl) fun _ _ => rfl
      | (.external, .io) => Blind.pure (fun _ _ => rfl) fun _ _ => rfl

theorem Blind.fetchWord (a : Word) : Blind (fetchWord a) :=
  Blind.choose (p := fun s => decodeAddr s.cfg a)
    (f := fun d s => match d with
      | .window _ => Machine.raise (.fetchFromWindow a) s
      | .external => Machine.readExt a s)
    (fun _ _ => rfl) fun d => match d with
      | .window _ => Blind.raise fun _ => _
      | .external => Blind.readExt a

/-! ### DMA -/

theorem Blind.readParam (c : Fin 7) (slot : Slot) : Blind (readParam c slot) := by
  intro m s t v h
  obtain ⟨rfl, hv⟩ : t = s ∧ paramCell s c slot = .val v := by
    unfold Machine.readParam at h
    split at h
    · cases h; exact ⟨rfl, ‹_›⟩
    · cases h
  have : paramCell (withStrap m t) c slot = .val v := by cases slot <;> exact hv
  simp [Machine.readParam, this]

theorem writeParam_withStrap (c : Fin 7) (slot : Slot) (v : Cell) (m : BitVec 2) (s : State) :
    writeParam c slot v (withStrap m s) = withStrap m (writeParam c slot v s) := by
  cases slot <;> rfl

theorem Blind.transferWords (c : Fin 7) (n : Nat) (a : Word) : Blind (transferWords c n a) := by
  induction n generalizing a with
  | zero => exact Blind.pure (fun _ _ => rfl) fun _ _ => rfl
  | succ n ih =>
    refine Blind.bind Blind.drawWord fun w => ?_
    exact Blind.choose (p := fun s => decodeAddr s.cfg a)
      (f := fun d s => match d with
        | .window _ => Machine.raise (.dmaIntoWindow c a) s
        | .external => Machine.transferWords c n (a + 1) (writeExt a w s))
      (fun _ _ => rfl) fun d => match d with
        | .window _ => Blind.raise fun _ => _
        | .external => fun m s t v h => by
          dsimp only
          rw [writeExt_withStrap]
          exact ih (a + 1) m _ t v h

theorem Blind.dmaTransfer (c : Fin 7) : Blind (dmaTransfer c) := by
  refine Blind.bind (Blind.readParam c .p0) fun p0 => Blind.bind (Blind.readParam c .p1) fun p1 => ?_
  exact Blind.choose (p := fun s => s.cfg.dmaLayout)
    (f := fun l s =>
      let target := match l with
        | .addrLen => (p0, p1.toNat)
        | .addrLoHi => dmaXferLoHi s.cfg p0 p1
      Machine.transferWords c target.2 target.1 (emit (.nandRead c target.2) s))
    (fun _ _ => rfl) fun l m s t v h => by
      dsimp only at h ⊢
      exact Blind.transferWords c _ _ m _ t v h

theorem Blind.triggerChannel (c : Fin 7) : Blind (triggerChannel c) :=
  Blind.choose (p := fun s => (s.dma.get c).busy)
    (f := fun b s =>
      if b then .ok () (rejectTrigger c s)
      else (Machine.dmaTransfer c (beginTransfer c s)).bind fun _ s => .ok () (endTransfer c s))
    (fun _ _ => rfl) fun b => match b with
      | true => Blind.pure (fun _ _ => rfl) fun _ _ => rfl
      | false => fun m s t v h => by
        obtain ⟨w, u, h1, h2⟩ := Res.bind_eq_ok.mp h
        cases h2
        have := Blind.dmaTransfer c m _ u w h1
        show (Machine.dmaTransfer c (withStrap m (beginTransfer c s))).bind _ = _
        rw [this]
        rfl

/-! ### The bank -/

theorem getReg_withStrap (r : Reg) (m : BitVec 2) (s : State) : getReg r (withStrap m s) = getReg r s := by
  cases r <;> rfl

theorem setReg_withStrap (r : Reg) (c : Cell) (m : BitVec 2) (s : State) :
    setReg r c (withStrap m s) = withStrap m (setReg r c s) := by
  cases r <;> first | rfl | exact writeParam_withStrap _ _ _ _ _

theorem csRecompute_withStrap (m : BitVec 2) (s : State) : csRecompute (withStrap m s) = withStrap m (csRecompute s) := by
  unfold csRecompute
  rw [show (withStrap m s).bank = s.bank from rfl]
  cases s.bank.csCtrl <;> rfl

theorem Blind.readCell (off : Word) (c : Cell) : Blind (readCell off c) :=
  match c with
  | .val _ => Blind.pure (fun _ _ => rfl) fun _ _ => rfl
  | .undef => Blind.raise fun _ => _

theorem Blind.readReg (off : Word) (r : Reg) : Blind fun s => Machine.readCell off (getReg r s) s :=
  Blind.choose (p := getReg r) (f := fun c s => Machine.readCell off c s) (getReg_withStrap r) fun c => Blind.readCell off c

theorem Blind.readBase (r : Reg) (off : Word) : Blind (readBase r off) := by
  cases r with
  | rndStatus =>
    exact Blind.choose (p := fun s => s.cfg.nondetMode)
      (f := fun k s => match k with
        | .draw => Machine.drawWord s
        | .fixed => .ok s.cfg.rndFixed s)
      (fun _ _ => rfl) fun k => match k with
        | .draw => Blind.drawWord
        | .fixed => Blind.pure (fun _ _ => rfl) fun _ _ => rfl
  | dmaP c slot => exact Blind.readParam c slot
  | dmaStatus => exact Blind.pure (f := dmaStatusWord) (g := fun s => s) (fun _ _ => rfl) fun _ _ => rfl
  | irqStatus => exact Blind.pure (f := fun s => s.apend.setWidth 16) (g := fun s => s) (fun _ _ => rfl) fun _ _ => rfl
  | portA | portB => exact Blind.drawWord
  | irqEnable => exact Blind.readReg off .irqEnable
  | _ => exact Blind.readReg off _

theorem Blind.writeReg (r : Reg) (v : Word) {g : State → State} (hg : ∀ m s, g (withStrap m s) = withStrap m (g s)) :
    Blind fun s => .ok () (g (setReg r (.val v) s)) :=
  Blind.pure (f := fun _ => ()) (g := fun s => g (setReg r (.val v) s)) (fun _ _ => rfl)
    fun m s => by rw [setReg_withStrap, hg]

theorem Blind.writeBase (r : Reg) (v : Word) : Blind (writeBase r v) := by
  cases r with
  | rndStatus | dmaStatus | irqStatus => exact Blind.pure (fun _ _ => rfl) fun _ _ => rfl
  | dmaP c slot =>
    exact Blind.pure (f := fun _ => ()) (g := writeParam c slot (.val v)) (fun _ _ => rfl) (writeParam_withStrap c slot _)
  | dmaTrigger =>
    unfold Machine.writeBase triggerByWrite
    dsimp only
    cases channelOf (v.setWidth 3) with
    | none => exact Blind.writeReg .dmaTrigger v (g := fun s => s) fun _ _ => rfl
    | some c => exact fun m s t w h => Blind.triggerChannel c m _ t w h
  | csCtrl => exact Blind.writeReg .csCtrl v csRecompute_withStrap
  | portA => exact Blind.writeReg .portA v (g := emit (.portOut .a v)) fun _ _ => rfl
  | portB => exact Blind.writeReg .portB v (g := emit (.portOut .b v)) fun _ _ => rfl
  | nandCmd => exact Blind.writeReg .nandCmd v (g := emit (.nandWrite .cmd v)) fun _ _ => rfl
  | nandAddrLo => exact Blind.writeReg .nandAddrLo v (g := emit (.nandWrite .addrLo v)) fun _ _ => rfl
  | nandAddrHi => exact Blind.writeReg .nandAddrHi v (g := emit (.nandWrite .addrHi v)) fun _ _ => rfl
  | waitEnter => exact Blind.writeReg .waitEnter v (g := enterWait) fun _ _ => rfl
  | irqAck => exact Blind.writeReg .irqAck v (g := ackSources v) fun _ _ => rfl
  | bankCtrl | rsv | irqEnable | extra => exact Blind.writeReg _ v (g := fun s => s) fun _ _ => rfl

theorem Blind.runProg {π ω : Type} {perform : π → Scope → State → Res Word} (hp : ∀ p sc, Blind (perform p sc))
    (p : Prog π ω) (sc : Scope) : Blind (runProg perform p sc) := by
  induction p generalizing sc with
  | done o => exact Blind.pure (fun _ _ => rfl) fun _ _ => rfl
  | call q k ih => exact Blind.bind (hp q sc) fun w => ih _
  | cond c a b iha ihb =>
    intro m s t v h
    unfold Machine.runProg at h ⊢
    split at h
    · rw [if_pos ‹_›]; exact ihb sc m s t v h
    · rw [if_neg ‹_›]; exact iha sc m s t v h

theorem Blind.readJump (j : BitVec 2) : Blind (readJump j) := by
  unfold Machine.readJump
  by_cases hj : j = 3#2
  · simp only [hj, if_true]; exact Blind.refused _
  · simp only [hj, if_false]; exact Blind.pure (fun _ _ => rfl) fun _ _ => rfl

/-- `FETCH(PC + k)`, as a bank action fetches. -/
theorem Blind.fetchAhead (k : Nat) : Blind fun s => Machine.fetchWord (s.pc + BitVec.ofNat 16 k) s :=
  fun m _ t v h => Blind.fetchWord _ m _ t v h

/-- `FETCH(PC + k)`, as an instruction fetches. -/
theorem Blind.fetchFurther (k : Nat) : Blind (fetchFurther k) :=
  fun m _ t v h => Blind.fetchWord _ m _ t v h

theorem Blind.afterReset {α : Type} {x : State → Res α} (h : Blind x) : Blind (Machine.afterReset x) :=
  Blind.choose (p := State.resetDone) (f := fun d s => if d then x s else .refused .notYetReset) (fun _ _ => rfl) fun d => by
    cases d
    · exact Blind.refused _
    · exact h

theorem Blind.performIsa {rd : Word → State → Res Word} {wr : Word → Word → State → Res Unit} {ft : Nat → State → Res Word}
    (hr : ∀ a, Blind (rd a)) (hw : ∀ a v, Blind (wr a v)) (hf : ∀ k, Blind (ft k)) (p : IsaPrim) (sc : Scope) :
    Blind (performIsa rd wr ft p sc) := by
  cases p with
  | acRead i => exact Blind.readAc _
  | spRead =>
    exact Blind.afterReset (Blind.pure (f := fun s => s.sp.setWidth 16) (g := fun s => s) (fun _ _ => rfl) fun _ _ => rfl)
  | frRead => exact Blind.pure (f := fun s => s.fr) (g := fun s => s) (fun _ _ => rfl) fun _ _ => rfl
  | stackPush v =>
    exact Blind.afterReset
      (Blind.pure (f := fun _ => (0 : Word)) (g := Machine.push (evalExpr sc v)) (fun _ _ => rfl) (push_withStrap _))
  | stackPop => exact Blind.afterReset Blind.pop
  | intReturn =>
    exact Blind.afterReset (Blind.bind Blind.returnFromInterrupt fun _ => Blind.pure (fun _ _ => rfl) fun _ _ => rfl)
  | jcRead j => exact Blind.bind (Blind.readJump _) fun b => Blind.pure (fun _ _ => rfl) fun _ _ => rfl
  | memRead16 a => exact hr _
  | memWrite16 a v => exact Blind.bind (hw _ _) fun _ => Blind.pure (fun _ _ => rfl) fun _ _ => rfl
  | memRead8 a lane => exact Blind.bind (Blind.readByte _) fun _ => Blind.pure (fun _ _ => rfl) fun _ _ => rfl
  | memWrite8 a lane b => exact Blind.bind (Blind.writeByte _ _) fun _ => Blind.pure (fun _ _ => rfl) fun _ _ => rfl
  | fetch k => exact Blind.afterReset (hf k)
  | acWrite i v => exact Blind.pure (f := fun _ => (0 : Word)) (g := writeAc _ _) (fun _ _ => rfl) fun _ _ => rfl
  | pcWrite v => exact Blind.pure (f := fun _ => (0 : Word)) (g := writeNpc _) (fun _ _ => rfl) fun _ _ => rfl
  | frWrite v => exact Blind.pure (f := fun _ => (0 : Word)) (g := setFlags _) (fun _ _ => rfl) fun _ _ => rfl
  | spWrite v => exact Blind.pure (f := fun _ => (0 : Word)) (g := writeSp _) (fun _ _ => rfl) fun _ _ => rfl

theorem Blind.aggVector : Blind fun s => .ok (aggVector s).1 (aggVector s).2 :=
  Blind.pure (f := fun s => (Machine.aggVector s).1) (g := fun s => (Machine.aggVector s).2)
    (fun m s => by rw [aggVector_withStrap]) fun m s => by rw [aggVector_withStrap]

theorem Blind.readRegister {rd : Word → State → Res Word} (hr : ∀ a, Blind (rd a)) (r : Reg) : Blind (readRegister rd r) := by
  unfold Machine.readRegister
  cases isExtra r
  · exact Blind.choose (p := fun s => regOffset s.cfg r) (f := fun off s => Machine.readBase r off s) (fun _ _ => rfl)
      fun off => Blind.readBase r off
  · exact Blind.choose (p := fun s => s.cfg.periphBase + regOffset s.cfg r) (f := fun a s => rd a s) (fun _ _ => rfl) hr

theorem Blind.writeRegister {wr : Word → Word → State → Res Unit} (hw : ∀ a v, Blind (wr a v)) (r : Reg) (v : Word) :
    Blind (writeRegister wr r v) := by
  unfold Machine.writeRegister
  cases isExtra r
  · exact Blind.writeBase r v
  · exact Blind.choose (p := fun s => s.cfg.periphBase + regOffset s.cfg r) (f := fun a s => wr a v s) (fun _ _ => rfl)
      fun a => hw a v

theorem Blind.performRead {rd : Word → State → Res Word} (hr : ∀ a, Blind (rd a)) (c : Cell) (p : ReadPrim) (sc : Scope) :
    Blind (performRead rd c p sc) := by
  cases p with
  | stored => exact Blind.readCell _ c
  | regRead r => exact Blind.readRegister hr r
  | draw => exact Blind.drawWord
  | acRead i => exact Blind.readAc _
  | frRead => exact Blind.pure (f := fun s => s.fr) (g := fun s => s) (fun _ _ => rfl) fun _ _ => rfl
  | spRead =>
    exact Blind.afterReset (Blind.pure (f := fun s => s.sp.setWidth 16) (g := fun s => s) (fun _ _ => rfl) fun _ _ => rfl)
  | jcRead j => exact Blind.bind (Blind.readJump _) fun b => Blind.pure (fun _ _ => rfl) fun _ _ => rfl
  | memRead16 a => exact hr _
  | memRead8 a lane => exact Blind.bind (Blind.readByte _) fun _ => Blind.pure (fun _ _ => rfl) fun _ _ => rfl
  | fetch a => exact Blind.fetchWord _
  | dmaReadParam c slot => exact Blind.readParam c slot
  | aggVectorFetch => exact Blind.aggVector

theorem Blind.runRead {rd : Word → State → Res Word} (hr : ∀ a, Blind (rd a)) (c : Cell) (e : ExtraReg) (off : Word) :
    Blind (runRead rd c e off) :=
  Blind.bind (Blind.runProg (Blind.performRead hr c) _ _) fun _ => Blind.pure (fun _ _ => rfl) fun _ _ => rfl

theorem Blind.readExtraOver {rd : Word → State → Res Word} (hr : ∀ a, Blind (rd a)) (k : Nat) (e : ExtraReg) (off : Word) :
    Blind (readExtraOver rd k e off) := by
  unfold Machine.readExtraOver
  cases e.kind with
  | storage => exact Blind.readReg _ _
  | trigger =>
    exact Blind.choose (p := getReg (.extra k)) (f := fun c s => Machine.runRead rd c e off s) (fun _ _ => rfl)
      fun c => Blind.runRead hr c e off
  | computed => exact Blind.runRead hr .undef e off

/-- The choice that a nested read makes before it acts. -/
theorem Blind.overPlaces {α : Type} {g : State → Res α} {ext : State → Res α} {unm : State → Res α}
    {base : Reg → Word → State → Res α} {extra : Nat → ExtraReg → Word → State → Res α} (a : Word)
    (e : ∀ s, g s = match decodeAddr s.cfg a with
      | .external => ext s
      | .window off => match lookup s.cfg off with
        | .unmapped => unm s
        | .base r => base r off s
        | .extra k x => extra k x off s)
    (h1 : Blind ext) (h2 : Blind unm) (h3 : ∀ r off, Blind (base r off)) (h4 : ∀ k x off, Blind (extra k x off)) : Blind g := by
  rw [funext e]
  exact Blind.choose (p := State.cfg)
    (f := fun cfg s => match decodeAddr cfg a with
      | .external => ext s
      | .window off => match lookup cfg off with
        | .unmapped => unm s
        | .base r => base r off s
        | .extra k x => extra k x off s)
    (fun _ _ => rfl) fun cfg => by
      cases decodeAddr cfg a with
      | external => exact h1
      | window off =>
        dsimp only
        cases lookup cfg off with
        | unmapped => exact h2
        | base r => exact h3 r off
        | extra k x => exact h4 k x off

theorem Blind.readNested (n : Nat) {rd : Word → State → Res Word} (hr : ∀ a, Blind (rd a)) (a : Word) :
    Blind (readNested n rd a) := by
  induction n generalizing rd a with
  | zero =>
    exact Blind.overPlaces a (fun s => rfl) (Blind.readExt a)
      (Blind.pure (f := fun s => s.cfg.unmappedSentinel) (g := fun s => s) (fun _ _ => rfl) fun _ _ => rfl)
      (fun r off => Blind.readBase r off) fun k e off => Blind.readExtraOver hr k e off
  | succ n ih => exact ih (fun a => ih hr a) a

theorem Blind.actionRead (a : Word) : Blind (actionRead a) := Blind.readNested _ (fun _ => Blind.refused _) a

theorem Blind.readExtra (k : Nat) (e : ExtraReg) (off : Word) : Blind (readExtra k e off) :=
  Blind.readExtraOver Blind.actionRead k e off

theorem Blind.performBank {wr : Word → Word → State → Res Unit} (hw : ∀ a v, Blind (wr a v)) (p : BankPrim) (sc : Scope) :
    Blind (performBank wr p sc) := by
  cases p with
  | isa p => exact Blind.performIsa Blind.actionRead hw Blind.fetchAhead p sc
  | regRead r => exact Blind.readRegister Blind.actionRead r
  | regWrite r v => exact Blind.bind (Blind.writeRegister hw r _) fun _ => Blind.pure (fun _ _ => rfl) fun _ _ => rfl
  | dmaWriteParam c slot v =>
    exact Blind.pure (f := fun _ => (0 : Word)) (g := writeParam c slot _) (fun _ _ => rfl) (writeParam_withStrap c slot _)
  | dmaReadParam c slot => exact Blind.readParam c slot
  | fetch a => exact Blind.fetchWord _
  | dmaTrigger c => exact Blind.bind (Blind.triggerChannel c) fun _ => Blind.pure (fun _ _ => rfl) fun _ _ => rfl
  | csRecompute => exact Blind.pure (f := fun _ => (0 : Word)) (g := Machine.csRecompute) (fun _ _ => rfl) csRecompute_withStrap
  | waitEnter => exact Blind.pure (f := fun _ => (0 : Word)) (g := enterWait) (fun _ _ => rfl) fun _ _ => rfl
  | aggVectorFetch => exact Blind.aggVector

theorem Blind.writeExtraOver {wr : Word → Word → State → Res Unit} (hw : ∀ a v, Blind (wr a v)) (k : Nat) (e : ExtraReg)
    (off v : Word) : Blind (writeExtraOver wr k e off v) := by
  have run : Blind fun s => Machine.runWrite wr e off v (setReg (.extra k) (.val v) s) :=
    Blind.bind (fun m s t w h => Blind.runProg (Blind.performBank hw) _ _ m _ t w h) fun _ =>
      Blind.pure (fun _ _ => rfl) fun _ _ => rfl
  unfold Machine.writeExtraOver
  cases e.kind with
  | storage => exact run
  | trigger => exact run
  | computed => exact Blind.pure (fun _ _ => rfl) fun _ _ => rfl

theorem Blind.writeNested (n : Nat) {wr : Word → Word → State → Res Unit} (hw : ∀ a v, Blind (wr a v)) (a v : Word) :
    Blind (writeNested n wr a v) := by
  induction n generalizing wr a v with
  | zero =>
    exact Blind.overPlaces a (fun s => rfl)
      (Blind.pure (f := fun _ => ()) (fun _ _ => rfl) (writeExt_withStrap a v))
      (Blind.pure (f := fun _ => ()) (g := fun s => s) (fun _ _ => rfl) fun _ _ => rfl)
      (fun r _ => Blind.writeBase r v) fun k e off => Blind.writeExtraOver hw k e off v
  | succ n ih => exact ih (fun a v => ih hw a v) a v

theorem Blind.writeExtra (k : Nat) (e : ExtraReg) (off v : Word) : Blind (writeExtra k e off v) :=
  Blind.writeExtraOver (fun a v => Blind.writeNested _ (fun _ _ => Blind.refused _) a v) k e off v

theorem Blind.readPeriph (off : Word) : Blind (readPeriph off) :=
  Blind.choose (p := fun s => lookup s.cfg off)
    (f := fun d s => match d with
      | .unmapped => .ok s.cfg.unmappedSentinel s
      | .base r => Machine.readBase r off s
      | .extra k e => Machine.readExtra k e off s)
    (fun _ _ => rfl) fun d => match d with
      | .unmapped => Blind.pure (fun _ _ => rfl) fun _ _ => rfl
      | .base r => Blind.readBase r off
      | .extra k e => Blind.readExtra k e off

theorem Blind.writePeriph (off v : Word) : Blind (writePeriph off v) :=
  Blind.choose (p := fun s => lookup s.cfg off)
    (f := fun d s => match d with
      | .unmapped => .ok () s
      | .base r => Machine.writeBase r v s
      | .extra k e => Machine.writeExtra k e off v s)
    (fun _ _ => rfl) fun d => match d with
      | .unmapped => Blind.pure (fun _ _ => rfl) fun _ _ => rfl
      | .base r => Blind.writeBase r v
      | .extra k e => Blind.writeExtra k e off v

theorem Blind.readWord (a : Word) : Blind (readWord a) :=
  Blind.choose (p := fun s => decodeAddr s.cfg a)
    (f := fun d s => match d with
      | .window off => Machine.readPeriph off s
      | .external => Machine.readExt a s)
    (fun _ _ => rfl) fun d => match d with
      | .window off => Blind.readPeriph off
      | .external => Blind.readExt a

theorem Blind.writeWord (a v : Word) : Blind (writeWord a v) :=
  Blind.choose (p := fun s => decodeAddr s.cfg a)
    (f := fun d s => match d with
      | .window off => Machine.writePeriph off v s
      | .external => .ok () (writeExt a v s))
    (fun _ _ => rfl) fun d => match d with
      | .window off => Blind.writePeriph off v
      | .external => Blind.pure (fun _ _ => rfl) (writeExt_withStrap a v)

/-! ### The engine -/

theorem Blind.runInstr (w : Word) : Blind (runInstr w) :=
  Blind.choose (p := fun s => (isaExec s.cfg s.pc w, s.pc))
    (f := fun d s => match d.1 with
      | none => Machine.raise (.unmodelled d.2 w) s
      | some p =>
        (Machine.runProg performInstr p { pc := d.2, word := w, vals := [] } (beginInstr s)).bind
          fun r s => .ok r.1 (endInstr s))
    (fun _ _ => rfl) fun d => match d with
      | (none, _) => Blind.raise fun _ => _
      | (some p, pc) =>
        Blind.bind (f := fun s => Machine.runProg performInstr p { pc := pc, word := w, vals := [] } (beginInstr s))
          (fun m _ t v h => Blind.runProg (Blind.performIsa Blind.readWord Blind.writeWord Blind.fetchFurther) p _ m _ t v h)
          fun _ => Blind.pure (fun _ _ => rfl) fun _ _ => rfl

theorem Blind.costOf (n : Nat) : Blind (costOf n) :=
  Blind.pure (f := fun s => (cycleCost n s).1) (g := fun s => (cycleCost n s).2) (fun _ _ => cycleCost_fst n rfl)
    fun _ _ => by rw [(cycleCost_eq n _).1, (cycleCost_eq n _).1]; rfl

theorem takeInterrupt_withStrap (l : Level) (m : BitVec 2) (s : State) :
    takeInterrupt l (withStrap m s) = withStrap m (takeInterrupt l s) := by
  have e : entryStart l (withStrap m s) = withStrap m (entryStart l s) := by
    unfold entryStart
    rw [push_eq, push_eq]; rfl
  by_cases hl : l = .l2
  · subst hl
    rw [takeInterrupt_agg, takeInterrupt_agg, e, aggVector_withStrap]; rfl
  · rw [takeInterrupt_plain hl, takeInterrupt_plain hl, e]; rfl

/-- An engine step answers the same, whatever the strap is. -/
theorem Blind.engineStep : Blind engineStep :=
  Blind.choose (p := fun s => (arbitrate s, s.waiting))
    (f := fun d s => match d.1 with
      | some l => Machine.costOf s.cfg.intEntryCycles (takeInterrupt l s)
      | none =>
        if d.2 then Machine.costOf s.cfg.idleCycles s
        else (Machine.fetchWord s.pc (emit (.debugHook s.pc) s)).bind Machine.runCpuWord)
    (fun _ _ => rfl) fun d => match d with
      | (some l, _) => fun m s t v h => by
        dsimp only
        rw [takeInterrupt_withStrap]
        exact Blind.costOf _ m _ t v h
      | (none, true) => fun m s t v h => Blind.costOf _ m s t v h
      | (none, false) =>
        Blind.bind (f := fun s => Machine.fetchWord s.pc (emit (.debugHook s.pc) s))
          (fun m s t v h => Blind.fetchWord _ m _ t v h) fun w => Blind.bind (Blind.runInstr w) fun n => Blind.costOf n

end Sys2Proof.Machine
end

