-- ==== Sys2Proof/Laws/Codec.lean ====
section
/-! SUPPORT. The laws of the byte codecs of Decode.lean: each reading gives back what was written, with the bytes after it. -/

namespace Sys2Proof

theorem getNat_natToBytes (k n : Nat) (rest : List Byte) (h : n < 256 ^ k) :
    getNat k (natToBytes k n ++ rest) = some (n, rest) := by
  induction k generalizing n with
  | zero => simp_all [getNat, natToBytes]
  | succ k ih =>
    have hd : n / 256 < 256 ^ k := Nat.div_lt_of_lt_mul (by rw [Nat.pow_succ] at h; omega)
    simp only [natToBytes, List.cons_append, getNat, ih _ hd, BitVec.toNat_ofNat]
    congr 2
    omega

theorem length_natToBytes (k n : Nat) : (natToBytes k n).length = k := by
  induction k generalizing n with
  | zero => rfl
  | succ k ih => simp [natToBytes, ih]

/-- Bits fit into the bytes counted for them. -/
theorem two_pow_le_byteCount (n : Nat) : 2 ^ n ≤ 256 ^ byteCount n := by
  unfold byteCount
  rw [show (256 : Nat) = 2 ^ 8 from rfl, ← Nat.pow_mul]
  exact Nat.pow_le_pow_right (by decide) (by omega)

theorem packFields_lt (fs : List (Nat × Nat)) (h : ∀ p ∈ fs, p.2 < 2 ^ p.1) :
    packFields fs < 2 ^ (fs.map Prod.fst).sum := by
  induction fs with
  | nil => simp [packFields]
  | cons p fs ih =>
    obtain ⟨w, v⟩ := p
    have hv : v < 2 ^ w := h (w, v) (by simp)
    have hr := ih fun q hq => h q (by simp [hq])
    simp only [packFields, List.map_cons, List.sum_cons, Nat.pow_add]
    calc v + 2 ^ w * packFields fs < 2 ^ w + 2 ^ w * packFields fs := by omega
      _ = 2 ^ w * (packFields fs + 1) := by ring
      _ ≤ 2 ^ w * 2 ^ (fs.map Prod.fst).sum := Nat.mul_le_mul_left _ hr

theorem unpackFields_packFields (fs : List (Nat × Nat)) (h : ∀ p ∈ fs, p.2 < 2 ^ p.1) :
    unpackFields (fs.map Prod.fst) (packFields fs) = fs.map Prod.snd := by
  induction fs with
  | nil => rfl
  | cons p fs ih =>
    obtain ⟨w, v⟩ := p
    have hv : v < 2 ^ w := h (w, v) (by simp)
    have hp : 0 < 2 ^ w := Nat.two_pow_pos w
    simp only [packFields, List.map_cons, unpackFields]
    rw [Nat.add_mul_mod_self_left, Nat.mod_eq_of_lt hv, Nat.add_mul_div_left _ _ hp, Nat.div_eq_of_lt hv, Nat.zero_add,
      ih fun q hq => h q (by simp [hq])]

/-- A record of a row of the table is read back: its fields and the bytes after it. -/
theorem RecordRow.read_record (row : RecordRow) (fs : List (Nat × Nat)) (i : Instr) (rest : List Byte)
    (hw : row.widths = fs.map Prod.fst) (hf : ∀ p ∈ fs, p.2 < 2 ^ p.1) (hm : row.make (fs.map Prod.snd) = some i) :
    row.read (natToBytes (byteCount (fs.map Prod.fst).sum) (packFields fs) ++ rest) =
      if i.wellFormed then .ok (i, rest) else .error .refusedOperand := by
  have hlt := packFields_lt fs hf
  unfold RecordRow.read
  rw [hw, getNat_natToBytes _ _ _ (lt_of_lt_of_le hlt (two_pow_le_byteCount _))]
  simp only [hlt, if_true, unpackFields_packFields fs hf, hm]

@[simp] theorem getBits_putBits {n : Nat} (v : BitVec n) (rest : List Byte) : getBits n (putBits v ++ rest) = some (v, rest) := by
  unfold getBits putBits
  rw [getNat_natToBytes _ _ _ (lt_of_lt_of_le v.isLt (two_pow_le_byteCount n))]
  simp [v.isLt]

@[simp] theorem getBool_putBool (b : Bool) (rest : List Byte) : getBool (putBool b ++ rest) = some (b, rest) := by
  cases b <;> rfl

@[simp] theorem getCell_putCell (c : Cell) (rest : List Byte) : getCell (putCell c ++ rest) = some (c, rest) := by
  cases c with
  | undef => rfl
  | val w =>
    have h := getBits_putBits w rest
    simp [putCell, getCell, h]

/-- A vector is its front and its last element. -/
theorem vector_push_pop {α : Type} {n : Nat} (v : Vector α (n + 1)) : v.pop.push v.back = v := by
  simp

theorem putMany_push {α : Type} (put : α → List Byte) {n : Nat} (v : Vector α n) (x : α) :
    putMany put (v.push x) = putMany put v ++ put x := by
  have h : (v.push x).toList = v.toList ++ [x] := by rw [Vector.toList_push]
  simp [putMany, h]

theorem getMany_putMany {α : Type} (get : List Byte → Option (α × List Byte)) (put : α → List Byte)
    (h : ∀ x rest, get (put x ++ rest) = some (x, rest)) {n : Nat} (v : Vector α n) (rest : List Byte) :
    getMany get n (putMany put v ++ rest) = some (v, rest) := by
  induction n generalizing rest with
  | zero =>
    have hv : v = #v[] := Vector.ext (fun i hi => absurd hi (Nat.not_lt_zero i))
    subst hv
    rfl
  | succ n ih =>
    rw [← vector_push_pop v, putMany_push, List.append_assoc]
    simp only [getMany, ih, h]

theorem getList_flatMap {α : Type} (get : List Byte → Option (α × List Byte)) (put : α → List Byte)
    (h : ∀ x rest, get (put x ++ rest) = some (x, rest)) (xs : List α) (rest : List Byte) :
    getList get xs.length (xs.flatMap put ++ rest) = some (xs, rest) := by
  induction xs with
  | nil => rfl
  | cons x xs ih => simp [getList, h, ih]

@[simp] theorem getChannel_putChannel (ch : Channel) (rest : List Byte) :
    getChannel (putChannel ch ++ rest) = some (ch, rest) := by
  simp [getChannel, putChannel]

@[simp] theorem getRegion_putRegion (r : Region) (rest : List Byte) : getRegion (putRegion r ++ rest) = some (r, rest) := by
  simp [getRegion, putRegion]

@[simp] theorem getCsRegions_putCsRegions (r : Option CsRegions) (rest : List Byte) :
    getCsRegions (putCsRegions r ++ rest) = some (r, rest) := by
  cases r with
  | none => rfl
  | some r =>
    have h : ∀ bs, getBool (1#8 :: bs) = some (true, bs) := fun _ => rfl
    simp [getCsRegions, putCsRegions, h]

@[simp] theorem getPending_putPending (p : Pending) (rest : List Byte) :
    getPending (putPending p ++ rest) = some (p, rest) := by
  simp [getPending, putPending]

@[simp] theorem getLines_putLines (l : Lines) (rest : List Byte) : getLines (putLines l ++ rest) = some (l, rest) := by
  simp [getLines, putLines]

@[simp] theorem getAggLines_putAggLines (l : AggLines) (rest : List Byte) :
    getAggLines (putAggLines l ++ rest) = some (l, rest) := by
  simp [getAggLines, putAggLines]

@[simp] theorem getUndefFile_putUndefFile (f : UndefFile) (rest : List Byte) :
    getUndefFile (putUndefFile f ++ rest) = some (f, rest) := by
  cases f <;> rfl

@[simp] theorem getChannelNumber_putChannelNumber (c : Fin 7) (rest : List Byte) :
    getChannelNumber (putChannelNumber c ++ rest) = some (c, rest) := by
  have h : c.val % 256 = c.val := Nat.mod_eq_of_lt (by omega)
  simp [getChannelNumber, putChannelNumber, h]

@[simp] theorem getFault_putFault (f : Option FaultReason) (rest : List Byte) :
    getFault (putFault f ++ rest) = some (f, rest) := by
  match f with
  | none => rfl
  | some (.unmodelled pc w) => simp [getFault, putFault]
  | some (.readUndefined file index) => simp [getFault, putFault]
  | some (.periphByteAccess ba) => simp [getFault, putFault]
  | some (.fetchFromWindow a) => simp [getFault, putFault]
  | some (.dmaIntoWindow c t) => simp [getFault, putFault]

theorem getPeriph_putPeriph (cells : List Cell) (rest : List Byte) (h : cells.length < 65536) :
    getPeriph (putPeriph cells ++ rest) = some (cells, rest) := by
  simp [getPeriph, putPeriph, getNat_natToBytes 2 _ _ h, getList_flatMap getCell putCell getCell_putCell]

/-- A snapshot whose registers can be counted is read back. -/
theorem getSnapshot_putSnapshot (snap : Snapshot) (rest : List Byte) (h : snap.encodable = true) :
    getSnapshot (putSnapshot snap ++ rest) = some (snap, rest) := by
  have hp : snap.periph.length < 65536 := by simpa [Snapshot.encodable] using h
  have hac := fun r => getMany_putMany getCell putCell getCell_putCell snap.ac r
  have hstk := fun r => getMany_putMany getCell putCell getCell_putCell snap.stk r
  have hdma := fun r => getMany_putMany getChannel putChannel getChannel_putChannel snap.dma r
  have hper := fun r => getPeriph_putPeriph snap.periph r hp
  unfold getSnapshot putSnapshot
  simp only [List.append_assoc]
  rw [getBits_putBits]; dsimp only [Option.bind_eq_bind, Option.bind_some]
  rw [getBits_putBits]; dsimp only [Option.bind_some]
  rw [hac]; dsimp only [Option.bind_some]
  rw [getBits_putBits]; dsimp only [Option.bind_some]
  rw [hstk]; dsimp only [Option.bind_some]
  rw [hper]; dsimp only [Option.bind_some]
  rw [hdma]; dsimp only [Option.bind_some]
  rw [getCsRegions_putCsRegions]; dsimp only [Option.bind_some]
  rw [getPending_putPending]; dsimp only [Option.bind_some]
  rw [getLines_putLines]; dsimp only [Option.bind_some]
  rw [getBool_putBool]; dsimp only [Option.bind_some]
  rw [getBits_putBits]; dsimp only [Option.bind_some]
  rw [getBits_putBits]; dsimp only [Option.bind_some]
  rw [getAggLines_putAggLines]; dsimp only [Option.bind_some]
  rw [getFault_putFault]; dsimp only [Option.bind_some]
  rw [getBool_putBool]; dsimp only [Option.bind_some]

/-! ## Records -/

/-- The record of a row of the table decodes to what the row makes. -/
theorem decodeRecord_row {row : RecordRow} {sel : Byte} (hf : recordTable.find? (fun r => r.selector == sel) = some row)
    (hr : sel ≠ restoreSelector) (bs : List Byte) : decodeRecord (sel :: bs) = row.read bs := by
  simp [decodeRecord, hr, hf]

theorem decodeRecord_plain {sel : Byte} {i : Instr} (hf : recordTable.find? (fun r => r.selector == sel) = some (.plain sel i))
    (hr : sel ≠ restoreSelector) (rest : List Byte) :
    decodeRecord (encodeFields sel [] ++ rest) = if i.wellFormed then .ok (i, rest) else .error .refusedOperand :=
  (decodeRecord_row hf hr _).trans (RecordRow.read_record _ [] i rest rfl (by simp) rfl)

theorem decodeRecord_one {sel : Byte} {tb w : Nat} {f : BitVec w → Instr}
    (hf : recordTable.find? (fun r => r.selector == sel) = some (.one sel tb w f)) (hr : sel ≠ restoreSelector) (a : BitVec w)
    (rest : List Byte) :
    decodeRecord (encodeFields sel [(w, a.toNat)] ++ rest) =
      if (f a).wellFormed then .ok (f a, rest) else .error .refusedOperand :=
  (decodeRecord_row hf hr _).trans
    (RecordRow.read_record _ [(w, a.toNat)] (f a) rest rfl (by simp [a.isLt]) (by simp [RecordRow.one]))

theorem decodeRecord_two {sel : Byte} {tb w v : Nat} {f : BitVec w → BitVec v → Instr}
    (hf : recordTable.find? (fun r => r.selector == sel) = some (.two sel tb w v f)) (hr : sel ≠ restoreSelector) (a : BitVec w)
    (b : BitVec v) (rest : List Byte) :
    decodeRecord (encodeFields sel [(w, a.toNat), (v, b.toNat)] ++ rest) =
      if (f a b).wellFormed then .ok (f a b, rest) else .error .refusedOperand :=
  (decodeRecord_row hf hr _).trans
    (RecordRow.read_record _ [(w, a.toNat), (v, b.toNat)] (f a b) rest rfl (by simp [a.isLt, b.isLt]) (by simp [RecordRow.two]))

theorem decodeRecord_three {sel : Byte} {tb w v u : Nat} {f : BitVec w → BitVec v → BitVec u → Instr}
    (hf : recordTable.find? (fun r => r.selector == sel) = some (.three sel tb w v u f)) (hr : sel ≠ restoreSelector) (a : BitVec w)
    (b : BitVec v) (c : BitVec u) (rest : List Byte) :
    decodeRecord (encodeFields sel [(w, a.toNat), (v, b.toNat), (u, c.toNat)] ++ rest) =
      if (f a b c).wellFormed then .ok (f a b c, rest) else .error .refusedOperand :=
  (decodeRecord_row hf hr _).trans
    (RecordRow.read_record _ [(w, a.toNat), (v, b.toNat), (u, c.toNat)] (f a b c) rest rfl (by simp [a.isLt, b.isLt, c.isLt]) (by simp [RecordRow.three]))

end Sys2Proof
end

