-- ==== Sys2Proof/Laws/CodecInverse.lean ====
section
/-! SUPPORT. The other direction of the codec laws: bytes that are read are the bytes that writing gives. -/

namespace Sys2Proof

theorem getNat_eq_some {k : Nat} {bs rest : List Byte} {n : Nat} (h : getNat k bs = some (n, rest)) :
    bs = natToBytes k n ++ rest ∧ n < 256 ^ k := by
  induction k generalizing bs n with
  | zero => simp only [getNat, Option.some.injEq, Prod.mk.injEq] at h; obtain ⟨rfl, rfl⟩ := h; simp [natToBytes]
  | succ k ih =>
    cases bs with
    | nil => cases h
    | cons b bs =>
      simp only [getNat] at h
      split at h
      · rename_i m r hm
        simp only [Option.some.injEq, Prod.mk.injEq] at h
        obtain ⟨rfl, rfl⟩ := h
        obtain ⟨rfl, hlt⟩ := ih hm
        have hb := b.isLt
        have h1 : (b.toNat + 256 * m) / 256 = m := by omega
        have h2 : BitVec.ofNat 8 (b.toNat + 256 * m) = b := by
          apply BitVec.eq_of_toNat_eq
          rw [BitVec.toNat_ofNat]
          omega
        refine ⟨by simp [natToBytes, h1, h2], ?_⟩
        rw [Nat.pow_succ]
        omega
      · cases h

theorem packFields_unpackFields (ws : List Nat) (n : Nat) (h : n < 2 ^ ws.sum) :
    packFields (ws.zip (unpackFields ws n)) = n := by
  induction ws generalizing n with
  | nil => simp at h; simp [packFields, h]
  | cons w ws ih =>
    have hp : 0 < 2 ^ w := Nat.two_pow_pos w
    have hd : n / 2 ^ w < 2 ^ ws.sum := by
      rw [List.sum_cons, Nat.pow_add] at h
      exact Nat.div_lt_of_lt_mul h
    simp only [unpackFields, List.zip_cons_cons, packFields, ih _ hd]
    exact Nat.mod_add_div n (2 ^ w)

theorem length_unpackFields (ws : List Nat) (n : Nat) : (unpackFields ws n).length = ws.length := by
  induction ws generalizing n with
  | nil => rfl
  | cons w ws ih => simp [unpackFields, ih]

theorem unpackFields_lt (ws : List Nat) (n : Nat) : ∀ p ∈ ws.zip (unpackFields ws n), p.2 < 2 ^ p.1 := by
  induction ws generalizing n with
  | nil => simp
  | cons w ws ih =>
    intro p hp
    simp only [unpackFields, List.zip_cons_cons, List.mem_cons] at hp
    rcases hp with rfl | hp
    · exact Nat.mod_lt _ (Nat.two_pow_pos w)
    · exact ih _ p hp

/-- What a row read: fields of its widths, made into the instruction, and the record's bytes. -/
theorem RecordRow.read_eq_ok {row : RecordRow} {bs rest : List Byte} {i : Instr} (h : row.read bs = .ok (i, rest)) :
    ∃ n, n < 2 ^ row.widths.sum ∧ row.make (unpackFields row.widths n) = some i ∧ i.wellFormed = true ∧
      bs = natToBytes (byteCount row.widths.sum) n ++ rest := by
  unfold RecordRow.read at h
  split at h
  · cases h
  · rename_i n r hn
    split at h
    · split at h
      · cases h
      · split at h
        · simp only [Except.ok.injEq, Prod.mk.injEq] at h
          obtain ⟨rfl, rfl⟩ := h
          exact ⟨n, ‹_›, ‹_›, ‹_›, (getNat_eq_some hn).1⟩
        · cases h
    · cases h

theorem getBits_eq_some {n : Nat} {bs rest : List Byte} {v : BitVec n} (h : getBits n bs = some (v, rest)) :
    bs = putBits v ++ rest := by
  unfold getBits at h
  split at h
  · rename_i m r hm
    split at h
    · simp only [Option.some.injEq, Prod.mk.injEq] at h
      obtain ⟨rfl, rfl⟩ := h
      rw [(getNat_eq_some hm).1]
      simp [putBits, Nat.mod_eq_of_lt ‹_›]
    · cases h
  · cases h

theorem getBool_eq_some {bs rest : List Byte} {b : Bool} (h : getBool bs = some (b, rest)) : bs = putBool b ++ rest := by
  cases bs with
  | nil => cases h
  | cons t r =>
    simp only [getBool] at h
    split at h
    · cases h; subst t; rfl
    · split at h
      · cases h; subst t; rfl
      · cases h

theorem getCell_eq_some {bs rest : List Byte} {c : Cell} (h : getCell bs = some (c, rest)) : bs = putCell c ++ rest := by
  cases bs with
  | nil => cases h
  | cons t r =>
    simp only [getCell] at h
    split at h
    · cases h; subst t; rfl
    · split at h
      · split at h
        · cases h; subst t; simp [putCell, getBits_eq_some ‹_›]
        · cases h
      · cases h

theorem getMany_eq_some {α : Type} {get : List Byte → Option (α × List Byte)} {put : α → List Byte}
    (hg : ∀ bs x rest, get bs = some (x, rest) → bs = put x ++ rest) {n : Nat} {bs rest : List Byte} {v : Vector α n}
    (h : getMany get n bs = some (v, rest)) : bs = putMany put v ++ rest := by
  induction n generalizing rest with
  | zero =>
    simp only [getMany, Option.some.injEq, Prod.mk.injEq] at h
    obtain ⟨rfl, rfl⟩ := h
    rfl
  | succ n ih =>
    simp only [getMany] at h
    split at h
    · rename_i u r hu
      split at h
      · rename_i x r' hx
        cases h
        rw [ih hu, hg _ _ _ hx, putMany_push, List.append_assoc]
      · cases h
    · cases h

theorem getList_eq_some {α : Type} {get : List Byte → Option (α × List Byte)} {put : α → List Byte}
    (hg : ∀ bs x rest, get bs = some (x, rest) → bs = put x ++ rest) {n : Nat} {bs rest : List Byte} {xs : List α}
    (h : getList get n bs = some (xs, rest)) : bs = xs.flatMap put ++ rest ∧ xs.length = n := by
  induction n generalizing bs xs with
  | zero =>
    simp only [getList, Option.some.injEq, Prod.mk.injEq] at h
    obtain ⟨rfl, rfl⟩ := h
    exact ⟨rfl, rfl⟩
  | succ n ih =>
    simp only [getList] at h
    split at h
    · rename_i x r hx
      split at h
      · rename_i ys r' hy
        cases h
        obtain ⟨hr, hl⟩ := ih hy
        exact ⟨by simp [hg _ _ _ hx, hr], by simp [hl]⟩
      · cases h
    · cases h

/-- A reading in two parts. -/
theorem bind_eq_some_pair {α β : Type} {x : Option (α × List Byte)} {f : α × List Byte → Option β} {y : β}
    (h : (x >>= f) = some y) : ∃ a bs, x = some (a, bs) ∧ f (a, bs) = some y := by
  cases x with
  | none => cases h
  | some p => exact ⟨p.1, p.2, rfl, h⟩

theorem getChannel_eq_some {bs rest : List Byte} {ch : Channel} (h : getChannel bs = some (ch, rest)) :
    bs = putChannel ch ++ rest := by
  unfold getChannel at h
  obtain ⟨p0, b1, h0, h⟩ := bind_eq_some_pair h
  obtain ⟨p1, b2, h1, h⟩ := bind_eq_some_pair h
  obtain ⟨y, b3, h2, h⟩ := bind_eq_some_pair h
  obtain ⟨d, b4, h3, h⟩ := bind_eq_some_pair h
  obtain ⟨e, b5, h4, h⟩ := bind_eq_some_pair h
  cases h
  rw [getCell_eq_some h0, getCell_eq_some h1, getBool_eq_some h2, getBool_eq_some h3, getBool_eq_some h4]
  simp [putChannel]

theorem getRegion_eq_some {bs rest : List Byte} {r : Region} (h : getRegion bs = some (r, rest)) :
    bs = putRegion r ++ rest := by
  unfold getRegion at h
  obtain ⟨lo, b1, h0, h⟩ := bind_eq_some_pair h
  obtain ⟨hi, b2, h1, h⟩ := bind_eq_some_pair h
  cases h
  rw [getBits_eq_some h0, getBits_eq_some h1]
  simp [putRegion]

theorem getCsRegions_eq_some {bs rest : List Byte} {r : Option CsRegions} (h : getCsRegions bs = some (r, rest)) :
    bs = putCsRegions r ++ rest := by
  unfold getCsRegions at h
  obtain ⟨p, b1, h0, h⟩ := bind_eq_some_pair h
  dsimp only at h
  split at h
  · obtain ⟨r0, b2, h1, h⟩ := bind_eq_some_pair h
    obtain ⟨r1, b3, h2, h⟩ := bind_eq_some_pair h
    obtain ⟨r2, b4, h3, h⟩ := bind_eq_some_pair h
    obtain ⟨r3, b5, h4, h⟩ := bind_eq_some_pair h
    obtain ⟨r4, b6, h5, h⟩ := bind_eq_some_pair h
    cases h
    subst p
    dsimp only at h1 h2 h3 h4 h5 ⊢
    rw [getBool_eq_some h0, getRegion_eq_some h1, getRegion_eq_some h2, getRegion_eq_some h3, getRegion_eq_some h4,
      getRegion_eq_some h5]
    simp [putCsRegions, putBool]
  · cases h
    have hp : p = false := by simpa using ‹¬p = true›
    subst hp
    rw [getBool_eq_some h0]
    rfl

theorem getPending_eq_some {bs rest : List Byte} {p : Pending} (h : getPending bs = some (p, rest)) :
    bs = putPending p ++ rest := by
  unfold getPending at h
  obtain ⟨a, b1, h0, h⟩ := bind_eq_some_pair h
  obtain ⟨b, b2, h1, h⟩ := bind_eq_some_pair h
  obtain ⟨c, b3, h2, h⟩ := bind_eq_some_pair h
  obtain ⟨d, b4, h3, h⟩ := bind_eq_some_pair h
  obtain ⟨e, b5, h4, h⟩ := bind_eq_some_pair h
  cases h
  rw [getBool_eq_some h0, getBool_eq_some h1, getBool_eq_some h2, getBool_eq_some h3, getBool_eq_some h4]
  simp [putPending]

theorem getLines_eq_some {bs rest : List Byte} {l : Lines} (h : getLines bs = some (l, rest)) :
    bs = putLines l ++ rest := by
  unfold getLines at h
  obtain ⟨a, b1, h0, h⟩ := bind_eq_some_pair h
  obtain ⟨b, b2, h1, h⟩ := bind_eq_some_pair h
  obtain ⟨c, b3, h2, h⟩ := bind_eq_some_pair h
  obtain ⟨d, b4, h3, h⟩ := bind_eq_some_pair h
  cases h
  rw [getBool_eq_some h0, getBool_eq_some h1, getBool_eq_some h2, getBool_eq_some h3]
  simp [putLines]

theorem getAggLines_eq_some {bs rest : List Byte} {l : AggLines} (h : getAggLines bs = some (l, rest)) :
    bs = putAggLines l ++ rest := by
  unfold getAggLines at h
  obtain ⟨a, b1, h0, h⟩ := bind_eq_some_pair h
  obtain ⟨b, b2, h1, h⟩ := bind_eq_some_pair h
  obtain ⟨c, b3, h2, h⟩ := bind_eq_some_pair h
  cases h
  rw [getBool_eq_some h0, getBool_eq_some h1, getBool_eq_some h2]
  simp [putAggLines]

theorem getUndefFile_eq_some {bs rest : List Byte} {f : UndefFile} (h : getUndefFile bs = some (f, rest)) :
    bs = putUndefFile f ++ rest := by
  cases bs with
  | nil => cases h
  | cons t r =>
    simp only [getUndefFile] at h
    split at h
    · cases h; subst t; rfl
    · split at h
      · cases h; subst t; rfl
      · split at h
        · cases h; subst t; rfl
        · cases h

theorem getChannelNumber_eq_some {bs rest : List Byte} {c : Fin 7} (h : getChannelNumber bs = some (c, rest)) :
    bs = putChannelNumber c ++ rest := by
  cases bs with
  | nil => cases h
  | cons t r =>
    simp only [getChannelNumber] at h
    split at h
    · cases h; simp [putChannelNumber]
    · cases h

theorem getFault_eq_some {bs rest : List Byte} {f : Option FaultReason} (h : getFault bs = some (f, rest)) :
    bs = putFault f ++ rest := by
  cases bs with
  | nil => cases h
  | cons t r =>
    simp only [getFault] at h
    split at h
    · cases h; subst t; rfl
    split at h
    · obtain ⟨a, b1, h0, h⟩ := bind_eq_some_pair h
      obtain ⟨b, b2, h1, h⟩ := bind_eq_some_pair h
      cases h; subst t
      dsimp only at h1 ⊢
      rw [getBits_eq_some h0, getBits_eq_some h1]; simp [putFault]
    split at h
    · obtain ⟨a, b1, h0, h⟩ := bind_eq_some_pair h
      obtain ⟨b, b2, h1, h⟩ := bind_eq_some_pair h
      cases h; subst t
      dsimp only at h1 ⊢
      rw [getUndefFile_eq_some h0, getBits_eq_some h1]; simp [putFault]
    split at h
    · obtain ⟨a, b1, h0, h⟩ := bind_eq_some_pair h
      cases h; subst t
      rw [getBits_eq_some h0]; simp [putFault]
    split at h
    · obtain ⟨a, b1, h0, h⟩ := bind_eq_some_pair h
      cases h; subst t
      rw [getBits_eq_some h0]; simp [putFault]
    split at h
    · obtain ⟨a, b1, h0, h⟩ := bind_eq_some_pair h
      obtain ⟨b, b2, h1, h⟩ := bind_eq_some_pair h
      cases h; subst t
      dsimp only at h1 ⊢
      rw [getChannelNumber_eq_some h0, getBits_eq_some h1]; simp [putFault]
    · cases h

theorem getPeriph_eq_some {bs rest : List Byte} {cells : List Cell} (h : getPeriph bs = some (cells, rest)) :
    bs = putPeriph cells ++ rest ∧ cells.length < 65536 := by
  unfold getPeriph at h
  obtain ⟨n, r, hn, h⟩ := bind_eq_some_pair h
  obtain ⟨hb, hlt⟩ := getNat_eq_some hn
  obtain ⟨hr, hl⟩ := getList_eq_some (put := putCell) (fun _ _ _ => getCell_eq_some) h
  exact ⟨by rw [hb, hr]; simp [putPeriph, hl], by omega⟩

theorem getSnapshot_eq_some {bs rest : List Byte} {snap : Snapshot} (h : getSnapshot bs = some (snap, rest)) :
    bs = putSnapshot snap ++ rest ∧ snap.encodable = true := by
  unfold getSnapshot at h
  obtain ⟨a0, b0, h0, h⟩ := bind_eq_some_pair h
  obtain ⟨a1, b1, h1, h⟩ := bind_eq_some_pair h
  obtain ⟨a2, b2, h2, h⟩ := bind_eq_some_pair h
  obtain ⟨a3, b3, h3, h⟩ := bind_eq_some_pair h
  obtain ⟨a4, b4, h4, h⟩ := bind_eq_some_pair h
  obtain ⟨a5, b5, h5, h⟩ := bind_eq_some_pair h
  obtain ⟨a6, b6, h6, h⟩ := bind_eq_some_pair h
  obtain ⟨a7, b7, h7, h⟩ := bind_eq_some_pair h
  obtain ⟨a8, b8, h8, h⟩ := bind_eq_some_pair h
  obtain ⟨a9, b9, h9, h⟩ := bind_eq_some_pair h
  obtain ⟨a10, b10, h10, h⟩ := bind_eq_some_pair h
  obtain ⟨a11, b11, h11, h⟩ := bind_eq_some_pair h
  obtain ⟨a12, b12, h12, h⟩ := bind_eq_some_pair h
  obtain ⟨a13, b13, h13, h⟩ := bind_eq_some_pair h
  obtain ⟨a14, b14, h14, h⟩ := bind_eq_some_pair h
  obtain ⟨a15, b15, h15, h⟩ := bind_eq_some_pair h
  cases h
  refine ⟨?_, by simpa [Snapshot.encodable] using (getPeriph_eq_some h5).2⟩
  rw [getBits_eq_some h0, getBits_eq_some h1, getMany_eq_some (fun _ _ _ => getCell_eq_some) h2, getBits_eq_some h3,
    getMany_eq_some (fun _ _ _ => getCell_eq_some) h4, (getPeriph_eq_some h5).1,
    getMany_eq_some (fun _ _ _ => getChannel_eq_some) h6, getCsRegions_eq_some h7, getPending_eq_some h8,
    getLines_eq_some h9, getBool_eq_some h10, getBits_eq_some h11, getBits_eq_some h12, getAggLines_eq_some h13,
    getFault_eq_some h14, getBool_eq_some h15]
  simp [putSnapshot]

end Sys2Proof
end

