-- ==== Sys2Proof/Laws/Dma.lean ====
section
/-! SUPPORT. The DMA controller: its status word, what a transfer and a trigger can do, and the words a block writes. -/

namespace Sys2Proof.Machine

/-- The bits of DMA_STATUS (spec/43_dma.md R246). -/
theorem dmaStatusWord_bits (s : State) :
    (dmaStatusWord s).getLsbD 7 = false ∧ (dmaStatusWord s).getLsbD 15 = false ∧
      ∀ c : Fin 7, (dmaStatusWord s).getLsbD c.val = (s.dma.get c).done ∧
        (dmaStatusWord s).getLsbD (8 + c.val) = (s.dma.get c).err := by
  have hb : ∀ (b : Bool) (w : Word) (i : Nat), (if b = true then w else (0 : Word)).getLsbD i = (b && w.getLsbD i) := by
    intro b w i
    cases b <;> simp
  have h7 : ∀ c : Fin 7, c = 0 ∨ c = 1 ∨ c = 2 ∨ c = 3 ∨ c = 4 ∨ c = 5 ∨ c = 6 := by decide
  have e : ∀ i, (dmaStatusWord s).getLsbD i = _ := fun i => by
    simp only [dmaStatusWord, List.foldl, BitVec.getLsbD_or, hb]
    exact rfl
  simp only [e]
  refine ⟨by simp, by simp, fun c => ?_⟩
  rcases h7 c with rfl | rfl | rfl | rfl | rfl | rfl | rfl <;> simp

/-! ## Channels -/

theorem setChannel_get (c d : Fin 7) (ch : Channel) (s : State) :
    (setChannel c ch s).dma.get d = if d = c then ch else s.dma.get d := dma_get_set _ _ _ _

theorem readParam_ok {c : Fin 7} {slot : Slot} {s t : State} {w : Word} (h : readParam c slot s = .ok w t) :
    t = s ∧ paramCell s c slot = .val w := by
  unfold readParam at h
  split at h
  · cases h; exact ⟨rfl, ‹_›⟩
  · cases h

theorem readParam_val {c : Fin 7} {slot : Slot} {s : State} {w : Word} (h : paramCell s c slot = .val w) :
    readParam c slot s = .ok w s := by
  simp [readParam, h]

theorem channelOf_eq {c : BitVec 3} {d : Fin 7} (h : d.val = c.toNat) : channelOf c = some d := by
  have hc : c.toNat < 7 := h ▸ d.isLt
  simp [channelOf, hc, Fin.ext_iff, h]

theorem channelOf_some {c : BitVec 3} {d : Fin 7} (h : channelOf c = some d) : d.val = c.toNat := by
  unfold channelOf at h
  split at h
  · cases h; rfl
  · cases h

/-! ## Transfers (R245) -/

/-- What a transfer leaves: memory, the trace and the draws may differ, nothing else. -/
theorem transferWords_frame {c : Fin 7} {n : Nat} {a : Word} {s t : State} (h : transferWords c n a s = .ok () t) :
    t = { s with mem := t.mem, trace := t.trace, draws := t.draws } := by
  induction n generalizing a s with
  | zero => cases h; rfl
  | succ n ih =>
    simp only [transferWords, drawWord, Res.bind_ok] at h
    split at h
    · cases h
    · rw [ih h]
      unfold writeExt
      split <;> rfl

/-- An accepted trigger's outcome: its channel completes, the aggregator's dma source is pending, and memory, the trace
and the draws are the transfer's (R244). -/
theorem triggerChannel_ok {c : Fin 7} {s t : State} (h : triggerChannel c s = .ok () t) :
    t = { s with mem := t.mem, dma := t.dma, apend := t.apend, trace := t.trace, draws := t.draws } ∧
      (∀ d : Fin 7, d ≠ c → t.dma.get d = s.dma.get d) ∧
      (t.dma.get c).p0 = (s.dma.get c).p0 ∧ (t.dma.get c).p1 = (s.dma.get c).p1 := by
  unfold triggerChannel at h
  split at h
  · cases h
    refine ⟨rfl, fun d hd => ?_, ?_, ?_⟩ <;> simp [rejectTrigger, *]
  · obtain ⟨_, u, hx, h⟩ := Res.bind_eq_ok.mp h
    cases h
    obtain ⟨p0, u0, h0, hx⟩ := Res.bind_eq_ok.mp hx
    obtain ⟨rfl, -⟩ := readParam_ok h0
    obtain ⟨p1, u1, h1, hx⟩ := Res.bind_eq_ok.mp hx
    obtain ⟨rfl, -⟩ := readParam_ok h1
    have e := transferWords_frame hx
    have hd' : u.dma = (beginTransfer c s).dma := by rw [e]; rfl
    refine ⟨?_, fun d hd => ?_, ?_, ?_⟩
    · rw [e]; rfl
    · simp [endTransfer, aggDmaDone, hd', beginTransfer, hd]
    · simp [endTransfer, aggDmaDone, hd', beginTransfer]
    · simp [endTransfer, aggDmaDone, hd', beginTransfer]

/-- Word i of a block at `a`. -/
theorem block_succ (a : Word) (i : Nat) : a + 1 + BitVec.ofNat 16 i = a + BitVec.ofNat 16 (i + 1) := by
  rw [BitVec.add_assoc, BitVec.add_comm 1, BitVec.ofNat_add]; rfl

theorem block_zero (a : Word) : a + BitVec.ofNat 16 0 = a := BitVec.add_zero a

/-- The words of a block of at most 2^16 are different. -/
theorem block_distinct {a : Word} {i j n : Nat} (hn : n ≤ 65536) (hij : i < j) (hj : j < n) :
    a + BitVec.ofNat 16 j ≠ a + BitVec.ofNat 16 i := fun h => by
  have h2 := congrArg BitVec.toNat (add_left_cancel h)
  rw [BitVec.toNat_ofNat, BitVec.toNat_ofNat] at h2
  omega

/-- The events of the n words written to `a` and on: MemEvent where the word is IO (spec/20_memory.md R75). -/
def blockEvents (cfg : Config) (draws : Nat) (a : Word) (n : Nat) : List Event :=
  (List.range n).filterMap fun i =>
    if memKind cfg (a + BitVec.ofNat 16 i) = .io then
      some (.memEvent (a + BitVec.ofNat 16 i) (Config.drawWord (draws + i)))
    else none

theorem blockEvents_succ (cfg : Config) (draws : Nat) (a : Word) (n : Nat) :
    blockEvents cfg draws a (n + 1) =
      (if memKind cfg a = .io then [.memEvent a (Config.drawWord draws)] else []) ++ blockEvents cfg (draws + 1) (a + 1) n := by
  unfold blockEvents
  rw [List.range_succ_eq_map, List.filterMap_cons, block_zero, List.filterMap_map]
  have e : ∀ i, draws + 1 + i = draws + (i + 1) := fun i => by omega
  simp only [block_succ, e, Nat.add_zero]
  split <;> rename_i h <;> split at h <;> simp_all

/-- What the n words drawn from `draws` and written to `a` and on make of memory: the last word written to a RAM address
stays, and every other address keeps its word. -/
structure BlockWritten (cfg : Config) (draws : Nat) (a : Word) (n : Nat) (old new : Memory) : Prop where
  wf : new.wf = true
  written : ∀ i, i < n → memKind cfg (a + BitVec.ofNat 16 i) = .ram →
    (∀ j, i < j → j < n → a + BitVec.ofNat 16 j ≠ a + BitVec.ofNat 16 i) →
    new.readWord (a + BitVec.ofNat 16 i) = Config.drawWord (draws + i)
  kept : ∀ b : Word, (∀ i, i < n → b = a + BitVec.ofNat 16 i → memKind cfg b ≠ .ram) → new.readWord b = old.readWord b

/-- External memory's answer to a word, by what it leaves. -/
theorem writeExt_eq (a v : Word) (s : State) :
    writeExt a v s = { s with
      mem := if memKind s.cfg a = .ram then s.mem.writeWord a v else s.mem
      trace := s.trace ++ if memKind s.cfg a = .io then [.memEvent a v] else [] } := by
  unfold writeExt
  cases memKind s.cfg a <;> simp [emit]

/-- A transfer of n words outside the window to `a` and on, of any kinds (R245). -/
theorem transferWords_external {c : Fin 7} {n : Nat} {a : Word} {s : State} (hm : s.mem.wf = true)
    (hk : ∀ i, i < n → decodeAddr s.cfg (a + BitVec.ofNat 16 i) = .external) :
    ∃ m : Memory, transferWords c n a s =
        .ok () { s with mem := m, draws := s.draws + n, trace := s.trace ++ blockEvents s.cfg s.draws a n } ∧
      BlockWritten s.cfg s.draws a n s.mem m := by
  induction n generalizing a s with
  | zero =>
    refine ⟨s.mem, by simp [transferWords, blockEvents], hm, fun i h => absurd h (Nat.not_lt_zero i), fun b _ => rfl⟩
  | succ n ih =>
    have h0 : decodeAddr (drawn s).cfg a = .external := by have := hk 0 (Nat.succ_pos n); rwa [block_zero] at this
    obtain ⟨u, hu⟩ : ∃ u, u = writeExt a (Config.drawWord s.draws) (drawn s) := ⟨_, rfl⟩
    have hv : transferWords c (n + 1) a s = transferWords c n (a + 1) u := by
      simp only [transferWords, drawWord, Res.bind_ok, h0, hu]
    rw [writeExt_eq] at hu
    have hcfg : u.cfg = s.cfg := by rw [hu]; rfl
    have hd : u.draws = s.draws + 1 := by rw [hu]; rfl
    have hu' : u.mem = if memKind s.cfg a = .ram then s.mem.writeWord a (Config.drawWord s.draws) else s.mem := by
      rw [hu]; rfl
    have humem : u.mem.wf = true := by
      rw [hu']
      split
      · exact Memory.wf_writeWord _ _ hm
      · exact hm
    obtain ⟨m, e, hw⟩ := ih (a := a + 1) humem fun i hi => by
      rw [block_succ, hcfg]; exact hk (i + 1) (Nat.succ_lt_succ hi)
    rw [hcfg, hd] at hw
    refine ⟨m, ?_, hw.wf, fun i hi hr hl => ?_, fun b hb => ?_⟩
    · rw [hv, e, hcfg, hd, blockEvents_succ, hu]
      have : s.draws + 1 + n = s.draws + (n + 1) := by omega
      simp only [drawn, this, List.append_assoc]
      rfl
    · cases i with
      | zero =>
        rw [block_zero] at hr hl ⊢
        rw [hw.kept a fun i hi he => absurd ((block_succ a i).symm.trans he.symm)
          (hl (i + 1) (Nat.succ_pos i) (Nat.succ_lt_succ hi)), hu', if_pos hr]
        exact Memory.readWord_writeWord_same a _ hm
      | succ i =>
        rw [← block_succ] at hr ⊢
        have e2 : s.draws + 1 + i = s.draws + (i + 1) := by omega
        rw [← e2]
        exact hw.written i (by omega) hr fun j h1 h2 => by
          rw [block_succ, block_succ]; exact hl (j + 1) (by omega) (by omega)
    · rw [hw.kept b fun i hi he => hb (i + 1) (by omega) (by rwa [block_succ] at he), hu']
      split
      · rename_i hr
        refine Memory.readWord_writeWord_other _ hm fun he => hb 0 (by omega) ?_ (by rw [he]; exact hr)
        rw [block_zero]; exact he
      · rfl

/-- A transfer in two parts. -/
theorem transferWords_add (c : Fin 7) (k n : Nat) (a : Word) (s : State) :
    transferWords c (k + n) a s = (transferWords c k a s).bind fun _ t => transferWords c n (a + BitVec.ofNat 16 k) t := by
  induction k generalizing a s with
  | zero => simp only [transferWords, Res.bind_ok, block_zero, Nat.zero_add]
  | succ k ih =>
    rw [Nat.succ_add]
    simp only [transferWords, drawWord, Res.bind_ok]
    cases decodeAddr (drawn s).cfg a with
    | window off => rfl
    | external => simp only [ih, block_succ]

/-- A transfer that completes writes no word of the window. -/
theorem transferWords_ok {c : Fin 7} {n : Nat} {a : Word} {s t : State} (h : transferWords c n a s = .ok () t) :
    ∀ i, i < n → decodeAddr s.cfg (a + BitVec.ofNat 16 i) = .external := by
  induction n generalizing a s with
  | zero => exact fun i hi => absurd hi (Nat.not_lt_zero i)
  | succ n ih =>
    simp only [transferWords, drawWord, Res.bind_ok] at h
    split at h
    · cases h
    · rename_i h0
      intro i hi
      cases i with
      | zero => rw [block_zero]; exact h0
      | succ i =>
        have := ih h i (by omega)
        rw [writeExt_eq, block_succ] at this
        exact this

/-- A transfer whose word k is the first to fall into the window: it faults there, and the words before it are
written (R245). -/
theorem transferWords_window {c : Fin 7} {n k : Nat} {a off : Word} {s : State} (hkn : k < n) (hm : s.mem.wf = true)
    (hf : s.fault = none) (hk : ∀ i, i < k → decodeAddr s.cfg (a + BitVec.ofNat 16 i) = .external)
    (hwin : decodeAddr s.cfg (a + BitVec.ofNat 16 k) = .window off) :
    ∃ m : Memory, transferWords c n a s = .fault (.raised (.dmaIntoWindow c (a + BitVec.ofNat 16 k))
        { s with mem := m, draws := s.draws + k + 1, trace := s.trace ++ blockEvents s.cfg s.draws a k
                 fault := some (.dmaIntoWindow c (a + BitVec.ofNat 16 k)) }) ∧
      BlockWritten s.cfg s.draws a k s.mem m := by
  obtain ⟨m, e, hw⟩ := transferWords_external (c := c) hm hk
  refine ⟨m, ?_, hw⟩
  obtain ⟨l, rfl⟩ : ∃ l, n = k + (l + 1) := ⟨n - k - 1, by omega⟩
  rw [transferWords_add, e, Res.bind_ok]
  simp only [transferWords, drawWord, Res.bind_ok, drawn, hwin]
  rw [raise_unfaulted (by exact hf)]

/-- The transfer of an accepted trigger, in either layout. -/
theorem dmaTransfer_begin {c : Fin 7} {p0 p1 a : Word} {n : Nat} {s : State} (h0 : (s.dma.get c).p0 = .val p0)
    (h1 : (s.dma.get c).p1 = .val p1) (hl : s.cfg.dmaLayout = .addrLen → a = p0 ∧ n = p1.toNat)
    (hh : s.cfg.dmaLayout = .addrLoHi → (a, n) = dmaXferLoHi s.cfg p0 p1) :
    dmaTransfer c (beginTransfer c s) = transferWords c n a (emit (.nandRead c n) (beginTransfer c s)) := by
  have r0 : readParam c .p0 (beginTransfer c s) = .ok p0 (beginTransfer c s) :=
    readParam_val (by simp [paramCell, beginTransfer, h0])
  have r1 : readParam c .p1 (beginTransfer c s) = .ok p1 (beginTransfer c s) :=
    readParam_val (by simp [paramCell, beginTransfer, h1])
  have hcfg : (beginTransfer c s).cfg = s.cfg := rfl
  simp only [dmaTransfer, r0, r1, Res.bind_ok, hcfg]
  cases hd : s.cfg.dmaLayout with
  | addrLen => obtain ⟨rfl, rfl⟩ := hl hd; rfl
  | addrLoHi => simp only [← hh hd]

theorem triggerChannel_busy {c : Fin 7} {s : State} (h : (s.dma.get c).busy = true) :
    triggerChannel c s = .ok () (rejectTrigger c s) := by
  simp [triggerChannel, h]

theorem triggerChannel_idle {c : Fin 7} {s : State} (h : (s.dma.get c).busy = false) :
    triggerChannel c s = (dmaTransfer c (beginTransfer c s)).bind fun _ s => .ok () (endTransfer c s) := by
  simp [triggerChannel, h]

/-- The block that the parameter words of a channel name, in either layout (R245). -/
structure NamesBlock (s : State) (c : Fin 7) (p0 p1 a : Word) (n : Nat) : Prop where
  first   : (s.dma.get c).p0 = .val p0
  second  : (s.dma.get c).p1 = .val p1
  addrLen : s.cfg.dmaLayout = .addrLen → a = p0 ∧ n = p1.toNat
  loHi    : s.cfg.dmaLayout = .addrLoHi → (a, n) = dmaXferLoHi s.cfg p0 p1

/-- A trigger of an idle channel that completes: its parameter words name a block outside the window, and what is left is that
block's transfer (R244, R245). -/
theorem triggerChannel_accepted {c : Fin 7} {s t : State} (hm : s.mem.wf = true) (hb : (s.dma.get c).busy = false)
    (h : triggerChannel c s = .ok () t) :
    ∃ (p0 p1 a : Word) (n : Nat) (m : Memory), NamesBlock s c p0 p1 a n ∧ BlockWritten s.cfg s.draws a n s.mem m ∧
      t = { s with
        mem := m, dma := s.dma.set c.val { s.dma.get c with done := true, err := false } c.isLt
        apend := s.apend ||| 0b0100#4, trace := s.trace ++ [.nandRead c n] ++ blockEvents s.cfg s.draws a n
        draws := s.draws + n } := by
  rw [triggerChannel_idle hb] at h
  obtain ⟨_, u, hx, h⟩ := Res.bind_eq_ok.mp h
  cases h
  obtain ⟨p0, u0, h0, h2⟩ := Res.bind_eq_ok.mp hx
  obtain ⟨rfl, hp0⟩ := readParam_ok h0
  obtain ⟨p1, u1, h1, -⟩ := Res.bind_eq_ok.mp h2
  obtain ⟨rfl, hp1⟩ := readParam_ok h1
  obtain ⟨a, n, hn⟩ : ∃ a n, NamesBlock s c p0 p1 a n := by
    have e0 : (s.dma.get c).p0 = .val p0 := by simpa [paramCell, beginTransfer] using hp0
    have e1 : (s.dma.get c).p1 = .val p1 := by simpa [paramCell, beginTransfer] using hp1
    cases hl : s.cfg.dmaLayout with
    | addrLen => exact ⟨p0, p1.toNat, e0, e1, fun _ => ⟨rfl, rfl⟩, fun h => absurd (hl.symm.trans h) (by decide)⟩
    | addrLoHi =>
      exact ⟨(dmaXferLoHi s.cfg p0 p1).1, (dmaXferLoHi s.cfg p0 p1).2, e0, e1,
        fun h => absurd (hl.symm.trans h) (by decide), fun _ => rfl⟩
  rw [dmaTransfer_begin hn.first hn.second hn.addrLen hn.loHi] at hx
  obtain ⟨m, e, hw⟩ := transferWords_external (c := c) (s := emit (.nandRead c n) (beginTransfer c s)) hm (transferWords_ok hx)
  rw [hx] at e
  cases e
  refine ⟨p0, p1, a, n, m, hn, hw, ?_⟩
  simp [endTransfer, aggDmaDone, beginTransfer, emit, hb, setChannel]

/-- A trigger clears no pending source. -/
theorem triggerChannel_apend {c : Fin 7} {s t : State} {k : Fin 4} (h : triggerChannel c s = .ok () t)
    (hs : s.apend.getLsbD k.val = true) : t.apend.getLsbD k.val = true := by
  cases hb : (s.dma.get c).busy with
  | true => rw [triggerChannel_busy hb] at h; cases h; exact hs
  | false =>
    rw [triggerChannel_idle hb] at h
    obtain ⟨_, u, hx, h⟩ := Res.bind_eq_ok.mp h
    cases h
    obtain ⟨p0, u0, h0, h2⟩ := Res.bind_eq_ok.mp hx
    obtain ⟨rfl, -⟩ := readParam_ok h0
    obtain ⟨p1, u1, h1, hx⟩ := Res.bind_eq_ok.mp h2
    obtain ⟨rfl, -⟩ := readParam_ok h1
    have : u.apend = s.apend := by rw [transferWords_frame hx]; rfl
    simp only [endTransfer, aggDmaDone, setChannel, this, BitVec.getLsbD_or, hs, Bool.true_or]

/-- A base register's write clears no pending source but through IRQ_ACK (R209; spec/60_exceptions.md R291). -/
theorem writeBase_apend {r : Reg} {v : Word} {s t : State} {k : Fin 4} (h : writeBase r v s = .ok () t)
    (hr : r = .irqAck → v.getLsbD k.val = false) (hs : s.apend.getLsbD k.val = true) : t.apend.getLsbD k.val = true := by
  cases r with
  | dmaTrigger =>
    simp only [writeBase, triggerByWrite] at h
    split at h
    · exact triggerChannel_apend h hs
    · cases h; exact hs
  | csCtrl => cases h; exact hs
  | irqAck =>
    cases h
    have := hr rfl
    have hk := k.isLt
    simp only [ackSources, BitVec.getLsbD_and, BitVec.getLsbD_not, BitVec.getLsbD_setWidth, hk, this, decide_true,
      Bool.and_false, Bool.not_false, Bool.and_true]
    exact hs
  | dmaP c sl => cases h; cases sl <;> exact hs
  | _ => cases h; exact hs

/-- A bank write that clears a pending source is one of IRQ_ACK with its bit, or of an EXTRA_REGS entry. -/
theorem writePeriph_apend {off v : Word} {s t : State} {k : Fin 4} (h : writePeriph off v s = .ok () t)
    (hs : s.apend.getLsbD k.val = true) (ht : t.apend.getLsbD k.val = false) :
    lookup s.cfg off = .base .irqAck ∧ v.getLsbD k.val = true ∨ ∃ j e, lookup s.cfg off = .extra j e := by
  cases hl : lookup s.cfg off with
  | unmapped => simp [writePeriph, hl] at h; rw [← h, hs] at ht; cases ht
  | extra j e => exact .inr ⟨j, e, rfl⟩
  | base r =>
    rw [writePeriph_base hl] at h
    refine .inl ?_
    by_cases hr : r = .irqAck
    · subst hr
      cases hv : v.getLsbD k.val with
      | false => rw [writeBase_apend h (fun _ => hv) hs] at ht; cases ht
      | true => exact ⟨rfl, rfl⟩
    · rw [writeBase_apend h (fun e => absurd e hr) hs] at ht; cases ht

end Sys2Proof.Machine
end

