-- ==== Sys2Proof/Laws/PerInstr.lean ====
section
/-! SUPPORT. The per-instruction family RecordHead: how the encoding of each instruction begins and how long it is. -/

namespace Sys2Proof.Laws.RecordHead

/-- The selector of an instruction's operation record (spec/30_encoding.md R102); a CPU word has none. -/
def selectorOf (i : Instr) : Option Byte :=
  match i with
  | .reset _ => some 0x00#8
  | .run _ => some 0x01#8
  | .signalInt _ _ => some 0x02#8
  | .aggLine _ _ => some 0x03#8
  | .dbgRead _ => some 0x04#8
  | .dbgWrite _ _ => some 0x05#8
  | .save => some 0x06#8
  | .restore _ => some 0x07#8
  | .step => some 0x10#8
  | .instr _ => some 0x11#8
  | .intEntry _ => some 0x12#8
  | .idle => some 0x13#8
  | .acRead _ => some 0x20#8
  | .acWrite _ _ => some 0x21#8
  | .pcWrite _ => some 0x22#8
  | .frRead => some 0x23#8
  | .frWrite _ => some 0x24#8
  | .spRead => some 0x25#8
  | .spWrite _ => some 0x26#8
  | .stackPush _ => some 0x27#8
  | .stackPop => some 0x28#8
  | .intReturn => some 0x29#8
  | .jcRead _ => some 0x2A#8
  | .memRead16 _ => some 0x30#8
  | .memWrite16 _ _ => some 0x31#8
  | .memRead8 _ => some 0x32#8
  | .memWrite8 _ _ => some 0x33#8
  | .fetch _ => some 0x34#8
  | .periphRead _ => some 0x40#8
  | .periphWrite _ _ => some 0x41#8
  | .dmaWriteParam _ _ _ => some 0x50#8
  | .dmaReadParam _ _ => some 0x51#8
  | .dmaTrigger _ => some 0x52#8
  | .csRecompute => some 0x60#8
  | .aggVectorFetch => some 0x70#8
  | .waitEnter => some 0x71#8
  | .cpuWord _ => none

/-- The record of an instruction that has a selector begins with it (R102); a CPU word is two bytes (R100). -/
def Statement (i : Instr) : Prop :=
  match selectorOf i with
  | some sel => (encode i).head? = some sel
  | none => (encode i).length = 2

theorem reset strap : Statement (.reset strap) := rfl

theorem run budget : Statement (.run budget) := rfl

theorem signalInt l b : Statement (.signalInt l b) := rfl

theorem aggLine src b : Statement (.aggLine src b) := rfl

theorem dbgRead field : Statement (.dbgRead field) := rfl

theorem dbgWrite field v : Statement (.dbgWrite field v) := rfl

theorem save : Statement (.save) := rfl

theorem restore snap : Statement (.restore snap) := rfl

theorem step : Statement (.step) := rfl

theorem instr w : Statement (.instr w) := rfl

theorem intEntry l : Statement (.intEntry l) := rfl

theorem idle : Statement (.idle) := rfl

theorem acRead k : Statement (.acRead k) := rfl

theorem acWrite k v : Statement (.acWrite k v) := rfl

theorem pcWrite v : Statement (.pcWrite v) := rfl

theorem frRead : Statement (.frRead) := rfl

theorem frWrite v : Statement (.frWrite v) := rfl

theorem spRead : Statement (.spRead) := rfl

theorem spWrite v : Statement (.spWrite v) := rfl

theorem stackPush v : Statement (.stackPush v) := rfl

theorem stackPop : Statement (.stackPop) := rfl

theorem intReturn : Statement (.intReturn) := rfl

theorem jcRead j : Statement (.jcRead j) := rfl

theorem memRead16 a : Statement (.memRead16 a) := rfl

theorem memWrite16 a v : Statement (.memWrite16 a v) := rfl

theorem memRead8 ba : Statement (.memRead8 ba) := rfl

theorem memWrite8 ba b : Statement (.memWrite8 ba b) := rfl

theorem fetch a : Statement (.fetch a) := rfl

theorem periphRead off : Statement (.periphRead off) := rfl

theorem periphWrite off v : Statement (.periphWrite off v) := rfl

theorem dmaWriteParam c slot v : Statement (.dmaWriteParam c slot v) := rfl

theorem dmaReadParam c slot : Statement (.dmaReadParam c slot) := rfl

theorem dmaTrigger c : Statement (.dmaTrigger c) := rfl

theorem csRecompute : Statement (.csRecompute) := rfl

theorem aggVectorFetch : Statement (.aggVectorFetch) := rfl

theorem waitEnter : Statement (.waitEnter) := rfl

theorem cpuWord w : Statement (.cpuWord w) := rfl

end Sys2Proof.Laws.RecordHead
end

