-- ==== Sys2Proof/Laws/Snapshot.lean ====
section
/-! SUPPORT. SAVE and RESTORE: the registers of the snapshot's field 6, and what loading a snapshot leaves. -/

namespace Sys2Proof.Machine

/-! ## The registers a snapshot holds (spec/70_reset_and_hazards.md R326) -/

theorem insertByOffset_perm (cfg : Config) (r : Reg) (l : List Reg) : (insertByOffset cfg r l).Perm (r :: l) := by
  induction l with
  | nil => exact List.Perm.refl _
  | cons q rest ih =>
    unfold insertByOffset
    split
    · exact List.Perm.refl _
    · exact (ih.cons q).trans (List.Perm.swap r q rest)

theorem foldl_insert_perm (cfg : Config) (l acc : List Reg) :
    (l.foldl (fun acc r => insertByOffset cfg r acc) acc).Perm (l ++ acc) := by
  induction l generalizing acc with
  | nil => exact List.Perm.refl _
  | cons r l ih =>
    refine (ih _).trans (((insertByOffset_perm cfg r acc).append_left l).trans ?_)
    exact List.perm_middle

/-- The registers of a configuration: the base table's and one for each EXTRA_REGS entry. -/
def allRegs (cfg : Config) : List Reg := baseRegs cfg ++ (List.range cfg.extraRegs.length).map Reg.extra

theorem savedRegs_perm (cfg : Config) : (savedRegs cfg).Perm ((allRegs cfg).filter (isSaved cfg)) := by
  have h := foldl_insert_perm cfg ((allRegs cfg).filter (isSaved cfg)) []
  rwa [List.append_nil] at h

theorem allRegs_nodup (cfg : Config) : (allRegs cfg).Nodup := by
  unfold allRegs baseRegs
  rw [List.nodup_append, List.nodup_append]
  refine ⟨⟨by decide, ?_, ?_⟩, ?_, ?_⟩
  · exact List.nodup_range.map fun a b h => by cases h; rfl
  · intro a ha b hb e
    obtain ⟨k, -, rfl⟩ := List.mem_map.mp hb
    subst e
    simp [namedRegs, dmaParamRegs] at ha
  · exact List.nodup_range.map fun a b h => by cases h; rfl
  · intro a ha b hb e
    obtain ⟨k, -, rfl⟩ := List.mem_map.mp hb
    subst e
    simp [namedRegs, dmaParamRegs] at ha

theorem savedRegs_nodup (cfg : Config) : (savedRegs cfg).Nodup :=
  (savedRegs_perm cfg).nodup_iff.mpr ((allRegs_nodup cfg).filter _)

theorem mem_allRegs {cfg : Config} {r : Reg} :
    r ∈ allRegs cfg ↔ r ∈ baseRegs cfg ∨ ∃ k, r = .extra k ∧ k < cfg.extraRegs.length := by
  unfold allRegs
  simp only [List.mem_append, List.mem_map, List.mem_range]
  exact or_congr Iff.rfl ⟨fun ⟨k, h, e⟩ => ⟨k, e.symm, h⟩, fun ⟨k, e, h⟩ => ⟨k, h, e.symm⟩⟩

theorem mem_savedRegs {cfg : Config} {r : Reg} : r ∈ savedRegs cfg ↔ r ∈ allRegs cfg ∧ isSaved cfg r = true := by
  rw [(savedRegs_perm cfg).mem_iff, List.mem_filter]

/-- The registers of field 6 (R326): the storage and trigger registers other than the DMA parameter words. -/
theorem mem_savedRegs_iff {cfg : Config} {r : Reg} :
    r ∈ savedRegs cfg ↔ (∀ c sl, r ≠ .dmaP c sl) ∧
      ((r ∈ baseRegs cfg ∧ baseKind r ≠ .computed) ∨
        ∃ k e, r = .extra k ∧ cfg.extraRegs[k]? = some e ∧ e.kind ≠ .computed) := by
  rw [mem_savedRegs, mem_allRegs]
  have hx : ∀ k, Reg.extra k ∉ baseRegs cfg := fun k h => (mem_baseRegs.mp h).2 k rfl
  cases r with
  | extra k =>
    simp only [isSaved, hx, false_or, false_and]
    constructor
    · rintro ⟨⟨j, e, h⟩, hs⟩
      cases e
      refine ⟨by simp, k, _, rfl, List.getElem?_eq_getElem h, ?_⟩
      simpa [isComputed, h] using hs
    · rintro ⟨-, j, e, hj, he, hk⟩
      cases hj
      refine ⟨⟨k, rfl, (List.getElem?_eq_some_iff.mp he).1⟩, ?_⟩
      obtain ⟨hl, rfl⟩ := List.getElem?_eq_some_iff.mp he
      simpa [isComputed, hl] using hk
  | dmaP c sl =>
    constructor
    · rintro ⟨-, hs⟩; cases hs
    · rintro ⟨h, -⟩; exact absurd rfl (h c sl)
  | _ => simp [isSaved, isComputed_base]

theorem insertByOffset_sorted {cfg : Config} {r : Reg} {l : List Reg}
    (h : l.Pairwise fun q r => (regOffset cfg q).toNat ≤ (regOffset cfg r).toNat) :
    (insertByOffset cfg r l).Pairwise fun q r => (regOffset cfg q).toNat ≤ (regOffset cfg r).toNat := by
  induction l with
  | nil => simp [insertByOffset]
  | cons q rest ih =>
    have h' := List.pairwise_cons.mp h
    unfold insertByOffset
    split
    · refine List.pairwise_cons.mpr ⟨fun x hx => ?_, h⟩
      rcases List.mem_cons.mp hx with rfl | hx
      · omega
      · have := h'.1 x hx; omega
    · refine List.pairwise_cons.mpr ⟨fun x hx => ?_, ih h'.2⟩
      rcases List.mem_cons.mp ((insertByOffset_perm cfg r rest).mem_iff.mp hx) with rfl | hx
      · omega
      · exact h'.1 x hx

/-- Field 6 is in ascending order of the offsets (R326). -/
theorem savedRegs_sorted (cfg : Config) :
    (savedRegs cfg).Pairwise fun q r => (regOffset cfg q).toNat ≤ (regOffset cfg r).toNat := by
  have key : ∀ (l acc : List Reg), acc.Pairwise (fun q r => (regOffset cfg q).toNat ≤ (regOffset cfg r).toNat) →
      (l.foldl (fun acc r => insertByOffset cfg r acc) acc).Pairwise
        fun q r => (regOffset cfg q).toNat ≤ (regOffset cfg r).toNat := by
    intro l
    induction l with
    | nil => exact fun acc h => h
    | cons r l ih => exact fun acc h => ih _ (insertByOffset_sorted h)
  exact key _ [] List.Pairwise.nil

/-! ## Setting registers -/

theorem setReg_shape (r : Reg) (c : Cell) (s : State) :
    (setReg r c s).bank.rsv.length = s.bank.rsv.length ∧ (setReg r c s).bank.extra.length = s.bank.extra.length := by
  cases r with
  | rsv k => simp [setReg]
  | extra k => simp only [setReg]; split <;> simp
  | dmaP c sl => cases sl <;> exact ⟨rfl, rfl⟩
  | _ => exact ⟨rfl, rfl⟩

/-- A register that is no DMA parameter word lies in the bank. -/
theorem setReg_bank {r : Reg} {c : Cell} {s : State} (h : ∀ d sl, r ≠ .dmaP d sl) :
    setReg r c s = { s with bank := (setReg r c s).bank } := by
  cases r with
  | dmaP d sl => exact absurd rfl (h d sl)
  | _ => rfl

theorem setRegs_bank {rs : List Reg} {cs : List Cell} {s : State} (h : ∀ r ∈ rs, ∀ d sl, r ≠ .dmaP d sl) :
    setRegs rs cs s = { s with bank := (setRegs rs cs s).bank } := by
  induction rs generalizing cs s with
  | nil => rfl
  | cons r rs ih =>
    cases cs with
    | nil => rfl
    | cons c cs =>
      show setRegs rs cs (setReg r c s) = { s with bank := (setRegs rs cs (setReg r c s)).bank }
      rw [ih (fun q hq => h q (List.mem_cons_of_mem r hq)), setReg_bank (h r List.mem_cons_self)]

theorem setRegs_shape (rs : List Reg) (cs : List Cell) (s : State) :
    (setRegs rs cs s).bank.rsv.length = s.bank.rsv.length ∧
      (setRegs rs cs s).bank.extra.length = s.bank.extra.length := by
  induction rs generalizing cs s with
  | nil => exact ⟨rfl, rfl⟩
  | cons r rs ih =>
    cases cs with
    | nil => exact ⟨rfl, rfl⟩
    | cons c cs =>
      have h1 := ih cs (setReg r c s)
      have h2 := setReg_shape r c s
      exact ⟨h1.1.trans h2.1, h1.2.trans h2.2⟩

theorem getReg_setRegs_other {rs : List Reg} {cs : List Cell} {q : Reg} {s : State} (h : q ∉ rs) :
    getReg q (setRegs rs cs s) = getReg q s := by
  induction rs generalizing cs s with
  | nil => rfl
  | cons r rs ih =>
    cases cs with
    | nil => rfl
    | cons c cs =>
      simp only [List.mem_cons, not_or] at h
      exact (ih h.2).trans (getReg_setReg_other h.1)

/-- Whether a register has a cell in a state. -/
def HasCell (s : State) (r : Reg) : Prop :=
  isComputed s.cfg r = false ∧ (∀ k, r = .rsv k → k < s.bank.rsv.length) ∧ ∀ k, r = .extra k → k < s.bank.extra.length

/-- Registers set to cells that fit them read as those cells. -/
theorem map_getReg_setRegs {rs : List Reg} {cs : List Cell} {s : State} (hd : rs.Nodup) (hf : cs.length = rs.length)
    (hc : ∀ r ∈ rs, HasCell s r) : rs.map (fun r => getReg r (setRegs rs cs s)) = cs := by
  induction rs generalizing cs s with
  | nil =>
    cases cs with
    | nil => rfl
    | cons c cs => cases hf
  | cons r rs ih =>
    cases cs with
    | nil => cases hf
    | cons c cs =>
      obtain ⟨hr, hd⟩ := List.nodup_cons.mp hd
      have h0 := hc r List.mem_cons_self
      have hsh := setReg_shape r c s
      show getReg r (setRegs rs cs (setReg r c s)) :: rs.map (fun q => getReg q (setRegs rs cs (setReg r c s))) = c :: cs
      rw [getReg_setRegs_other hr, getReg_setReg_cell h0.1 h0.2.1 h0.2.2,
        ih hd (by simpa using hf) fun q hq => ?_]
      have := hc q (List.mem_cons_of_mem r hq)
      exact ⟨(Frame.setReg r c s).cfg ▸ this.1, fun k e => hsh.1 ▸ this.2.1 k e, fun k e => hsh.2 ▸ this.2.2 k e⟩

/-- In a state of the configuration's shape every saved register has a cell. -/
theorem savedRegs_hasCell {s : State} (hb : BankShaped s) {r : Reg} (h : r ∈ savedRegs s.cfg) : HasCell s r := by
  obtain ⟨ha, hs⟩ := mem_savedRegs.mp h
  refine ⟨?_, fun k e => ?_, fun k e => ?_⟩
  · cases r <;> first | rfl | simpa [isSaved] using hs | (simp [isSaved] at hs; exact hs.2)
  · subst e
    rcases mem_allRegs.mp ha with hm | ⟨j, e, -⟩
    · rw [hb.rsv]; exact (mem_baseRegs.mp hm).1 k rfl
    · cases e
  · subst e
    rcases mem_allRegs.mp ha with hm | ⟨j, e, hj⟩
    · exact absurd rfl ((mem_baseRegs.mp hm).2 k)
    · cases e; rw [hb.extra]; exact hj

theorem savedRegs_notDma {cfg : Config} {r : Reg} (h : r ∈ savedRegs cfg) : ∀ d sl, r ≠ .dmaP d sl :=
  (mem_savedRegs_iff.mp h).1

/-! ## Loading a snapshot (R327) -/

/-- What RESTORE leaves outside the bank and FR. -/
theorem loadSnapshot_bank (snap : Snapshot) (s : State) :
    loadSnapshot snap s = { loadFields snap s with bank := (loadSnapshot snap s).bank } := by
  rw [loadSnapshot_eq]
  exact setRegs_bank fun r h => savedRegs_notDma h

theorem loadSnapshot_regs {snap : Snapshot} {s : State} (hb : BankShaped s) (hf : snapshotFits s.cfg snap = true) :
    (savedRegs s.cfg).map (fun r => getReg r (loadSnapshot snap s)) = snap.periph := by
  simp only [snapshotFits, Bool.and_eq_true, beq_iff_eq] at hf
  rw [loadSnapshot_eq]
  exact map_getReg_setRegs (savedRegs_nodup _) hf.2 fun r h => savedRegs_hasCell (s := s) hb h

/-- A snapshot of a machine that meets the invariant is accepted. -/
theorem snapshotFits_takeSnapshot {s : State} (h : Inv s) : snapshotFits s.cfg (takeSnapshot s) = true := by
  simp only [snapshotFits, Bool.and_eq_true, decide_eq_true_eq, beq_iff_eq]
  exact ⟨⟨h.sp, h.flags⟩, by simp [takeSnapshot]⟩

end Sys2Proof.Machine
end

