-- ==== Sys2Proof/Tests/Slice0.lean ====
section
/-! SUPPORT. Tests: the checks of WellFormed, decoding of records written out from spec/30_encoding.md R102, one step of
each instruction against the vectors of spec/95_test_vectors.md (named beside each test), and a witness of the
hypotheses of every obligation. -/

namespace Sys2Proof.Tests

open Sys2Proof Sys2Proof.Machine

/-! ## Helpers -/

/-- Whether an outcome is a next state that satisfies `p`. -/
def nextIs (o : Host.Outcome State Fault Refusal) (p : State → Bool) : Bool :=
  match o with
  | .next t => p t
  | _ => false

/-- Whether an outcome is the fault `r` and the state left satisfies `p`. -/
def faultIs (o : Host.Outcome State Fault Refusal) (r : FaultReason) (p : State → Bool) : Bool :=
  match o with
  | .fault (.raised q left) => q == r && p left
  | _ => false

/-- Whether an outcome is the refusal `r`. -/
def refusedIs (o : Host.Outcome State Fault Refusal) (r : Refusal) : Bool :=
  match o with
  | .refused q => q == r
  | _ => false

/-- Whether bytes decode to `i` and nothing is left. -/
def decodesTo (bs : List Byte) (i : Instr) : Bool :=
  match decodeRecord bs with
  | .ok (j, rest) => j == i && rest == []
  | .error _ => false

/-- Whether bytes are refused as `e`. -/
def decodeRefuses (bs : List Byte) (e : DecodeError) : Bool :=
  match decodeRecord bs with
  | .ok _ => false
  | .error d => d == e

/-- The accumulator field of a word of the instruction set T (spec/95_test_vectors.md section 0). -/
def acField : Expr := .shr (.and .word (.lit 0x0030)) 4

/-- The instruction set T. -/
def tIsa : List IsaEntry :=
  [⟨0xFFCF, 0x1000, 0, 0, .call (.fetch 1) (.call (.acWrite acField (.var 0)) (.done 4))⟩,
   ⟨0xFFCF, 0x2000, 0, 0, .call (.fetch 1) (.call (.acRead acField) (.call (.memWrite16 (.var 0) (.var 1)) (.done 4)))⟩,
   ⟨0xFFCF, 0x3000, 0, 0, .call (.fetch 1) (.call (.memRead16 (.var 0)) (.call (.acWrite acField (.var 1)) (.done 4)))⟩,
   ⟨0xFFCF, 0x4000, 0, 0, .call (.acRead acField) (.call (.frWrite (.var 0)) (.done 4))⟩,
   ⟨0xFFCF, 0x5000, 0, 0, .call (.acRead acField) (.call (.stackPush (.var 0)) (.done 4))⟩,
   ⟨0xFFCF, 0x6000, 0, 0, .call .stackPop (.call (.acWrite acField (.var 0)) (.done 4))⟩,
   ⟨0xFFFF, 0x7000, 0, 0, .call (.fetch 1) (.call (.pcWrite (.var 0)) (.done 4))⟩,
   ⟨0xFFFF, 0x8000, 0, 0, .call .intReturn (.done 4)⟩,
   ⟨0xFFCF, 0x9000, 0, 0, .call (.acRead acField) (.call (.spWrite (.var 0)) (.done 4))⟩]

/-- The fixture FIX of spec/95_test_vectors.md section 0. -/
def fix : Config := { Config.reference with nondetMode := .fixed, isa := tIsa }

/-- The fixture after RESET(0), with words in memory from word address `a` on. -/
def boot (a : Word) (ws : List Word) : State :=
  { State.reset with
    cfg := fix
    mem := (ws.foldl (fun (p : Memory × Word) w => (Memory.writeWord p.1 p.2 w, p.2 + 1)) (([] : Memory), a)).1 }

/-- The fixture after RESET(0), without a program. -/
def base : State := boot 0 []

/-! ## Well-formedness: the checks refuse ill-formed terms (R103) -/

theorem test_wf_level : (Instr.signalInt 6 1).wellFormed = false ∧ (Instr.intEntry 7).wellFormed = false := by decide
theorem test_wf_source : (Instr.aggLine 2 0).wellFormed = false := by decide
theorem test_wf_field : (Instr.dbgRead 17).wellFormed = false ∧ (Instr.dbgWrite 31 0).wellFormed = false := by decide
theorem test_wf_jump : (Instr.jcRead 3).wellFormed = false := by decide
theorem test_wf_channel : (Instr.dmaTrigger 7).wellFormed = false ∧ (Instr.dmaReadParam 7 0).wellFormed = false ∧
    (Instr.dmaWriteParam 7 1 0).wellFormed = false := by decide

/-- A snapshot with more registers than its record can count. -/
theorem test_wf_snapshot :
    (Instr.restore { takeSnapshot State.reset with periph := List.replicate 65536 .undef }).wellFormed = false := by
  show decide ((List.replicate 65536 Cell.undef).length < 65536) = false
  rw [List.length_replicate]
  rfl

/-- The boundary values are accepted. -/
theorem test_wf_accepts : (Instr.signalInt 5 1).wellFormed = true ∧ (Instr.aggLine 3 0).wellFormed = true ∧
    (Instr.dbgRead 16).wellFormed = true ∧ (Instr.jcRead 2).wellFormed = true ∧ (Instr.dmaTrigger 6).wellFormed = true := by
  decide

/-! ## Decoding: records written out from R102 (fields from bit 8 upwards, log entry 6) -/

theorem test_decode_reset : decodesTo [0x00#8, 0b10#8] (.reset 2) = true := by decide
theorem test_decode_run : decodesTo [0x01#8, 0x08#8, 0x00#8, 0x00#8, 0x80#8] (.run 0x80000008) = true := by decide
theorem test_decode_signalInt : decodesTo [0x02#8, 0b1101#8] (.signalInt 5 1) = true := by decide
theorem test_decode_aggLine : decodesTo [0x03#8, 0b101#8] (.aggLine 1 1) = true := by decide
theorem test_decode_dbgRead : decodesTo [0x04#8, 0b10000#8] (.dbgRead 16) = true := by decide
theorem test_decode_dbgWrite : decodesTo [0x05#8, 0b10000110#8, 0x01#8, 0x00#8] (.dbgWrite 6 0x000C) = true := by decide
theorem test_decode_save : decodesTo [0x06#8] .save = true := by decide
theorem test_decode_step : decodesTo [0x10#8] .step = true := by decide
theorem test_decode_instr : decodesTo [0x11#8, 0x20#8, 0x10#8] (.instr 0x1020) = true := by decide
theorem test_decode_intEntry : decodesTo [0x12#8, 0x03#8] (.intEntry 3) = true := by decide
theorem test_decode_idle : decodesTo [0x13#8] .idle = true := by decide
theorem test_decode_acRead : decodesTo [0x20#8, 0x03#8] (.acRead 3) = true := by decide
theorem test_decode_acWrite : decodesTo [0x21#8, 0b10111110#8, 0b11111011#8, 0b00000010#8] (.acWrite 2 0xBEEF) = true := by
  decide
theorem test_decode_pcWrite : decodesTo [0x22#8, 0x00#8, 0x02#8] (.pcWrite 0x0200) = true := by decide
theorem test_decode_frRead : decodesTo [0x23#8] .frRead = true := by decide
theorem test_decode_frWrite : decodesTo [0x24#8, 0x00#8, 0x08#8] (.frWrite 0x0800) = true := by decide
theorem test_decode_spRead : decodesTo [0x25#8] .spRead = true := by decide
theorem test_decode_spWrite : decodesTo [0x26#8, 0x1A#8] (.spWrite 0x1A) = true := by decide
theorem test_decode_stackPush : decodesTo [0x27#8, 0x34#8, 0x12#8] (.stackPush 0x1234) = true := by decide
theorem test_decode_stackPop : decodesTo [0x28#8] .stackPop = true := by decide
theorem test_decode_intReturn : decodesTo [0x29#8] .intReturn = true := by decide
theorem test_decode_jcRead : decodesTo [0x2A#8, 0x01#8] (.jcRead 1) = true := by decide
theorem test_decode_memRead16 : decodesTo [0x30#8, 0xFF#8, 0x6F#8] (.memRead16 0x6FFF) = true := by decide
theorem test_decode_memWrite16 : decodesTo [0x31#8, 0x00#8, 0x20#8, 0x78#8, 0x56#8] (.memWrite16 0x2000 0x5678) = true := by
  decide
theorem test_decode_memRead8 : decodesTo [0x32#8, 0xFF#8, 0xFF#8, 0x01#8] (.memRead8 0x1FFFF) = true := by decide
theorem test_decode_memWrite8 : decodesTo [0x33#8, 0x01#8, 0x40#8, 0b00100100#8, 0x00#8] (.memWrite8 0x04001 0x12) = true := by
  decide
theorem test_decode_fetch : decodesTo [0x34#8, 0x10#8, 0x00#8] (.fetch 0x0010) = true := by decide
theorem test_decode_periphRead : decodesTo [0x40#8, 0x21#8, 0x00#8] (.periphRead 0x0021) = true := by decide
theorem test_decode_periphWrite : decodesTo [0x41#8, 0x50#8, 0x00#8, 0x01#8, 0x00#8] (.periphWrite 0x0050 0x0001) = true := by
  decide
theorem test_decode_dmaWriteParam : decodesTo [0x50#8, 0b00001011#8, 0b00000001#8, 0x00#8] (.dmaWriteParam 3 1 0x0010) = true := by
  decide
theorem test_decode_dmaReadParam : decodesTo [0x51#8, 0b1011#8] (.dmaReadParam 3 1) = true := by decide
theorem test_decode_dmaTrigger : decodesTo [0x52#8, 0x06#8] (.dmaTrigger 6) = true := by decide
theorem test_decode_csRecompute : decodesTo [0x60#8] .csRecompute = true := by decide
theorem test_decode_aggVectorFetch : decodesTo [0x70#8] .aggVectorFetch = true := by decide
theorem test_decode_waitEnter : decodesTo [0x71#8] .waitEnter = true := by decide

/-- The snapshot of the state after reset, its fields written out in R326's order (log entry 7). -/
theorem test_decode_restore : decodesTo
    ([0x07#8] ++ [0x00#8, 0x00#8] ++ [0x01#8, 0x80#8] ++ List.replicate 4 0x00#8 ++ [0x00#8] ++ List.replicate 10 0x00#8
      ++ [0x0D#8, 0x00#8] ++ List.replicate 10 0x00#8 ++ [0x01#8, 0x00#8, 0x00#8] ++ List.replicate 2 0x00#8
      ++ List.replicate 35 0x00#8 ++ [0x00#8] ++ List.replicate 5 0x00#8 ++ List.replicate 4 0x00#8 ++ [0x00#8] ++ [0x00#8]
      ++ [0x00#8] ++ List.replicate 3 0x00#8 ++ [0x00#8] ++ [0x01#8])
    (.restore (takeSnapshot State.reset)) = true := by
  decide

/-- A selector outside the table, an operand value R103 refuses, a bit above the last field, and a short record. -/
theorem test_decode_refuses :
    decodeRefuses [0x08#8] (.unknownSelector 0x08#8) = true ∧ decodeRefuses [0x52#8, 0x07#8] .refusedOperand = true ∧
    decodeRefuses [0x20#8, 0x04#8] .reservedBits = true ∧ decodeRefuses [0x24#8, 0x00#8] .incomplete = true := by
  decide

/-- Words as spec/opcode_table.json numbers them. -/
theorem test_decode_tableWord :
    decodeTableWord 16 0x1020 = some (.cpuWord 0x1020) ∧ decodeTableWord 24 0x102011 = some (.instr 0x1020) ∧
    decodeTableWord 8 0x10 = some .step ∧ decodeTableWord 24 0x080024 = some (.frWrite 0x0800) := by
  decide

/-! ## One step of each instruction (spec/95_test_vectors.md) -/

/-- L2-R, first row. -/
theorem test_reset : nextIs (exec (.reset 2) { base with
      fr := 0xF801, pc := 0x1234, sp := 5, waiting := true, pending := { noPending with l4 := true },
      ac := #v[.val 7, .undef, .undef, .undef] })
    (fun t => t.trace == [.flagOut 0 false, .flagOut 1 false, .flagOut 2 false, .flagOut 3 false] && t.fr == 0x8001 &&
      t.pc == 0 && t.sp == 0 && !t.waiting && t.pending == noPending && t.ac.get 0 == .val 7 && t.bootMode == 2) = true := by
  decide

/-- R14: the fixture, its INT_VECTOR included, is a configuration a machine is constructed from. -/
theorem test_construct_fix : (construct fix).isSome = true := by decide

/-- L2-R: a just constructed machine refuses RUN and takes RESET without callbacks. -/
theorem test_constructed : refusedIs (exec (.run 4) (constructed fix)) .notYetReset = true ∧
    nextIs (exec (.reset 0) (constructed fix)) (fun t => t.trace == [] && t.fr == 0x8001 && t.pc == 0) = true := by
  decide

/-- L2-P: RUN(0) takes no step, nor does RUN of a negative budget (R133). -/
theorem test_run_zero : nextIs (exec (.run 0) base) (fun t => t.result == .budget 0 && t.trace == []) = true ∧
    nextIs (exec (.run 0xFFFFFFFF) base) (fun t => t.result == .budget (-1) && t.trace == []) = true := by
  decide

/-- L2-P: a RUN ends at the fault of its step, with the budget left (R133). -/
theorem test_run_fault : faultIs (exec (.run 8) { base with pc := 0x0040 }) (.unmodelled 0x0040 0x0000)
    (fun t => t.result == .budget 8 && t.trace == [.debugHook 0x0040]) = true := by
  decide

/-- L2-I: SIGNAL_INT latches a rising edge; lowering the line keeps the latch; L1, L2 and 6 are refused. -/
theorem test_signalInt :
    nextIs (exec (.signalInt 3 1) base) (fun t => t.pending.l3 && t.line.l3) = true ∧
    nextIs (exec (.signalInt 3 0) { base with pending := { noPending with l3 := true }, line := { base.line with l3 := true } })
      (fun t => t.pending.l3 && !t.line.l3) = true := by
  decide

theorem test_signalInt_refused : refusedIs (exec (.signalInt 1 1) base) .levelHasNoPin = true ∧
    refusedIs (exec (.signalInt 2 0) base) .levelHasNoPin = true ∧
    refusedIs (exec (.signalInt 6 1) base) .refusedOperand = true := by
  decide

/-- L2-I: AGG_LINE. -/
theorem test_aggLine : nextIs (exec (.aggLine 1 1) base) (fun t => t.apend == 0b0010 && t.aline.audio) = true ∧
    refusedIs (exec (.aggLine 2 1) base) .sourceIsInternal = true := by
  decide

/-- R180: after reset DBG_READ 1 is 0x8001 and a read of an `Undefined` slot is the marker. -/
theorem test_dbgRead : nextIs (exec (.dbgRead 1) State.reset) (fun t => t.result == .cell (.val 0x8001)) = true ∧
    nextIs (exec (.dbgRead 16) State.reset) (fun t => t.result == .cell .undef) = true := by
  decide

/-- L2-R: DBG_WRITE 6, 0x000D leaves SP = 9; R181: slot 9 is field 16. -/
theorem test_dbgWrite : nextIs (exec (.dbgWrite 6 0x000D) base) (fun t => t.sp == 9) = true ∧
    nextIs (exec (.dbgWrite 16 0x1234) base) (fun t => t.stk.get 9 == .val 0x1234 && t.stk.get 8 == .undef) = true := by
  decide

/-- R326: SAVE. -/
theorem test_save : nextIs (exec .save { base with pc := 0x1234, sp := 3 }) (fun t => match t.result with
    | .snapshot snap => snap.pc == 0x1234 && snap.sp == 3 && snap.fr == 0x8001 && snap.periph.length == 13
    | _ => false) = true := by
  decide

/-- L2-R: RESTORE emits the callbacks of the change of FR. -/
theorem test_restore : nextIs (exec (.restore (takeSnapshot { base with fr := 0x8801, ac := #v[.val 0x0800, .undef, .undef, .undef] }))
      { base with fr := 0xFFFF, ac := #v[.val 0x5555, .undef, .undef, .undef] })
    (fun t => t.trace == [.flagOut 1 false, .flagOut 2 false, .flagOut 3 false] && t.ac.get 0 == .val 0x0800 && t.fr == 0x8801)
    = true := by
  decide

/-- L2-R: snapshots that RESTORE refuses. -/
theorem test_restore_refused :
    refusedIs (exec (.restore { takeSnapshot base with sp := 10 }) base) .illFormedSnapshot = true ∧
    refusedIs (exec (.restore { takeSnapshot base with fr := 0x0000 }) base) .illFormedSnapshot = true := by
  decide

/-- L2-I: STEP enters L3. -/
theorem test_step_entry : nextIs (exec .step { base with
      pc := 0x0123, sp := 2, fr := 0x8209, pending := { noPending with l3 := true } })
    (fun t => t.stk.get 2 == .val 0x0123 && t.sp == 3 && t.fr == 0x8009 && !t.pending.l3 && t.pc == 0x0130) = true := by
  decide

/-- L2-P: STEP of an instruction, with its hook. -/
theorem test_step_instr : nextIs (exec .step { boot 0x0010 [0x1020, 0xBEEF] with pc := 0x0010 })
    (fun t => t.ac.get 2 == .val 0xBEEF && t.pc == 0x0012 && t.trace == [.debugHook 0x0010]) = true := by
  decide

/-- L2-P: STEP with PC in the window: the hook, then the fault of the fetch. -/
theorem test_step_window : faultIs (exec .step { base with pc := 0x7000 }) (.fetchFromWindow 0x7000)
    (fun t => t.trace == [.debugHook 0x7000] && t.pc == 0x7000) = true := by
  decide

/-- L2-P: LDI at 0xFFFF takes its second word from 0x0000. -/
theorem test_instr_wraps : nextIs (exec (.instr 0x1000) { boot 0x0000 [0x1234] with pc := 0xFFFF })
    (fun t => t.ac.get 0 == .val 0x1234 && t.pc == 0x0001 && t.result == .cycles 4) = true := by
  decide

/-- L2-P: a word outside T. -/
theorem test_instr_unmodelled : faultIs (exec (.instr 0x1001) { base with pc := 0x0040 }) (.unmodelled 0x0040 0x1001)
    (fun t => t.pc == 0x0040) = true := by
  decide

/-- L2-P: CPU_WORD, JMP to itself; L2-P: FR of an `Undefined` accumulator. -/
theorem test_cpuWord : nextIs (exec (.cpuWord 0x7000) { boot 0x0051 [0x0050] with pc := 0x0050 }) (fun t => t.pc == 0x0050) = true ∧
    faultIs (exec (.cpuWord 0x4010) base) (.readUndefined .ac 1) (fun t => t.fr == 0x8001) = true := by
  decide

/-- L2-I: an entry at SP = 9 wraps the stack and requests L1. -/
theorem test_intEntry : nextIs (exec (.intEntry 3) { base with
      pc := 0x0040, sp := 9, fr := 0x8209, pending := { noPending with l3 := true } })
    (fun t => t.stk.get 9 == .val 0x0040 && t.sp == 0 && t.pending == { noPending with l1 := true } && t.fr == 0x8009 &&
      t.trace == [.intAck .l3 0] && t.pc == 0x0130) = true := by
  decide

/-- R277, R294: the entry of L2 carries the vector 2 for the dma source; L3 of the vectors: INT_VECTOR(2, 2) = 0x0122. -/
theorem test_intEntry_agg : nextIs (exec (.intEntry 2) { base with
      apend := 0b0100, bank := { base.bank with irqEnable := .val 4 } }) (fun t => t.trace == [.intAck .l2 2] && t.apend == 0b0100 &&
      t.pc == 0x0122)
    = true := by
  decide

theorem test_idle : nextIs (exec .idle base) (fun t => t.pc == 0 && t.trace == []) = true := by decide

/-- R160, R161. -/
theorem test_acWrite : nextIs (exec (.acWrite 2 0xBEEF) base) (fun t => t.ac == #v[.undef, .undef, .val 0xBEEF, .undef]) = true := by
  decide
theorem test_acRead : nextIs (exec (.acRead 2) { base with ac := #v[.undef, .undef, .val 0xBEEF, .undef] })
    (fun t => t.result == .word 0xBEEF) = true ∧ faultIs (exec (.acRead 3) base) (.readUndefined .ac 3) (fun _ => true) = true := by
  decide

theorem test_pcWrite : nextIs (exec (.pcWrite 0x0200) base) (fun t => t.npc == some 0x0200 && t.pc == 0) = true := by decide

theorem test_frRead : nextIs (exec .frRead State.reset) (fun t => t.result == .word 0x8001) = true := by decide

/-- L2-F, rows 1 and 7. -/
theorem test_frWrite : nextIs (exec (.frWrite 0x0800) State.reset) (fun t => t.trace == [.flagOut 0 true] && t.fr == 0x8801) = true ∧
    nextIs (exec (.frWrite 0x3000) { base with fr := 0x9801 })
      (fun t => t.trace == [.flagOut 0 false, .flagOut 2 true] && t.fr == 0xB001) = true := by
  decide

theorem test_spRead : nextIs (exec .spRead { base with sp := 9 }) (fun t => t.result == .word 9) = true := by decide

/-- L2-S: the clamp's table and the vectors with high bits. -/
theorem test_spWrite : ([(0x1A, 0), (0x23, 3), (0xFF, 9), (0x10, 0), (0x19, 9), (0x0B, 9), (0x0C, 0), (0x0D, 9), (0x0E, 0), (0x0A, 0)]
    : List (BitVec 8 × BitVec 4)).all (fun p => nextIs (exec (.spWrite p.1) base) (fun t => t.sp == p.2)) = true := by
  decide

/-- L2-S. -/
theorem test_stackPush : nextIs (exec (.stackPush 0x1111) base)
      (fun t => t.stk.get 0 == .val 0x1111 && t.sp == 1 && !t.pending.l1) = true ∧
    nextIs (exec (.stackPush 0x2222) { base with sp := 9 })
      (fun t => t.stk.get 9 == .val 0x2222 && t.sp == 0 && t.pending.l1) = true := by
  decide

/-- L2-S: an underflow that reads slot 9, and one that finds it `Undefined`. -/
theorem test_stackPop : nextIs (exec .stackPop { base with stk := base.stk.set 9 (.val 0x2222) })
      (fun t => t.pending.l1 && t.sp == 9 && t.result == .word 0x2222) = true ∧
    faultIs (exec .stackPop base) (.readUndefined .stk 9) (fun t => t.pending.l1 && t.sp == 9) = true := by
  decide

/-- L2-I: RETI. -/
theorem test_intReturn : nextIs (exec (.instr 0x8000) { base with sp := 3, stk := base.stk.set 2 (.val 0x0123), fr := 0x8009 })
      (fun t => t.sp == 2 && t.pc == 0x0123 && t.fr == 0x8209) = true ∧
    nextIs (exec .intReturn { base with sp := 3, stk := base.stk.set 2 (.val 0x0123), fr := 0x8009 })
      (fun t => t.sp == 2 && t.npc == some 0x0123 && t.fr == 0x8209) = true := by
  decide

/-- R142, R103. -/
theorem test_jcRead : nextIs (exec (.jcRead 2) base) (fun t => t.draws == 1) = true ∧
    refusedIs (exec (.jcRead 3) base) .refusedOperand = true := by
  decide

/-- L2-M: MemRead, MemWrite of a word; the window is reached at 0x7000 and left at 0x7100. -/
theorem test_memWrite16 : nextIs (exec (.memWrite16 0x2000 0x5678) base)
      (fun t => t.mem == [(0x4000, 0x78), (0x4001, 0x56)]) = true ∧
    nextIs (exec (.memWrite16 0x7000 0x0003) base) (fun t => t.bank.bankCtrl == .val 3 && t.mem == []) = true := by
  decide
theorem test_memRead16 : nextIs (exec (.memRead16 0x2000) (boot 0x2000 [0xABCD])) (fun t => t.result == .word 0xABCD) = true ∧
    nextIs (exec (.memRead16 0x7100) (boot 0x7100 [0xABCD])) (fun t => t.result == .word 0xABCD) = true := by
  decide

/-- L2-M: the lanes, the window, and the last byte. -/
theorem test_memRead8 : nextIs (exec (.memRead8 0x04001) (boot 0x2000 [0xABCD])) (fun t => t.result == .byte 0xAB) = true ∧
    nextIs (exec (.memRead8 0x1FFFF) (boot 0xFFFF [0x9A00])) (fun t => t.result == .byte 0x9A) = true := by
  decide
theorem test_memRead8_window : faultIs (exec (.memRead8 0x0E000) base) (.periphByteAccess 0x0E000) (fun _ => true) = true := by
  decide
theorem test_memWrite8 : nextIs (exec (.memWrite8 0x04001 0x12) (boot 0x2000 [0xABCD]))
    (fun t => t.mem == [(0x4000, 0xCD), (0x4001, 0x12)]) = true := by
  decide

/-- R79, R78. -/
theorem test_fetch : nextIs (exec (.fetch 0x0010) (boot 0x0010 [0x1020])) (fun t => t.result == .word 0x1020) = true ∧
    faultIs (exec (.fetch 0x70FF) base) (.fetchFromWindow 0x70FF) (fun _ => true) = true := by
  decide

/-- L2-B: the sentinel, RND_STATUS, and a register never written. -/
theorem test_periphRead : nextIs (exec (.periphRead 0xFF) base) (fun t => t.result == .word 0xFFFF) = true ∧
    nextIs (exec (.periphRead 0x01) base) (fun t => t.result == .word 0x5A5A) = true := by
  decide
theorem test_periphRead_undefined : faultIs (exec (.periphRead 0x00) base) (.readUndefined .periph 0x00) (fun _ => true) = true := by
  decide

/-- L2-B: a port, the wait-mode register. -/
theorem test_periphWrite : nextIs (exec (.periphWrite 0x30 0x00FF) base)
      (fun t => t.trace == [.portOut .a 0x00FF] && t.bank.portA == .val 0x00FF) = true ∧
    nextIs (exec (.periphWrite 0x60 0xABCD) base) (fun t => t.waiting && t.bank.waitEnter == .val 0xABCD) = true := by
  decide

/-- R209: IRQ_ACK; L2-D: DMA_TRIGGER with channel bits 7. -/
theorem test_periphWrite_actions : nextIs (exec (.periphWrite 0x71 0x0001) { base with apend := 0b0101 })
      (fun t => t.apend == 0b0100 && t.bank.irqAck == .val 1) = true ∧
    nextIs (exec (.periphWrite 0x20 0x0007) base) (fun t => t.bank.dmaTrigger == .val 7 && t.dma == base.dma && t.trace == []) = true := by
  decide

/-- R241, R242. -/
theorem test_dmaWriteParam : nextIs (exec (.dmaWriteParam 3 1 0x0010) base)
    (fun t => (t.dma.get 3).p1 == .val 0x0010 && (t.dma.get 3).p0 == .undef && (t.dma.get 2).p1 == .undef) = true := by
  decide
theorem test_dmaReadParam : faultIs (exec (.dmaReadParam 4 0) base) (.readUndefined .periph 0x18) (fun _ => true) = true ∧
    nextIs (exec (.dmaReadParam 6 1) { base with dma := base.dma.set 6 { base.dma.get 6 with p1 := .val 0x1655 } })
      (fun t => t.result == .word 0x1655) = true := by
  decide

/-- L2-D: a zero-length transfer completes; a transfer into the window faults at its second word. -/
theorem test_dmaTrigger : nextIs (exec (.dmaTrigger 3) { base with
      dma := base.dma.set 3 { base.dma.get 3 with p0 := .val 0x2000, p1 := .val 0 } })
      (fun t => t.trace == [.nandRead 3 0] && t.mem == [] && (t.dma.get 3).done && !(t.dma.get 3).busy && t.apend == 0b0100) = true ∧
    faultIs (exec (.dmaTrigger 2) { base with dma := base.dma.set 2 { base.dma.get 2 with p0 := .val 0x6FFF, p1 := .val 2 } })
      (.dmaIntoWindow 2 0x7000) (fun t => (t.dma.get 2).busy && !(t.dma.get 2).done) = true := by
  decide

/-- L1-9: a busy channel rejects its trigger. -/
theorem test_dmaTrigger_busy : nextIs (exec (.dmaTrigger 3) { base with
      dma := base.dma.set 3 { p0 := .val 0x2000, p1 := .val 2, busy := true, done := false, err := false } })
    (fun t => t.dma.get 3 == { p0 := .val 0x2000, p1 := .val 2, busy := true, done := false, err := true } && t.trace == [] &&
      t.apend == 0) = true := by
  decide

/-- R245: the target and the count are those of the DMA_XFER_LOHI the machine was given. -/
theorem test_dmaTrigger_loHi : faultIs (exec (.dmaTrigger 3) { base with
      cfg := { fix with dmaLayout := .addrLoHi, dmaXferLoHi := { addr := .not (.var 0), count := [.sub (.var 1) (.var 0)] } }
      dma := base.dma.set 3 { base.dma.get 3 with p0 := .val 0x8FFF, p1 := .val 0x9002 } })
    (.dmaIntoWindow 3 0x7000) (fun t => t.trace == [.nandRead 3 3]) = true := by
  decide

/-- A CS_MAP for the test of CS_RECOMPUTE. -/
def testMap : CsMap where
  r0 := ⟨.var 0, .add (.var 0) (.var 1)⟩
  r1 := ⟨.var 1, .lit 1⟩
  r2 := ⟨.lit 2, .lit 2⟩
  r3 := ⟨.lit 3, .var 0⟩
  r4 := ⟨.sub (.var 0) (.var 1), .lit 4⟩

/-- R221: one event, with the regions the machine's CS_MAP gives of CS_BASE and CS_CTRL. -/
theorem test_csRecompute : nextIs (exec .csRecompute { base with
      cfg := { fix with csBase := 0x4000, csMap := testMap }, bank := { base.bank with csCtrl := .val 0x0010 } })
    (fun t => t.csRegions == some ⟨⟨0x4000, 0x4010⟩, ⟨0x0010, 1⟩, ⟨2, 2⟩, ⟨3, 0x4000⟩, ⟨0x3FF0, 4⟩⟩ &&
      t.trace == (t.csRegions.map Event.csRemap).toList) = true := by
  decide

/-- L2-I: the vectors. -/
theorem test_aggVectorFetch : ([(0b0110, 0x000F, 1), (0b0110, 0x0004, 2), (0b1001, 0x0009, 0)]
    : List (BitVec 4 × Word × Word)).all (fun p =>
      nextIs (exec .aggVectorFetch { base with apend := p.1, bank := { base.bank with irqEnable := .val p.2.1 } })
        (fun t => t.result == .word p.2.2 && t.draws == 0)) = true := by
  decide

theorem test_waitEnter : nextIs (exec .waitEnter base) (fun t => t.waiting) = true := by decide

/-- L2-I: arbitration. -/
theorem test_arbitrate :
    ([(0x8001, { noPending with l3 := true }, false, none), (0x8209, { noPending with l3 := true, l4 := true }, false, some .l3),
      (0x8211, { noPending with l3 := true, l4 := true }, false, some .l4),
      (0x8001, { noPending with l0 := true, l3 := true }, false, some .l0), (0x823F, { noPending with l1 := true }, true, some .l1),
      (0x803F, { noPending with l1 := true, l3 := true }, true, none), (0x823F, noPending, true, some .l2),
      (0x823B, noPending, true, none), (0x823F, { noPending with l5 := true }, true, some .l2)]
      : List (Word × Pending × Bool × Option Level)).all (fun p =>
        arbitrate { base with
          fr := p.1, pending := p.2.1, apend := 1, bank := { base.bank with irqEnable := .val (if p.2.2.1 then 1 else 0) } }
          == p.2.2.2) = true := by
  decide

/-! ## Fetching and running the first instruction -/

/-- A record, and a CPU word, run as the first instruction after reset (log entries 25 and 26). -/
theorem test_withFetchWord :
    nextIs (step (State.reset.withFetchWord 24 0x080024)) (fun t => t.fr == 0x8801) = true ∧
    nextIs (step ({ base with mem := [] }.withFetchWord 16 0x8000)) (fun _ => true) = false ∧
    nextIs (step ({ base with sp := 1, stk := base.stk.set 0 (.val 0x0123) }.withFetchWord 16 0x8000))
      (fun t => t.pc == 0x0123) = true := by
  decide

/-- From State.reset with nothing placed, the first step is an unmodelled word at 0x0000 (log entry 26). -/
theorem test_step_reset : faultIs (step State.reset) (.unmodelled 0x0000 0x0000) (fun t => t.pc == 0) = true := by decide

/-! ## EXTRA_REGS (R217) -/

/-- A configuration with a register that overrides BANK_CTRL: it stores, and its action pushes the written value. -/
def fixExtra : Config := { fix with extraRegs := [⟨0x00, .trigger, .done .word, .call (.isa (.stackPush .word)) (.done ())⟩] }

theorem test_extra : configOk fixExtra = true ∧
    nextIs (exec (.periphWrite 0x00 0x1234) { base with cfg := fixExtra, bank := resetBank fixExtra })
      (fun t => t.bank.extra == [.val 0x1234] && t.bank.bankCtrl == .undef && t.stk.get 0 == .val 0x1234) = true := by
  decide

/-- Three entries: the action of the first writes the window word of the second, and the third reads that word. -/
def fixNested : Config := { fix with extraRegs :=
  [⟨0x00, .trigger, .done .word, .call (.isa (.memWrite16 (.lit 0x7090) .word)) (.done ())⟩,
   ⟨0x90, .storage, .done .word, .done ()⟩,
   ⟨0x91, .computed, .call (.memRead16 (.lit 0x7090)) (.done (.add (.var 0) (.lit 1))), .done ()⟩] }

/-- An action that causes another, and a read function that reads another entry. -/
theorem test_extra_nested :
    nextIs (exec (.periphWrite 0x00 0x1234) { base with cfg := fixNested, bank := resetBank fixNested })
      (fun t => t.bank.extra == [.val 0x1234, .val 0x1234, .undef] &&
        nextIs (exec (.periphRead 0x91) t) (fun u => u.result == .word 0x1235)) = true := by
  decide

/-- An action that writes its own register again, with one less, until it is 0 (log entry 18). -/
theorem test_extra_recursive :
    let cfg : Config := { fix with extraRegs := [⟨0x90, .trigger, .done .word,
      .cond .word (.call (.regWrite (.extra 0) (.sub .word (.lit 1))) (.done ())) (.done ())⟩] }
    nextIs (exec (.periphWrite 0x90 3) { base with cfg := cfg, bank := resetBank cfg }) (fun t => t.bank.extra == [.val 0])
      = true := by
  decide

/-- FETCH in an action (R79), the 0 of a call that returns nothing (log entry 17), and a read of SP before the first RESET
(spec/10_state.md R37). -/
theorem test_extra_primitives :
    (let cfg : Config := { fix with extraRegs := [⟨0x90, .computed, .call (.fetch (.lit 0x2000)) (.done (.var 0)), .done ()⟩,
       ⟨0x91, .trigger, .call .spRead (.done (.var 0)),
         .call (.isa .intReturn) (.call (.isa (.acWrite (.lit 1) (.var 0))) (.done ()))⟩] }
     let s : State := { boot 0x2000 [0xABCD] with
       cfg := cfg, bank := resetBank cfg, sp := 1, stk := base.stk.set 0 (.val 0x0123) }
     nextIs (exec (.periphRead 0x90) s) (fun t => t.result == .word 0xABCD) = true ∧
     nextIs (exec (.periphWrite 0x91 5) s) (fun t => t.npc == some 0x0123 && t.ac.get 1 == .val 0) = true ∧
     refusedIs (exec (.periphRead 0x91) { s with resetDone := false }) .notYetReset = true) := by
  decide

/-- R326, R327: a snapshot may hold IRQ_ENABLE as `Undefined`; its read then faults (R201). -/
theorem test_restore_undefined_enable :
    nextIs (exec (.restore { takeSnapshot base with periph := (takeSnapshot base).periph.map fun _ => .undef }) base)
      (fun t => t.bank.irqEnable == .undef && faultIs (exec (.periphRead 0x72) t) (.readUndefined .periph 0x72) fun _ => true)
      = true := by
  decide

/-! ## Witnesses: for every obligation with hypotheses, states and operands that meet them -/

/-- The fixture with one word of each kind: ROM at 0x0000..0x00FF, IO at 0x8000..0x80FF, RAM elsewhere. -/
def fixKinds : Config :=
  { fix with memKinds := [⟨0x0000, 0x00FF, .rom⟩, ⟨0x8000, 0x80FF, .io⟩], memInit := [(0x1FE, 0xCD), (0x1FF, 0xAB)] }

/-- A machine of that configuration. -/
def kinds : State := { base with cfg := fixKinds }

theorem running_base : Running base := ⟨rfl, rfl⟩

theorem shaped_base : BankShaped base := resetBank_shaped rfl

theorem inv_base : Inv base :=
  ⟨by unfold FlagsHardwired; decide, by unfold StackPointerInRange; decide, rfl, shaped_base⟩

/-- A faulted machine. -/
def faulted : State := { base with fault := some (.unmodelled 0 0) }

theorem witness_RecordsDecodeToTheirInstruction :
    (Instr.restore (takeSnapshot base)).wellFormed = true ∧ (∀ w, Instr.restore (takeSnapshot base) ≠ .cpuWord w) ∧
    (Instr.dmaWriteParam 6 1 0xFFFF).wellFormed = true ∧ ∀ w, Instr.dmaWriteParam 6 1 0xFFFF ≠ .cpuWord w := by
  refine ⟨by decide, nofun, by decide, nofun⟩

theorem witness_DecodedBytesAreTheRecord :
    decodeRecord [0x21#8, 0xFF#8, 0xFF#8, 0x03#8, 0x13#8] = .ok (.acWrite 3 0xFFFF, [0x13#8]) := by decide

theorem witness_OtherSelectorsAreRefused :
    ∀ sel ∈ [0x08#8, 0x0F#8, 0x14#8, 0x2B#8, 0x35#8, 0x42#8, 0x53#8, 0x61#8, 0x72#8, 0xFF#8],
      sel.toNat ∉ [0x00, 0x01, 0x02, 0x03, 0x04, 0x05, 0x06, 0x07, 0x10, 0x11, 0x12, 0x13,
                   0x20, 0x21, 0x22, 0x23, 0x24, 0x25, 0x26, 0x27, 0x28, 0x29, 0x2A,
                   0x30, 0x31, 0x32, 0x33, 0x34, 0x40, 0x41, 0x50, 0x51, 0x52, 0x60, 0x70, 0x71] ∧
      ({ base with inbox := [sel] } : State).inbox = sel :: [] := by
  decide

/-- The boundary operand of each clause, and a machine that runs. -/
theorem witness_OperandsThatNameNothingAreRefused :
    6 ≤ (6#3).toNat ∧ 6 ≤ (7#3).toNat ∧ 17 ≤ (17#5).toNat ∧ 17 ≤ (31#5).toNat ∧ Running base :=
  ⟨by decide, by decide, by decide, by decide, running_base⟩

theorem witness_StepPerformsTheFirstRecord :
    decodeRecord ({ base with inbox := [0x13#8, 0x24#8] } : State).inbox = .ok (.idle, [0x24#8]) := by decide

theorem witness_StepExecutesTheWordAtPc :
    base.inbox = [] ∧ Running base ∧ arbitrate base = none ∧ base.waiting = false ∧
    ∃ w t, fetchWord base.pc { base with trace := base.trace ++ [.debugHook base.pc] } = .ok w t :=
  ⟨rfl, running_base, by decide, rfl, _, _, rfl⟩

theorem witness_FaultedMachineOnlyReads :
    faulted.fault ≠ none ∧ faulted.resetDone = true ∧ (16#5).toNat ≤ 16 ∧ (∀ f, Instr.reset 0 ≠ .dbgRead f) ∧
    Instr.reset 0 ≠ .save :=
  ⟨by decide, rfl, by decide, nofun, by decide⟩

theorem witness_NothingRunsBeforeReset : (constructed fix).resetDone = false ∧ (constructed fix).fault = none := ⟨rfl, rfl⟩

theorem witness_FaultsAreRecorded : ∃ left, exec (.acRead 3) base = .fault (.raised (.readUndefined .ac 3) left) := ⟨_, rfl⟩

/-- Both clauses: a faulted machine, and one that is not; registers of each kind. -/
theorem witness_ResetSetsTheStatedValues :
    faulted.fault ≠ none ∧ base.fault = none ∧ Reg.rsv 1 ∈ baseRegs base.cfg ∧ Reg.dmaP 6 .p1 ∈ baseRegs base.cfg ∧
    baseKind (.rsv 1) ≠ .computed ∧ baseKind (.dmaP 6 .p1) ≠ .computed ∧ 0 < fixExtra.extraRegs.length := by
  decide

/-- The only hypothesis of FlagWriteCallsBackAndCommits, StackPointerWriteClamps, SignalsLatchOnTheRisingEdge,
SourcesLatchOnTheRisingEdge and VectorNamesTheFirstSource is that the machine has not faulted; their clauses' operands are
covered by the tests of FR_WRITE, SP_WRITE, SIGNAL_INT, AGG_LINE and AGG_VECTOR_FETCH. -/
theorem witness_FlagWriteCallsBackAndCommits : base.fault = none := rfl

theorem witness_StackPointerWriteClamps : base.fault = none := rfl

theorem witness_PlainPrimitivesComplete : Running base ∧ (2#2).toNat ≤ 2 := ⟨running_base, by decide⟩

/-- SP at both ends of its range. -/
theorem witness_PushStoresAndMovesUp : Running { base with sp := 9 } ∧ StackPointerInRange { base with sp := 9 } ∧
    Running base ∧ StackPointerInRange base :=
  ⟨⟨rfl, rfl⟩, by unfold StackPointerInRange; decide, running_base, inv_base.sp⟩

/-- SP = 0, where the popped slot 9 is `Undefined`; and SP = 9, where slot 8 holds a word. -/
theorem witness_PopMovesDownAndReturns :
    (Running base ∧ StackPointerInRange base ∧ base.stk.get 9 = .undef ∧ (base.sp.toNat + 9) % 10 = 9) ∧
    (Running { base with sp := 9 } ∧ StackPointerInRange { base with sp := 9 } ∧
      (base.stk.set 8 (.val 1)).get 8 = .val 1) :=
  ⟨⟨running_base, inv_base.sp, by decide, by decide⟩, ⟨rfl, rfl⟩, by unfold StackPointerInRange; decide, by decide⟩

theorem witness_StackPointerIsARingOfTen : Running base ∧ StackPointerInRange base ∧ (9#8).toNat < 10 ∧
    (List.replicate 10 (7 : Word)).length = 10 :=
  ⟨running_base, inv_base.sp, by decide, by decide⟩

theorem witness_AccumulatorsReadBack : base.fault = none ∧ base.ac.get (acIndex 3) = .undef ∧
    (base.ac.set 3 (.val 5)).get (acIndex 3) = .val 5 := by
  decide

/-- A field for each clause, at the ends of its range; a machine that has not faulted and one that has. -/
theorem witness_DebuggerWritesThenReads : base.fault = none ∧ faulted.fault ≠ none ∧ base.resetDone = true ∧
    faulted.resetDone = true ∧ 17 ≤ (17#5).toNat ∧ 17 ≤ (31#5).toNat ∧
    (2#5).toNat = 2 + (0 : Fin 4).val ∧ (5#5).toNat = 2 + (3 : Fin 4).val ∧
    (7#5).toNat = 7 + (0 : Fin 10).val ∧ (16#5).toNat = 7 + (9 : Fin 10).val := by
  decide

/-- A word of each kind, at the edges of the ranges and of the window. -/
theorem witness_WordWritesReachExternalMemory : kinds.fault = none ∧ MemoryCanonical kinds ∧
    (decodeAddr kinds.cfg 0x6FFF = .external ∧ memKind kinds.cfg 0x6FFF = .ram) ∧
    (decodeAddr kinds.cfg 0xFFFF = .external ∧ memKind kinds.cfg 0xFFFF = .ram) ∧
    (decodeAddr kinds.cfg 0x00FF = .external ∧ memKind kinds.cfg 0x00FF = .rom) ∧
    (decodeAddr kinds.cfg 0x8000 = .external ∧ memKind kinds.cfg 0x8000 = .io) :=
  ⟨rfl, rfl, by decide, by decide, by decide, by decide⟩

theorem witness_WordReadsOfExternalMemory : kinds.fault = none ∧
    (decodeAddr kinds.cfg 0x7100 = .external ∧ memKind kinds.cfg 0x7100 = .ram ∧ (0x0E201#17).toNat / 2 = (0x7100#16).toNat) ∧
    (decodeAddr kinds.cfg 0x0000 = .external ∧ memKind kinds.cfg 0x0000 = .rom ∧ (0x00001#17).toNat / 2 = (0x0000#16).toNat) ∧
    (decodeAddr kinds.cfg 0x80FF = .external ∧ memKind kinds.cfg 0x80FF = .io ∧ (0x101FE#17).toNat / 2 = (0x80FF#16).toNat) := by
  decide

theorem witness_ByteWritesReachTheirLane : kinds.fault = none ∧ MemoryCanonical kinds ∧
    (decodeAddr kinds.cfg (wordOfByteAddr 0x1FFFF) = .external ∧ memKind kinds.cfg (wordOfByteAddr 0x1FFFF) = .ram) ∧
    (decodeAddr kinds.cfg (wordOfByteAddr 0x001FF) = .external ∧ memKind kinds.cfg (wordOfByteAddr 0x001FF) = .rom) ∧
    (decodeAddr kinds.cfg (wordOfByteAddr 0x10000) = .external ∧ memKind kinds.cfg (wordOfByteAddr 0x10000) = .io) :=
  ⟨rfl, rfl, by decide, by decide, by decide⟩

/-- The first and the last byte and word of the window. -/
theorem witness_WindowBytesAndFetchesFault : base.fault = none ∧
    decodeAddr base.cfg (wordOfByteAddr 0x0E000) = .window 0 ∧ decodeAddr base.cfg (wordOfByteAddr 0x0E1FF) = .window 0xFF ∧
    decodeAddr base.cfg 0x7000 = .window 0 ∧ decodeAddr base.cfg 0x70FF = .window 0xFF ∧
    ∀ pc : Word, pc = 0x7000 ∨ pc = 0x70FF →
      ({ base with pc := pc } : State).resetDone = true ∧ arbitrate { base with pc := pc } = none ∧
        ({ base with pc := pc } : State).waiting = false := by
  refine ⟨by decide, by decide, by decide, by decide, by decide, ?_⟩
  rintro pc (rfl | rfl) <;> decide

/-- The first and the last word of the window, and the words beside it. -/
theorem witness_WindowAccessesReachTheBank :
    (base.cfg.periphBase.toNat ≤ (0x7000#16).toNat ∧ (0x7000#16).toNat < base.cfg.periphBase.toNat + base.cfg.periphSize) ∧
    (base.cfg.periphBase.toNat ≤ (0x70FF#16).toNat ∧ (0x70FF#16).toNat < base.cfg.periphBase.toNat + base.cfg.periphSize) ∧
    (0x6FFF#16).toNat < base.cfg.periphBase.toNat ∧ base.cfg.periphBase.toNat + base.cfg.periphSize ≤ (0x7100#16).toNat := by
  decide

theorem witness_UnmappedOffsetsAreInert : base.fault = none ∧ lookup base.cfg 0xFF = .unmapped ∧
    lookup base.cfg 0x02 = .unmapped := by
  decide

/-- The last reserved and the last parameter register: their offsets are theirs alone, and no entry has them. -/
theorem witness_UnmappedOffsetsAreInert_offsets : ∀ r off, (r, off) ∈ [(Reg.rsv 1, 0x81#16), (Reg.dmaP 6 .p1, 0x1D#16)] →
    configOk fix = true ∧ OffsetIs fix r off ∧ (∀ q, OffsetIs fix q off → q = r) ∧ ∀ e ∈ fix.extraRegs, e.off ≠ off := by
  have unique : ∀ p ∈ [(Reg.rsv 1, 0x81#16), (Reg.dmaP 6 .p1, 0x1D#16)], ∀ q ∈ baseRegs fix,
      regOffset fix q = p.2 → q = p.1 := by decide
  intro r off h
  refine ⟨by decide, ?_, fun q hq => ?_, nofun⟩
  · simp only [List.mem_cons, Prod.mk.injEq, List.not_mem_nil, or_false] at h
    rcases h with ⟨rfl, rfl⟩ | ⟨rfl, rfl⟩ <;> rfl
  · obtain ⟨h1, h2⟩ := offsetIs_iff.mp hq
    exact unique (r, off) h q h1 h2

/-- A storage register, a trigger register, DMA_TRIGGER with a channel that it may be written here, and a register that
holds a word and one that does not. -/
theorem witness_RegistersReadBack : base.fault = none ∧ BankShaped base ∧
    (lookup base.cfg 0x81 = .base (.rsv 1) ∧ baseKind (.rsv 1) ≠ .computed) ∧
    (lookup base.cfg 0x1D = .base (.dmaP 6 .p1) ∧ baseKind (.dmaP 6 .p1) ≠ .computed) ∧
    (lookup base.cfg 0x71 = .base .irqAck ∧ baseKind .irqAck ≠ .computed) ∧
    (lookup base.cfg 0x20 = .base .dmaTrigger ∧ (0xFFFF#16).toNat % 8 = 7) ∧
    getReg .irqEnable base = .val 0 ∧ getReg .irqAck base = .undef :=
  ⟨rfl, shaped_base, by decide, by decide, by decide, by decide, by decide, by decide⟩

/-- An offset for each clause. -/
theorem witness_RegisterWritesAct : base.fault = none ∧ lookup base.cfg 0x00 = .base .bankCtrl ∧
    lookup base.cfg 0x80 = .base (.rsv 0) ∧ lookup base.cfg 0x30 = .base .portA ∧ lookup base.cfg 0x31 = .base .portB ∧
    lookup base.cfg 0x40 = .base .nandCmd ∧ lookup base.cfg 0x41 = .base .nandAddrLo ∧
    lookup base.cfg 0x42 = .base .nandAddrHi ∧ lookup base.cfg 0x50 = .base .csCtrl ∧
    lookup base.cfg 0x60 = .base .waitEnter ∧ lookup base.cfg 0x71 = .base .irqAck ∧
    lookup base.cfg 0x72 = .base .irqEnable ∧ lookup base.cfg 0x01 = .base .rndStatus ∧
    lookup base.cfg 0x21 = .base .dmaStatus ∧ lookup base.cfg 0x70 = .base .irqStatus ∧
    lookup base.cfg 0x10 = .base (.dmaP 0 .p0) ∧ lookup base.cfg 0x1D = .base (.dmaP 6 .p1) := by
  decide

theorem witness_ComputedRegistersRead : base.fault = none ∧ lookup base.cfg 0x70 = .base .irqStatus ∧
    lookup base.cfg 0x21 = .base .dmaStatus ∧ (lookup base.cfg 0x01 = .base .rndStatus ∧ base.cfg.nondetMode = .fixed) ∧
    (lookup State.reset.cfg 0x01 = .base .rndStatus ∧ State.reset.cfg.nondetMode = .draw) ∧
    lookup base.cfg 0x30 = .base .portA ∧ lookup base.cfg 0x31 = .base .portB := by
  decide

/-- An entry of each kind over the base register at offset 0. -/
def fixExtraOf (k : RegKind) : Config := { fix with extraRegs := [⟨0x00, k, .done (.lit 7), .done ()⟩] }

theorem witness_ExtraRegistersOverride : ∀ k : RegKind,
    let s : State := { base with cfg := fixExtraOf k, bank := resetBank (fixExtraOf k) }
    s.fault = none ∧ BankShaped s ∧
      s.cfg.extraRegs[0]? = some ⟨0x00, k, .done (.lit 7), .done ()⟩ ∧ (fixExtraOf k).extraRegs.length = 1 := by
  intro k
  exact ⟨rfl, resetBank_shaped rfl, by cases k <;> rfl, by cases k <;> rfl⟩

/-- The two entries of the nested clause, at the ends of its ranges (entries 0 and 1, offsets 0x00 and 0x90). -/
theorem witness_ExtraRegistersOverride_nested :
    let s : State := { base with cfg := fixNested, bank := resetBank fixNested }
    s.fault = none ∧ BankShaped s ∧ s.cfg.extraRegs[0]? = some ⟨0x00, .trigger, .done .word,
        .call (.isa (.memWrite16 (.lit (s.cfg.periphBase + 0x90)) .word)) (.done ())⟩ ∧
      s.cfg.extraRegs[1]? = some ⟨0x90, .storage, .done .word, .done ()⟩ ∧ (0x90#16).toNat < s.cfg.periphSize ∧
      s.cfg.periphBase.toNat + s.cfg.periphSize ≤ 65536 ∧
      ∀ j e', j < 1 → s.cfg.extraRegs[j]? = some e' → e'.off ≠ 0x90 := by
  refine ⟨rfl, resetBank_shaped rfl, rfl, rfl, by decide, by decide, fun j e' hj he => ?_⟩
  obtain rfl : j = 0 := by omega
  cases he
  decide

/-- An entry whose action pushes the written value, and ends. -/
theorem witness_ExtraRegistersOverride_action :
    let e : ExtraReg := ⟨0x00, .trigger, .done .word, .call (.isa (.stackPush .word)) (.done ())⟩
    let s : State := { base with cfg := fixExtra, bank := resetBank fixExtra }
    s.fault = none ∧ BankShaped s ∧ s.cfg.extraRegs[0]? = some e ∧
      ∃ sc t, runProg (performBank actionWrite) e.write { pc := 0x00, word := 0xFFFF, vals := [] }
        { s with bank := { s.bank with extra := s.bank.extra.set 0 (.val 0xFFFF) } } = .ok ((), sc) t :=
  ⟨rfl, resetBank_shaped rfl, rfl, _, _, rfl⟩

/-- Calls of an action that are operations: an access to external memory, one to a base register, one that faults and one that
is refused; and calls of a read function. -/
theorem witness_ExtraRegistersOverride_calls : let sc : Scope := { pc := 0, word := 0xFFFF, vals := [] }
    Running base ∧
    (∃ t, actionInstr (.isa (.memWrite16 (.lit 0x6FFF) .word)) sc base = some (.memWrite16 0x6FFF 0xFFFF) ∧
      exec (.memWrite16 0x6FFF 0xFFFF) base = .next t) ∧
    (∃ t, actionInstr (.regWrite .waitEnter .word) sc base = some (.periphWrite 0x60 0xFFFF) ∧
      exec (.periphWrite 0x60 0xFFFF) base = .next t) ∧
    (∃ f, actionInstr (.dmaTrigger 6) sc base = some (.dmaTrigger 6) ∧ exec (.dmaTrigger 6) base = .fault f) ∧
    (actionInstr (.isa (.jcRead .word)) sc base = some (.jcRead 3) ∧ exec (.jcRead 3) base = .refused .refusedOperand) :=
  ⟨running_base, ⟨_, rfl, rfl⟩, ⟨_, rfl, rfl⟩, ⟨_, rfl, rfl⟩, rfl, rfl⟩

theorem witness_ExtraRegistersRead_calls : let sc : Scope := { pc := 0, word := 0, vals := [] }
    Running base ∧
    (∃ q t, readCall (.regRead .irqStatus) = some q ∧ actionInstr q sc base = some (.periphRead 0x70) ∧
      exec (.periphRead 0x70) base = .next t) ∧
    (∃ q f, readCall (.acRead (.lit 3)) = some q ∧ actionInstr q sc base = some (.acRead 3) ∧
      exec (.acRead 3) base = .fault f) ∧
    (∃ q, readCall (.jcRead (.lit 3)) = some q ∧ actionInstr q sc base = some (.jcRead 3) ∧
      exec (.jcRead 3) base = .refused .refusedOperand) ∧
    (let e : ExtraReg := ⟨0x00, .computed, .call .draw (.done (.var 0)), .done ()⟩
     let cfg : Config := { fix with extraRegs := [e] }
     let s : State := { base with cfg := cfg, bank := resetBank cfg }
     s.fault = none ∧ BankShaped s ∧ s.cfg.extraRegs[0]? = some e ∧ e.kind ≠ .storage) :=
  ⟨running_base, ⟨_, _, rfl, rfl, rfl⟩, ⟨_, _, rfl, rfl, rfl⟩, ⟨_, rfl, rfl, rfl⟩, rfl, resetBank_shaped rfl, rfl, by decide⟩

/-- A storage entry that holds a word, a trigger entry that reads its own value and holds none, and read functions of a computed
entry: an expression, and a program that ends. -/
theorem witness_ExtraRegistersRead :
    (let s : State := { base with cfg := fixExtraOf .storage, bank := { resetBank (fixExtraOf .storage) with extra := [.val 3] } }
     s.fault = none ∧ BankShaped s ∧ getReg (.extra 0) s = .val 3) ∧
    (let cfg : Config := { fix with extraRegs := [⟨0xFF, .trigger, .call .stored (.done (.var 0)), .done ()⟩] }
     let s : State := { base with cfg := cfg, bank := resetBank cfg }
     s.fault = none ∧ BankShaped s ∧ s.cfg.extraRegs[0]? = some ⟨0xFF, .trigger, .call .stored (.done (.var 0)), .done ()⟩ ∧
       getReg (.extra 0) s = .undef) ∧
    (fixExtraOf .computed).extraRegs[0]? = some ⟨0x00, .computed, .done (.lit 7), .done ()⟩ ∧
    (let e : ExtraReg := ⟨0x00, .computed, .call .frRead (.done (.var 0)), .done ()⟩
     let cfg : Config := { fix with extraRegs := [e] }
     let s : State := { base with cfg := cfg, bank := resetBank cfg }
     s.fault = none ∧ BankShaped s ∧ s.cfg.extraRegs[0]? = some e ∧
       ∃ sc t, runProg (performRead actionRead (getReg (.extra 0) s)) e.read { pc := 0x00, word := 0, vals := [] } s
         = .ok (.var 0, sc) t) :=
  ⟨⟨rfl, ⟨rfl, rfl, fun k hk hc => by obtain rfl : k = 0 := by { simp [fixExtraOf] at hk; exact hk }
                                      simp [isComputed, fixExtraOf] at hc⟩, rfl⟩,
    ⟨rfl, resetBank_shaped rfl, rfl, rfl⟩, rfl, rfl, resetBank_shaped rfl, rfl, _, _, rfl⟩

/-- Channels 0 and 6; a word that is `Undefined` and one that is not; channel 7. -/
theorem witness_DmaParametersRoundTrip : base.fault = none ∧ (6 : Fin 7).val = (6#3).toNat ∧ (0 : Fin 7).val = (0#3).toNat ∧
    (base.dma.get 6).p0 = .undef ∧
    ((base.dma.set 6 { base.dma.get 6 with p1 := .val 1 }).get 6).p1 = .val 1 := by
  decide

/-- A machine with channel 6 set up. -/
def withDma (ch : Channel) : State := { base with dma := base.dma.set 6 ch }

theorem witness_BusyTriggerIsRejected :
    (withDma { p0 := .undef, p1 := .undef, busy := true, done := false, err := false }).fault = none ∧
    ((withDma { p0 := .undef, p1 := .undef, busy := true, done := false, err := false }).dma.get 6).busy = true ∧
    (6 : Fin 7).val = (6#3).toNat := by
  decide

/-- A block of three words that wraps past 0xFFFF, with a word of each kind. -/
theorem witness_DmaTransferWritesTheBlock :
    let s : State := { withDma { p0 := .val 0xFFFE, p1 := .val 3, busy := false, done := false, err := false } with
      cfg := { fix with memKinds := [⟨0x0000, 0x0000, .rom⟩, ⟨0xFFFF, 0xFFFF, .io⟩] } }
    s.fault = none ∧ MemoryCanonical s ∧ (6 : Fin 7).val = (6#3).toNat ∧ (s.dma.get 6).busy = false ∧
      (s.dma.get 6).p0 = .val 0xFFFE ∧ (s.dma.get 6).p1 = .val 3 ∧ s.cfg.dmaLayout = .addrLen ∧ (3#16).toNat = 3 ∧
      (∀ i, i < 3 → decodeAddr s.cfg (0xFFFE + BitVec.ofNat 16 i) = .external) ∧
      memKind s.cfg (0xFFFE + BitVec.ofNat 16 0) = .ram ∧ memKind s.cfg (0xFFFE + BitVec.ofNat 16 1) = .io ∧
      memKind s.cfg (0xFFFE + BitVec.ofNat 16 2) = .rom ∧
      ∀ j, 0 < j → j < 3 → 0xFFFE + BitVec.ofNat 16 j ≠ 0xFFFE + BitVec.ofNat 16 0 := by
  refine ⟨rfl, rfl, by decide, by decide, by decide, by decide, by decide, by decide, by decide, by decide, by decide, by decide,
    fun j h0 h3 => ?_⟩
  obtain rfl | rfl : j = 1 ∨ j = 2 := by omega
  · decide
  · decide

/-- A block whose word 1 is the first of the window; channels with an `Undefined` parameter word. -/
theorem witness_DmaIntoTheWindowFaults :
    (let s := withDma { p0 := .val 0x6FFF, p1 := .val 2, busy := false, done := false, err := false }
     s.fault = none ∧ MemoryCanonical s ∧ (s.dma.get 6).busy = false ∧ (s.dma.get 6).p0 = .val 0x6FFF ∧
       (s.dma.get 6).p1 = .val 2 ∧ s.cfg.dmaLayout = .addrLen ∧
       (∀ i, i < 1 → decodeAddr s.cfg (0x6FFF + BitVec.ofNat 16 i) = .external) ∧
       memKind s.cfg (0x6FFF + BitVec.ofNat 16 0) = .ram ∧
       decodeAddr s.cfg (0x6FFF + BitVec.ofNat 16 1) = .window 0) ∧
    (base.dma.get 6).p0 = .undef ∧ (base.dma.get 6).busy = false ∧
    (let s := withDma { p0 := .val 1, p1 := .undef, busy := false, done := false, err := false }
     (s.dma.get 6).p0 = .val 1 ∧ (s.dma.get 6).p1 = .undef ∧ (s.dma.get 6).busy = false) :=
  ⟨⟨rfl, rfl, by decide, by decide, by decide, by decide, by decide, by decide, by decide⟩, by decide, by decide, by decide⟩

theorem witness_TriggerRegisterNamesTheChannel : base.fault = none ∧ lookup base.cfg 0x20 = .base .dmaTrigger := by decide

/-- An accepted and a rejected trigger. -/
theorem witness_DmaChannelsAreIndependent :
    (let s := withDma { p0 := .val 0x2000, p1 := .val 1, busy := false, done := false, err := false }
     MemoryCanonical s ∧ (s.dma.get 6).busy = false ∧ ∃ t, exec (.dmaTrigger 6) s = .next t) ∧
    (let s := withDma { p0 := .undef, p1 := .undef, busy := true, done := false, err := false }
     MemoryCanonical s ∧ (s.dma.get 6).busy = true ∧ ∃ t, exec (.dmaTrigger 6) s = .next t) :=
  ⟨⟨rfl, rfl, _, rfl⟩, rfl, rfl, _, rfl⟩

theorem witness_RecomputeAndWaitEnter : base.fault = none ∧
    ({ base with bank := { base.bank with csCtrl := .val 1 } } : State).bank.csCtrl = .val 1 := ⟨rfl, rfl⟩

theorem witness_WaitingMachineIdles : Running { base with waiting := true } ∧ arbitrate { base with waiting := true } = none ∧
    1 ≤ base.cfg.idleCycles :=
  ⟨⟨rfl, rfl⟩, by decide, by decide⟩

theorem witness_WaitEndsOnlyByEntryOrReset : ∃ t, ({ base with waiting := true } : State).waiting = true ∧
    exec (.reset 0) { base with waiting := true } = .next t ∧ t.waiting = false :=
  ⟨_, rfl, rfl, rfl⟩

/-- A step that answers a next state, one that faults, and budgets at the edges of the clauses. -/
theorem witness_RunTakesStepsUntilTheBudgetIsSpent :
    (let s : State := { base with waiting := true }
     Running s ∧ configOk s.cfg = true ∧
       ∃ (n : Nat) (t : State), exec .step s = .next { t with result := .cycles n } ∧ t.result = s.result) ∧
    (Running base ∧ ∃ r left, exec .step base = .fault (.raised r left)) ∧
    (0#32).toInt ≤ 0 ∧ 0 < (1#32).toInt ∧ (0x80000000#32).toInt ≤ 0 := by
  refine ⟨⟨⟨rfl, rfl⟩, by decide, (cycleCost 4 { base with waiting := true }).1,
    (cycleCost 4 { base with waiting := true }).2, rfl, ?_⟩, ⟨running_base, _, _, rfl⟩, by decide, by decide, by decide⟩
  rfl

/-- LDI of T. -/
theorem witness_InstructionsRunTheirProgram : ∃ p n sc t, Running (boot 1 [5]) ∧
    isaExec (boot 1 [5]).cfg (boot 1 [5]).pc 0x1000 = some p ∧
    runProg performInstr p { pc := (boot 1 [5]).pc, word := 0x1000, vals := [] }
      { boot 1 [5] with npc := none, ilen := 1 } = .ok (n, sc) t :=
  ⟨_, _, _, _, ⟨rfl, rfl⟩, rfl, rfl⟩

/-- Calls whose operation completes, faults and is refused. -/
theorem witness_InstructionsRunTheirProgram_calls : let sc : Scope := { pc := 0, word := 0, vals := [] }
    Running base ∧
    (∃ t, exec (primitiveInstr (.stackPush (.lit 0xFFFF)) sc base) (lengthCounted (.stackPush (.lit 0xFFFF)) base) = .next t) ∧
    (∃ t, exec (primitiveInstr (.fetch 2) sc base) (lengthCounted (.fetch 2) base) = .next t ∧ t.ilen = 3) ∧
    (∃ f, exec (primitiveInstr (.memRead8 (.lit 0x70FF) (.lit 1)) sc base)
      (lengthCounted (.memRead8 (.lit 0x70FF) (.lit 1)) base) = .fault f) ∧
    exec (primitiveInstr (.jcRead (.lit 3)) sc base) (lengthCounted (.jcRead (.lit 3)) base) = .refused .refusedOperand :=
  ⟨running_base, ⟨_, rfl⟩, ⟨_, rfl, rfl⟩, ⟨_, rfl⟩, rfl⟩

/-- A configuration that gives every word one program. -/
def fixProg (p : Prog IsaPrim Nat) : Config := { fix with isa := [⟨0, 0, 0, 0, p⟩] }

/-- The first three programs of the statement, at PC = 0xFFFE, with the accumulator 3 and the further words PC + 1 and PC + 2,
0xFFFF and 0x0000. -/
theorem witness_ProgramsMoveThePc :
    (let p : Prog IsaPrim Nat := .call (.acWrite (.lit 3) (.lit 0x1234)) (.done 4)
     let s : State := { boot 0xFFFE [0x00AA] with cfg := fixProg p, pc := 0xFFFE }
     Running s ∧ isaExec s.cfg s.pc 0x00AA = some p ∧ decodeAddr s.cfg s.pc = .external ∧ memKind s.cfg s.pc = .ram ∧
       s.mem.readWord s.pc = 0x00AA ∧ arbitrate s = none ∧ s.waiting = false) ∧
    (let p : Prog IsaPrim Nat := .call (.fetch 1) (.call (.pcWrite (.lit 0x0200)) (.done 4))
     let s : State := { base with cfg := fixProg p, pc := 0xFFFE }
     isaExec s.cfg s.pc 0x00AA = some p ∧ decodeAddr s.cfg (s.pc + 1) = .external ∧ memKind s.cfg (s.pc + 1) = .ram) ∧
    (let p : Prog IsaPrim Nat := .call (.fetch 2) (.call (.acWrite (.lit 3) (.var 0)) (.done 4))
     let s : State := { base with cfg := fixProg p, pc := 0xFFFE }
     isaExec s.cfg s.pc 0x00AA = some p ∧ decodeAddr s.cfg (s.pc + 2) = .external ∧ memKind s.cfg (s.pc + 2) = .ram) :=
  ⟨⟨⟨rfl, rfl⟩, by decide, by decide, by decide, by decide, by decide, by decide⟩, by decide, by decide⟩

/-- The program of one call and of a write of its result. -/
def oneCall (p : IsaPrim) : Prog IsaPrim Nat := .call p (.call (.acWrite (.lit 3) (.var 0)) (.done 4))

/-- A machine whose every word is that program. -/
def callOf (p : IsaPrim) : State := { base with cfg := fixProg (oneCall p) }

/-- A call that completes, one that faults and one that is refused. -/
theorem witness_ProgramsMoveThePc_calls : let sc : Scope := { pc := 0, word := 0x00AA, vals := [] }
    (∀ p, Running (callOf p) ∧ isaExec (callOf p).cfg (callOf p).pc 0x00AA = some (oneCall p)) ∧
    (∃ t, exec (primitiveInstr .frRead sc (callOf .frRead)) (lengthCounted .frRead (callOf .frRead)) = .next t ∧
      t.result = .word 0x8001) ∧
    (∃ f, exec (primitiveInstr .stackPop sc (callOf .stackPop)) (lengthCounted .stackPop (callOf .stackPop)) = .fault f) ∧
    exec (primitiveInstr (.jcRead (.lit 3)) sc (callOf (.jcRead (.lit 3)))) (lengthCounted (.jcRead (.lit 3)) (callOf (.jcRead (.lit 3))))
      = .refused .refusedOperand :=
  ⟨fun _ => ⟨⟨rfl, rfl⟩, by simp [callOf, fixProg, isaExec]⟩, ⟨_, rfl, rfl⟩, ⟨_, rfl⟩, rfl⟩

theorem witness_UnmodelledWordsFault : Running base ∧ isaExec base.cfg base.pc 0x1001 = none := ⟨running_base, by decide⟩

/-- A state where L3 is entered before L4, one with IEN clear and L0 pending, and IRQ_ENABLE with a value. -/
theorem witness_LowestRequestedLevelWins : base.cfg.arbOrder = [.l0, .l1, .l2, .l3, .l4, .l5] ∧
    base.fr.getLsbD base.cfg.ienBit.val = false ∧ base.bank.irqEnable = .val 0 ∧
    ({ base with pending := { noPending with l0 := true } } : State).pending.l0 = true ∧
    arbitrate { base with fr := 0x8219, pending := { noPending with l3 := true, l4 := true } } = some .l3 := by
  decide

/-- The entries of L5 at SP = 9, and of L2 with two sources pending and enabled, arbitrated. -/
theorem witness_InterruptEntryEffect :
    (let s : State := { base with sp := 9 }
     Running s ∧ StackPointerInRange s ∧ levelNumber .l5 = (5#3).toNat) ∧
    (let s : State := { base with fr := 0x8205, apend := 0b0110, bank := { base.bank with irqEnable := .val 0xF } }
     Running s ∧ StackPointerInRange s ∧ levelNumber .l2 = (2#3).toNat ∧ s.apend.getLsbD 1 = true ∧
       s.bank.irqEnable = .val 0xF ∧ (0xF#16).getLsbD 1 = true ∧
       (∀ m : Fin 4, m < 1 → ¬ (s.apend.getLsbD m.val = true ∧ (0xF#16).getLsbD m.val = true)) ∧
       s.inbox = [] ∧ arbitrate s = some .l2 ∧ s.cfg.ienBit.val < 11) :=
  ⟨⟨⟨rfl, rfl⟩, by unfold StackPointerInRange; decide, by decide⟩,
    ⟨rfl, rfl⟩, by unfold StackPointerInRange; decide, by decide, by decide, by decide, by decide, by decide, by decide, by decide,
    by decide⟩

theorem witness_InterruptReturnEffect :
    (let s : State := { base with sp := 1, stk := base.stk.set 0 (.val 0x0123) }
     Running s ∧ StackPointerInRange s ∧ (0 : Fin 10).val = (s.sp.toNat + 9) % 10 ∧ s.stk.get 0 = .val 0x0123) ∧
    (Running base ∧ StackPointerInRange base ∧ (9 : Fin 10).val = (base.sp.toNat + 9) % 10 ∧ base.stk.get 9 = .undef) :=
  ⟨⟨⟨rfl, rfl⟩, by unfold StackPointerInRange; decide, by decide, by decide⟩, running_base, inv_base.sp, by decide, by decide⟩

/-- The entry of L5 at SP = 9, on a machine whose every word is a lone INT_RETURN. -/
theorem witness_ReturnUndoesTheEntry :
    let s : State := { base with cfg := fixProg (.call .intReturn (.done 4)), sp := 9 }
    Running s ∧ StackPointerInRange s ∧
      ∃ t, exec (.intEntry 5) s = .next t ∧ isaExec t.cfg t.pc 0x8000 = some (.call .intReturn (.done 4)) := by
  refine ⟨⟨rfl, rfl⟩, by unfold StackPointerInRange; decide, _, rfl, ?_⟩
  simp [isaExec, fixProg, takeInterrupt, push, setFlags, writeSp, writeStk, raiseStackLevel, emit]

theorem witness_SignalsLatchOnTheRisingEdge : base.fault = none := rfl

theorem witness_SourcesLatchOnTheRisingEdge : base.fault = none := rfl

/-- An acknowledge of the last source, which is pending. -/
theorem witness_SourcesStayPendingUntilAcknowledged :
    let s : State := { base with apend := 0b1000 }
    ∃ t, exec (.periphWrite 0x71 0x0008) s = .next t ∧ s.apend.getLsbD (3 : Fin 4).val = true ∧
      t.apend.getLsbD (3 : Fin 4).val = false :=
  ⟨_, rfl, rfl, rfl⟩

theorem witness_VectorNamesTheFirstSource :
    let s : State := { base with apend := 0b1000, bank := { base.bank with irqEnable := .val 0xF } }
    s.fault = none ∧ s.apend.getLsbD 3 = true ∧ s.bank.irqEnable = .val 0xF ∧ (0xF#16).getLsbD 3 = true ∧
      ∀ m : Fin 4, m < 3 → ¬ (s.apend.getLsbD m.val = true ∧ (0xF#16).getLsbD m.val = true) := by
  decide

theorem witness_SaveReturnsTheSnapshot : base.resetDone = true ∧ faulted.resetDone = true ∧
    (constructed fix).resetDone = false := ⟨rfl, rfl, rfl⟩

/-- A faulted machine's snapshot restored in another state. -/
theorem witness_RestoreBringsBackTheSnapshot : ∃ snap, Inv faulted ∧ faulted.resetDone = true ∧ Inv base ∧
    base.fault = none ∧ base.cfg = faulted.cfg ∧ exec .save faulted = .next { faulted with result := .snapshot snap } :=
  ⟨takeSnapshot faulted, ⟨inv_base.flags, inv_base.sp, inv_base.memory, resetBank_shaped rfl⟩, rfl, inv_base, rfl, rfl, rfl⟩

/-- A snapshot that fits, and one for each clause of the refusal. -/
theorem witness_RestoreSetsEveryField : base.fault = none ∧ BankShaped base ∧
    (let snap := { takeSnapshot base with sp := 9 }
     snap.sp.toNat ≤ 9 ∧ snap.fr &&& 0x8001 = 0x8001 ∧ snap.periph.length = (savedRegs base.cfg).length) ∧ 9 < ({ takeSnapshot base with sp := 10 } : Snapshot).sp.toNat ∧
    ({ takeSnapshot base with fr := 0x8000 } : Snapshot).fr &&& 0x8001 ≠ 0x8001 ∧
    ({ takeSnapshot base with periph := [] } : Snapshot).periph.length ≠ (savedRegs base.cfg).length :=
  ⟨rfl, shaped_base, by decide, by decide, by decide, by decide⟩

theorem witness_EveryStepKeepsTheInvariant : ∃ t, Inv { base with inbox := [0x26#8, 0xFF#8] } ∧
    step { base with inbox := [0x26#8, 0xFF#8] } = .next t :=
  ⟨_, ⟨inv_base.flags, inv_base.sp, inv_base.memory, resetBank_shaped rfl⟩, rfl⟩

theorem witness_NoStepChangesTheConfiguration : ∃ t, step { base with inbox := [0x41#8, 0x50#8, 0x00#8, 0x01#8, 0x00#8] } = .next t :=
  ⟨_, rfl⟩

/-- Each reading instruction of the statement answers a next state somewhere. -/
theorem witness_ReadsChangeNothing :
    ([.memRead16 0x7001, .memRead8 0x04001, .fetch 0x0010, .periphRead 0x30, .dmaReadParam 6 0, .acRead 3, .frRead, .spRead,
      .dbgRead 16, .jcRead 2, .aggVectorFetch, .save] : List Instr).all (fun i =>
        nextIs (exec i { withDma { p0 := .val 0, p1 := .undef, busy := false, done := false, err := false } with
          ac := #v[.undef, .undef, .undef, .val 1] }) (fun _ => true)) = true := by
  decide

theorem witness_EngineStepsLeaveChannelsIdle : ChannelsIdle { base with waiting := true } ∧
    (∃ t, exec .step { base with waiting := true } = .next t) ∧ ∃ t, exec (.run 0) { base with waiting := true } = .next t :=
  ⟨by unfold ChannelsIdle; decide, ⟨_, rfl⟩, ⟨_, rfl⟩⟩

theorem witness_StrapIsNeverRead : ∃ t, exec .step { base with waiting := true } = .next t := ⟨_, rfl⟩

end Sys2Proof.Tests
end

section
/-! The statements about the state: every step keeps the invariant, the power-on RESET establishes it, and nothing
runs before it (spec/10_state.md). -/

namespace Sys2Proof.Machine

/-! ## What an instruction and a step keep -/

/-- The invariant does not read what the last operation returned. -/
theorem Inv.setResult {s : State} (v : Result) (h : Inv s) : Inv { s with result := v } :=
  .of_same (s := s) rfl rfl rfl rfl ⟨rfl, rfl⟩ h

/-- The invariant does not read the records that wait. -/
theorem Inv.setInbox {s : State} (bs : List Byte) (h : Inv s) : Inv { s with inbox := bs } :=
  .of_same (s := s) rfl rfl rfl rfl ⟨rfl, rfl⟩ h

/-- What an instruction's action keeps: a write of the host by its own rule, everything else by the frame of a step. -/
theorem action_keeps {i : Instr} {s t : State} {v : Result} (h : action i s = .ok v t) :
    t.cfg = s.cfg ∧ (Inv s → Inv t) := by
  cases hw : isHostWrite i with
  | true => exact hostWrite_keeps hw h
  | false =>
    have hf := StepSound.action hw s
    rw [h] at hf
    exact ⟨StepFrame.cfg hf, StepFrame.inv hf⟩

/-- An instruction that answers a next state keeps the configuration and the invariant. -/
theorem exec_keeps {i : Instr} {s t : State} (h : exec i s = .next t) : t.cfg = s.cfg ∧ (Inv s → Inv t) := by
  obtain ⟨v, u, ha, rfl⟩ := exec_eq_next h
  obtain ⟨hc, hi⟩ := action_keeps ha
  exact ⟨hc, fun hs => (hi hs).setResult v⟩

/-- A step that answers a next state performed an instruction: the first record's, or STEP where no record waits
(spec/60_exceptions.md R304). -/
theorem exists_exec_of_step_eq_next {s t : State} (h : step s = .next t) :
    ∃ i rest, exec i { s with inbox := rest } = .next t := by
  unfold step at h
  split at h
  case h_1 hs => exact ⟨.step, s.inbox, h⟩
  case h_2 =>
    split at h
    case h_1 i rest _ => exact ⟨i, rest, h⟩
    case h_2 => cases h

/-- Settles O54: the step performs one instruction, whose action keeps the invariant, be it a write of the host or
within the frame of an engine step. -/
theorem everyStepKeepsTheInvariant : Obligations.EveryStepKeepsTheInvariant := by
  intro s t hs h
  obtain ⟨i, rest, he⟩ := exists_exec_of_step_eq_next h
  exact (exec_keeps he).2 (hs.setInbox rest)

/-! ## Before the first RESET -/

/-- Settles O9: the actions of RUN, performed on an unfaulted machine, and of SAVE, performed on any, need a RESET before
them. -/
theorem nothingRunsBeforeReset : Obligations.NothingRunsBeforeReset := by
  intro s hr
  refine ⟨fun hf b => ?_, ?_⟩
  · simp only [exec_unfaulted (.run b) hf, action, afterReset_before _ hr, Res.finish]
  · simp only [exec_save, action, afterReset_before _ hr, Res.finish]

/-! ## Construction and the power-on RESET -/

theorem construct_of_configOk {cfg : Config} (h : configOk cfg = true) : construct cfg = some (constructed cfg) :=
  if_pos h

theorem configOk_memInit {cfg : Config} (h : configOk cfg = true) : Memory.wf cfg.memInit = true :=
  ((Bool.and_eq_true _ _).mp h).2

/-- A machine of a well-formed configuration meets the invariant from construction on: the unspecified SP is a slot's
number (spec/10_state.md R37). -/
theorem Inv.constructed {cfg : Config} (h : configOk cfg = true) : Inv (constructed cfg) where
  flags := or_frOnes_hardwired 0
  sp := by
    have hsp := Config.powerOnSp.isLt
    simp only [StackPointerInRange, Machine.constructed, BitVec.toNat_ofNat]
    omega
  memory := configOk_memInit h
  bank := resetBank_shaped rfl

/-- The reference configuration is one a machine is constructed from (spec/00_scope.md R14). -/
theorem configOk_reference : configOk Config.reference = true := by decide

/-- RESET of an unfaulted machine completes, and returns nothing. -/
theorem exec_reset (strap : BitVec 2) {s : State} (h : s.fault = none) :
    exec (.reset strap) s = .next { resetWith strap s with result := .none } :=
  exec_unfaulted (.reset strap) h

/-- RESET on any machine leaves every channel idle (spec/70_reset_and_hazards.md R320). -/
theorem channelsIdle_resetWith (strap : BitVec 2) (s : State) : ChannelsIdle (resetWith strap s) := fun c =>
  congrArg Channel.busy (resetChannels_get s.cfg c)

/-- RESET overwrites what construction leaves unspecified, and no flag output is high before it. -/
theorem exec_reset_constructed_reference : exec (.reset 0) (constructed Config.reference) = .next State.reset :=
  exec_reset 0 rfl

/-- Settles O12: the reference configuration is well formed, so that its machine meets the invariant, and RESET keeps
it. -/
theorem resetStateIsThePowerOnReset : Obligations.ResetStateIsThePowerOnReset := by
  refine ⟨construct_of_configOk configOk_reference, exec_reset_constructed_reference, ?_, ?_, ⟨rfl, rfl⟩⟩
  · exact (exec_keeps exec_reset_constructed_reference).2 (.constructed configOk_reference)
  · exact channelsIdle_resetWith 0 (constructed Config.reference)

end Sys2Proof.Machine
end

section
/-! The statements about memory: what word, byte and fetch accesses do, by where their address decodes to and by the kind
of the word, and what reads leave alone (spec/20_memory.md). -/

namespace Sys2Proof.Machine

/-! ## Byte addresses and lanes (spec/20_memory.md R80) -/

theorem wordOfByteAddr_toNat (ba : BitVec 17) : (wordOfByteAddr ba).toNat = ba.toNat / 2 := by
  have := ba.isLt
  simp only [wordOfByteAddr, BitVec.extractLsb'_toNat, Nat.shiftRight_eq_div_pow]
  omega

/-- Every byte address is that of a lane of its word. -/
theorem eq_byteAddr {ba : BitVec 17} {a : Word} (h : ba.toNat / 2 = a.toNat) : ba = byteAddr a (ba.getLsbD 0) := by
  have hlane : (ba.getLsbD 0).toNat = ba.toNat % 2 :=
    (Nat.toNat_testBit ba.toNat 0).trans (by rw [pow_zero, Nat.div_one])
  apply BitVec.eq_of_toNat_eq
  rw [byteAddr_toNat, hlane, ← h, Nat.div_add_mod]

theorem byteAddr_ne (a : Word) (lane : Bool) : (byteAddr a (!lane)).toNat ≠ (byteAddr a lane).toNat := by
  cases lane <;> simp [byteAddr_toNat]

/-- The lane of a word that a byte access names (R81). -/
def laneOf (lane : Bool) (w : Word) : Byte := if lane then laneHi w else laneLo w

/-- The lanes of the word at an address are the bytes at its two byte addresses. -/
theorem Memory.laneOf_readWord (m : Memory) (a : Word) (lane : Bool) :
    laneOf lane (m.readWord a) = m.read (byteAddr a lane).toNat := by
  cases lane
  · exact laneLo_wordOfLanes _ _
  · exact laneHi_wordOfLanes _ _

/-! ## Where an access goes (spec/20_memory.md R73) -/

theorem decodeAddr_of_inWindow {cfg : Config} {a : Word} (hlo : cfg.periphBase.toNat ≤ a.toNat)
    (hhi : a.toNat < cfg.periphBase.toNat + cfg.periphSize) : decodeAddr cfg a = .window (a - cfg.periphBase) :=
  if_pos ⟨hlo, hhi⟩

theorem decodeAddr_of_outside {cfg : Config} {a : Word}
    (h : a.toNat < cfg.periphBase.toNat ∨ cfg.periphBase.toNat + cfg.periphSize ≤ a.toNat) :
    decodeAddr cfg a = .external :=
  if_neg (by omega)

/-- A word read of the window is a read of the bank (R76). -/
theorem readWord_window {a off : Word} {s : State} (h : decodeAddr s.cfg a = .window off) :
    readWord a s = readPeriph off s := by
  simp [readWord, h]

theorem writeWord_window {a off : Word} (v : Word) {s : State} (h : decodeAddr s.cfg a = .window off) :
    writeWord a v s = writePeriph off v s := by
  simp [writeWord, h]

/-- A byte access to the window faults (R77). -/
theorem readByte_window {ba : BitVec 17} {off : Word} {s : State}
    (h : decodeAddr s.cfg (wordOfByteAddr ba) = .window off) : readByte ba s = raise (.periphByteAccess ba) s := by
  simp [readByte, h]

theorem writeByte_window {ba : BitVec 17} {off : Word} (b : Byte) {s : State}
    (h : decodeAddr s.cfg (wordOfByteAddr ba) = .window off) : writeByte ba b s = raise (.periphByteAccess ba) s := by
  simp [writeByte, h]

/-- A fetch from the window faults (R78). -/
theorem fetchWord_window {a off : Word} {s : State} (h : decodeAddr s.cfg a = .window off) :
    fetchWord a s = raise (.fetchFromWindow a) s := by
  simp [fetchWord, h]

theorem readWord_external {a : Word} {s : State} (h : decodeAddr s.cfg a = .external) : readWord a s = readExt a s := by
  simp [readWord, h]

theorem writeWord_external {a : Word} (v : Word) {s : State} (h : decodeAddr s.cfg a = .external) :
    writeWord a v s = .ok () (writeExt a v s) := by
  simp [writeWord, h]

theorem fetchWord_external {a : Word} {s : State} (h : decodeAddr s.cfg a = .external) :
    fetchWord a s = readExt a s := by
  simp [fetchWord, h]

/-- A byte read of external memory is the lane of the word read (R81). -/
theorem readByte_external {a : Word} (lane : Bool) {s : State} (h : decodeAddr s.cfg a = .external) :
    readByte (byteAddr a lane) s = (readExt a s).bind fun w s => .ok (laneOf lane w) s := by
  simp only [readByte, wordOfByteAddr_byteAddr, byteAddr_lane, h, laneOf]

/-! ## What each kind of word does (spec/20_memory.md R75, R82) -/

theorem readExt_rom {a : Word} {s : State} (h : memKind s.cfg a = .rom) :
    readExt a s = .ok (Memory.readWord s.cfg.memInit a) s := by
  simp [readExt, h]

theorem readExt_io {a : Word} {s : State} (h : memKind s.cfg a = .io) : readExt a s = drawWord s := by
  simp [readExt, h]

theorem writeExt_rom {a : Word} (v : Word) {s : State} (h : memKind s.cfg a = .rom) : writeExt a v s = s := by
  simp [writeExt, h]

theorem writeExt_io {a : Word} (v : Word) {s : State} (h : memKind s.cfg a = .io) :
    writeExt a v s = emit (.memEvent a v) s := by
  simp [writeExt, h]

theorem writeByte_ram {a : Word} (lane : Bool) (b : Byte) {s : State} (hd : decodeAddr s.cfg a = .external)
    (h : memKind s.cfg a = .ram) :
    writeByte (byteAddr a lane) b s = .ok () { s with mem := s.mem.write (byteAddr a lane).toNat b } := by
  simp [writeByte, wordOfByteAddr_byteAddr, hd, h]

theorem writeByte_rom {a : Word} (lane : Bool) (b : Byte) {s : State} (hd : decodeAddr s.cfg a = .external)
    (h : memKind s.cfg a = .rom) : writeByte (byteAddr a lane) b s = .ok () s := by
  simp [writeByte, wordOfByteAddr_byteAddr, hd, h]

theorem writeByte_io {a : Word} (lane : Bool) (b : Byte) {s : State} (hd : decodeAddr s.cfg a = .external)
    (h : memKind s.cfg a = .io) :
    writeByte (byteAddr a lane) b s = .ok () (emit (.memEventByte (byteAddr a lane) b) s) := by
  simp [writeByte, wordOfByteAddr_byteAddr, hd, h]

/-! ## The memory operations of an unfaulted machine -/

/-- Two operations that answer alike are performed alike, on a faulted machine too. -/
theorem perform_congr {α : Type} {x y : State → Res α} {s : State} (h : x s = y s) (result : α → Result) :
    perform x result s = perform y result s := by
  simp only [perform, h]

/-- A fetch from external memory is the word read (R79). -/
theorem exec_fetch_eq_memRead16 {a : Word} {s : State} (hd : decodeAddr s.cfg a = .external) :
    exec (.fetch a) s = exec (.memRead16 a) s :=
  perform_congr ((fetchWord_external hd).trans (readWord_external hd).symm) Result.word

theorem exec_memRead16_external {a : Word} {s : State} (h : s.fault = none) (hd : decodeAddr s.cfg a = .external) :
    exec (.memRead16 a) s = (readExt a s).outcome Result.word := by
  rw [← readWord_external hd]; exact perform_unfaulted h

theorem exec_memRead8_external {a : Word} (lane : Bool) {s : State} (h : s.fault = none)
    (hd : decodeAddr s.cfg a = .external) :
    exec (.memRead8 (byteAddr a lane)) s = ((readExt a s).bind fun w s => .ok (laneOf lane w) s).outcome Result.byte := by
  rw [← readByte_external lane hd]; exact perform_unfaulted h

theorem exec_memWrite16_external {a : Word} (v : Word) {s : State} (h : s.fault = none)
    (hd : decodeAddr s.cfg a = .external) :
    exec (.memWrite16 a v) s = .next { writeExt a v s with result := .none } :=
  (perform_unfaulted h).trans (by rw [writeWord_external v hd]; rfl)

theorem exec_memWrite8 (ba : BitVec 17) (b : Byte) {s : State} (h : s.fault = none) :
    exec (.memWrite8 ba b) s = (writeByte ba b s).outcome noResult :=
  perform_unfaulted h

/-- A word read of RAM returns what memory holds (R75). -/
theorem exec_memRead16_ram {a : Word} {s : State} (h : s.fault = none) (hd : decodeAddr s.cfg a = .external)
    (hk : memKind s.cfg a = .ram) : exec (.memRead16 a) s = .next { s with result := .word (s.mem.readWord a) } := by
  rw [exec_memRead16_external h hd, readExt_ram hk]; rfl

theorem exec_memRead16_rom {a : Word} {s : State} (h : s.fault = none) (hd : decodeAddr s.cfg a = .external)
    (hk : memKind s.cfg a = .rom) :
    exec (.memRead16 a) s = .next { s with result := .word (Memory.readWord s.cfg.memInit a) } := by
  rw [exec_memRead16_external h hd, readExt_rom hk]; rfl

theorem exec_memRead16_io {a : Word} {s : State} (h : s.fault = none) (hd : decodeAddr s.cfg a = .external)
    (hk : memKind s.cfg a = .io) :
    exec (.memRead16 a) s = .next { s with draws := s.draws + 1, result := .word (Config.drawWord s.draws) } := by
  rw [exec_memRead16_external h hd, readExt_io hk]; rfl

/-- A byte read of RAM returns the byte memory holds (R81). -/
theorem exec_memRead8_ram {a : Word} (lane : Bool) {s : State} (h : s.fault = none)
    (hd : decodeAddr s.cfg a = .external) (hk : memKind s.cfg a = .ram) :
    exec (.memRead8 (byteAddr a lane)) s = .next { s with result := .byte (s.mem.read (byteAddr a lane).toNat) } := by
  rw [exec_memRead8_external lane h hd, readExt_ram hk, ← Memory.laneOf_readWord]; rfl

theorem exec_memRead8_rom {a : Word} (lane : Bool) {s : State} (h : s.fault = none)
    (hd : decodeAddr s.cfg a = .external) (hk : memKind s.cfg a = .rom) :
    exec (.memRead8 (byteAddr a lane)) s =
      .next { s with result := .byte (Memory.read s.cfg.memInit (byteAddr a lane).toNat) } := by
  rw [exec_memRead8_external lane h hd, readExt_rom hk, ← Memory.laneOf_readWord]; rfl

theorem exec_memRead8_io {a : Word} (lane : Bool) {s : State} (h : s.fault = none)
    (hd : decodeAddr s.cfg a = .external) (hk : memKind s.cfg a = .io) :
    exec (.memRead8 (byteAddr a lane)) s =
      .next { s with draws := s.draws + 1, result := .byte (laneOf lane (Config.drawWord s.draws)) } := by
  rw [exec_memRead8_external lane h hd, readExt_io hk]; rfl

/-! ## The reading instructions (spec/20_memory.md R84) -/

theorem ReadOnly.onChannel {c : BitVec 3} {x : Fin 7 → Res Result} {s : State} (h : ∀ c, ReadOnly s (x c)) :
    ReadOnly s (Machine.onChannel c x) := by
  unfold Machine.onChannel
  split
  · exact h _
  · exact ReadOnly.refused _ s

theorem ReadOnly.dbgRead (f : BitVec 5) (s : State) : ReadOnly s (action (.dbgRead f) s) := by
  unfold action
  dsimp only
  split
  · exact (ReadOnly.readField _ s).with _
  · exact ReadOnly.refused _ s

/-! ## The statements -/

/-- Settles O21: the write leaves the word in RAM, where the word read and the fetch find it and the byte reads find its
lanes. -/
theorem wordWritesReachExternalMemory : Obligations.WordWritesReachExternalMemory := by
  intro a v s hf hm hd
  refine ⟨fun hk => ?_, fun hk => ?_, fun hk => ?_⟩
  · let t : State := { s with mem := s.mem.writeWord a v, result := .none }
    have hw : t.mem.readWord a = v := Memory.readWord_writeWord_same a v hm
    have hread : exec (.memRead16 a) t = .next { t with result := .word v } := by
      rw [exec_memRead16_ram (s := t) hf hd hk, hw]
    have hlane (lane : Bool) :
        exec (.memRead8 (byteAddr a lane)) t = .next { t with result := .byte (laneOf lane v) } := by
      rw [exec_memRead8_ram lane (s := t) hf hd hk, ← Memory.laneOf_readWord, hw]
    refine ⟨t, ?_, rfl, hread, (exec_fetch_eq_memRead16 (s := t) hd).trans hread, hlane false, hlane true, ?_⟩
    · rw [exec_memWrite16_external v hf hd, writeExt_ram hk]
    · intro k h0 h1
      exact Memory.read_writeWord_other hm (by rwa [byteAddr_toNat]) (by rwa [byteAddr_toNat])
  · rw [exec_memWrite16_external v hf hd, writeExt_rom v hk]
  · rw [exec_memWrite16_external v hf hd, writeExt_io v hk]; rfl

/-- Settles O22: the word read by kind, and the byte read as its lane. -/
theorem wordReadsOfExternalMemory : Obligations.WordReadsOfExternalMemory := by
  intro a s hf hd
  refine ⟨exec_fetch_eq_memRead16 hd, fun hk => ⟨_, exec_memRead16_ram hf hd hk, Memory.readWord_toNat _ a⟩,
    fun hk => ⟨_, exec_memRead16_rom hf hd hk, Memory.readWord_toNat _ a⟩,
    fun hk => ⟨_, exec_memRead16_io hf hd hk⟩, fun ba hba => ?_⟩
  obtain ⟨lane, rfl⟩ : ∃ lane, ba = byteAddr a lane := ⟨_, eq_byteAddr hba⟩
  exact ⟨exec_memRead8_ram lane hf hd, exec_memRead8_rom lane hf hd, fun hk => ⟨_, exec_memRead8_io lane hf hd hk⟩⟩

/-- Settles O23: the write changes the byte of its lane, and the byte of the other lane is another byte. -/
theorem byteWritesReachTheirLane : Obligations.ByteWritesReachTheirLane := by
  intro ba b s hf hm hd
  obtain ⟨a, lane, rfl⟩ : ∃ a lane, ba = byteAddr a lane := ⟨_, _, eq_byteAddr (wordOfByteAddr_toNat ba).symm⟩
  rw [wordOfByteAddr_byteAddr] at hd ⊢
  refine ⟨fun hk => ?_, fun hk => ?_, fun hk => ?_⟩
  · let t : State := { s with mem := s.mem.write (byteAddr a lane).toNat b, result := .none }
    have hsame : t.mem.read (byteAddr a lane).toNat = b := Memory.read_write_same b hm
    have hother : ∀ k, k ≠ (byteAddr a lane).toNat → t.mem.read k = s.mem.read k :=
      fun k => Memory.read_write_other b hm
    have hwritten : laneOf lane (t.mem.readWord a) = b := by rw [Memory.laneOf_readWord, hsame]
    have hkept : laneOf (!lane) (t.mem.readWord a) = laneOf (!lane) (s.mem.readWord a) := by
      rw [Memory.laneOf_readWord, Memory.laneOf_readWord, hother _ (byteAddr_ne a lane)]
    refine ⟨t, ?_, rfl, hother, ?_, _, _, exec_memRead16_ram hf hd hk, exec_memRead16_ram (s := t) hf hd hk, ?_⟩
    · rw [exec_memWrite8 _ b hf, writeByte_ram lane b hd hk]; rfl
    · rw [exec_memRead8_ram lane (s := t) hf hd hk, hsame]
    · rw [byteAddr_lane]
      cases lane <;> exact ⟨hwritten, hkept⟩
  · rw [exec_memWrite8 _ b hf, writeByte_rom lane b hd hk]; rfl
  · rw [exec_memWrite8 _ b hf, writeByte_io lane b hd hk]; rfl

/-- Settles O56: the action of each reading instruction is read-only. -/
theorem readsChangeNothing : Obligations.ReadsChangeNothing := by
  intro i s t hi h
  have hread : ReadOnly s (action i s) := by
    rcases hi with ⟨a, rfl⟩ | ⟨ba, rfl⟩ | ⟨a, rfl⟩ | ⟨off, rfl⟩ | ⟨c, sl, rfl⟩ | ⟨k, rfl⟩ | rfl | rfl | ⟨f, rfl⟩ |
      ⟨j, rfl⟩ | rfl | rfl
    · exact (ReadOnly.readWord a s).with _
    · exact (ReadOnly.readByte ba s).with _
    · exact (ReadOnly.fetchWord a s).with _
    · exact (ReadOnly.readPeriph off s).with _
    · exact ReadOnly.onChannel fun c => (ReadOnly.readParam c _ s).with _
    · exact (ReadOnly.readAc _ s).with _
    · exact ReadOnly.ok _ s
    · exact ReadOnly.afterReset (ReadOnly.ok _ s)
    · exact ReadOnly.dbgRead f s
    · exact (ReadOnly.readJump j s).with _
    · exact (ReadOnly.aggVector s).with _
    · exact ReadOnly.afterReset (ReadOnly.ok _ s)
  obtain ⟨v, u, ha, rfl⟩ := exec_eq_next h
  exact congrArg (fun u : State => { u with result := v }) (hread v u ha)

/-- Settles O24: the window's answer to a byte access and to a fetch is a fault, and the step ends with its fetch's. -/
theorem windowBytesAndFetchesFault : Obligations.WindowBytesAndFetchesFault := by
  intro s off hf
  refine ⟨fun ba b hd => ⟨?_, ?_⟩, fun a hd => ?_, fun hr hd ha hw => ?_⟩
  · refine (perform_unfaulted hf).trans ?_
    rw [readByte_window hd, raise_unfaulted hf]; rfl
  · rw [exec_memWrite8 ba b hf, writeByte_window b hd, raise_unfaulted hf]; rfl
  · refine (perform_unfaulted hf).trans ?_
    rw [fetchWord_window hd, raise_unfaulted hf]; rfl
  · refine (performAfterReset_running hf hr).trans ?_
    rw [engineStep_fetch ha hw, fetchWord_window (s := emit _ s) hd, raise_bind, raise_unfaulted (s := emit _ s) hf]; rfl

/-- Settles O25: the decoder's condition is the interval's, and a word access of the window is the bank's, whatever the
bank answers. -/
theorem windowAccessesReachTheBank : Obligations.WindowAccessesReachTheBank := by
  intro a v s
  refine ⟨fun hlo hhi => ?_, decodeAddr_of_outside⟩
  have hd := decodeAddr_of_inWindow hlo hhi
  exact ⟨hd, perform_congr (readWord_window hd) _, perform_congr (writeWord_window v hd) _⟩

end Sys2Proof.Machine
end

section
/-! The statements about the encoding: a record is read back and is the only one of its operation, and what is no record,
or names nothing, is refused (spec/30_encoding.md). -/

namespace Sys2Proof

/-! ## Encoding, then decoding -/

/-- The record of every operation but RESTORE is read back, unless R103 refuses one of its operand values. -/
theorem decodeRecord_encode {i : Instr} (hr : ∀ snap, i ≠ .restore snap) (hw : ∀ w, i ≠ .cpuWord w) (rest : List Byte) :
    decodeRecord (encode i ++ rest) = if i.wellFormed then .ok (i, rest) else .error .refusedOperand := by
  cases i with
  | restore snap => exact absurd rfl (hr snap)
  | cpuWord w => exact absurd rfl (hw w)
  | reset strap => exact decodeRecord_one rfl (by decide) strap rest
  | run budget => exact decodeRecord_one rfl (by decide) budget rest
  | signalInt l b => exact decodeRecord_two rfl (by decide) l b rest
  | aggLine src b => exact decodeRecord_two rfl (by decide) src b rest
  | dbgRead field => exact decodeRecord_one rfl (by decide) field rest
  | dbgWrite field v => exact decodeRecord_two rfl (by decide) field v rest
  | save => exact decodeRecord_plain rfl (by decide) rest
  | step => exact decodeRecord_plain rfl (by decide) rest
  | instr w => exact decodeRecord_one rfl (by decide) w rest
  | intEntry l => exact decodeRecord_one rfl (by decide) l rest
  | idle => exact decodeRecord_plain rfl (by decide) rest
  | acRead k => exact decodeRecord_one rfl (by decide) k rest
  | acWrite k v => exact decodeRecord_two rfl (by decide) k v rest
  | pcWrite v => exact decodeRecord_one rfl (by decide) v rest
  | frRead => exact decodeRecord_plain rfl (by decide) rest
  | frWrite v => exact decodeRecord_one rfl (by decide) v rest
  | spRead => exact decodeRecord_plain rfl (by decide) rest
  | spWrite v => exact decodeRecord_one rfl (by decide) v rest
  | stackPush v => exact decodeRecord_one rfl (by decide) v rest
  | stackPop => exact decodeRecord_plain rfl (by decide) rest
  | intReturn => exact decodeRecord_plain rfl (by decide) rest
  | jcRead j => exact decodeRecord_one rfl (by decide) j rest
  | memRead16 a => exact decodeRecord_one rfl (by decide) a rest
  | memWrite16 a v => exact decodeRecord_two rfl (by decide) a v rest
  | memRead8 ba => exact decodeRecord_one rfl (by decide) ba rest
  | memWrite8 ba b => exact decodeRecord_two rfl (by decide) ba b rest
  | fetch a => exact decodeRecord_one rfl (by decide) a rest
  | periphRead off => exact decodeRecord_one rfl (by decide) off rest
  | periphWrite off v => exact decodeRecord_two rfl (by decide) off v rest
  | dmaWriteParam c slot v => exact decodeRecord_three rfl (by decide) c slot v rest
  | dmaReadParam c slot => exact decodeRecord_two rfl (by decide) c slot rest
  | dmaTrigger c => exact decodeRecord_one rfl (by decide) c rest
  | csRecompute => exact decodeRecord_plain rfl (by decide) rest
  | aggVectorFetch => exact decodeRecord_plain rfl (by decide) rest
  | waitEnter => exact decodeRecord_plain rfl (by decide) rest

theorem decodeRecord_encode_illFormed {i : Instr} (hr : ∀ snap, i ≠ .restore snap) (h : i.wellFormed = false)
    (rest : List Byte) : decodeRecord (encode i ++ rest) = .error .refusedOperand := by
  have hw : ∀ w, i ≠ .cpuWord w := by
    rintro w rfl
    cases h
  rw [decodeRecord_encode hr hw, h]
  rfl

/-- The record of RESTORE is its selector and the snapshot, which is read back. -/
theorem decodeRecord_encode_restore {snap : Snapshot} (h : snap.encodable = true) (rest : List Byte) :
    decodeRecord (encode (.restore snap) ++ rest) = .ok (.restore snap, rest) := by
  simp [decodeRecord, encode, getSnapshot_putSnapshot snap rest h]

/-- Settles O1: RESTORE's record carries a snapshot, every other one the fields of its row. -/
theorem recordsDecodeToTheirInstruction : Obligations.RecordsDecodeToTheirInstruction := by
  intro i rest hi hw
  by_cases hr : ∃ snap, i = .restore snap
  · obtain ⟨snap, rfl⟩ := hr
    exact decodeRecord_encode_restore hi rest
  · rw [decodeRecord_encode (fun snap e => hr ⟨snap, e⟩) hw, if_pos hi]

/-! ## Decoding, then encoding -/

/-- Every instruction a row makes from values that fit its widths has the row's record. -/
def RecordRow.MakesItsRecord (row : RecordRow) : Prop :=
  ∀ vs i, row.make vs = some i → (∀ p ∈ row.widths.zip vs, p.2 < 2 ^ p.1) →
    encode i = encodeFields row.selector (row.widths.zip vs)

theorem RecordRow.MakesItsRecord.plain {sel : Byte} {i : Instr} (h : encode i = encodeFields sel []) :
    (RecordRow.plain sel i).MakesItsRecord := by
  rintro vs _ ⟨⟩ -
  exact h

theorem RecordRow.MakesItsRecord.one {sel : Byte} {tb w : Nat} {f : BitVec w → Instr}
    (h : ∀ a, encode (f a) = encodeFields sel [(w, a.toNat)]) : (RecordRow.one sel tb w f).MakesItsRecord := by
  intro vs i hi hlt
  match vs, hi with
  | [a], hi =>
    cases hi
    have ha : a < 2 ^ w := hlt (w, a) (by simp [RecordRow.one])
    simp [h, RecordRow.one, Nat.mod_eq_of_lt ha]

theorem RecordRow.MakesItsRecord.two {sel : Byte} {tb w v : Nat} {f : BitVec w → BitVec v → Instr}
    (h : ∀ a b, encode (f a b) = encodeFields sel [(w, a.toNat), (v, b.toNat)]) :
    (RecordRow.two sel tb w v f).MakesItsRecord := by
  intro vs i hi hlt
  match vs, hi with
  | [a, b], hi =>
    cases hi
    have ha : a < 2 ^ w := hlt (w, a) (by simp [RecordRow.two])
    have hb : b < 2 ^ v := hlt (v, b) (by simp [RecordRow.two])
    simp [h, RecordRow.two, Nat.mod_eq_of_lt ha, Nat.mod_eq_of_lt hb]

theorem RecordRow.MakesItsRecord.three {sel : Byte} {tb w v u : Nat} {f : BitVec w → BitVec v → BitVec u → Instr}
    (h : ∀ a b c, encode (f a b c) = encodeFields sel [(w, a.toNat), (v, b.toNat), (u, c.toNat)]) :
    (RecordRow.three sel tb w v u f).MakesItsRecord := by
  intro vs i hi hlt
  match vs, hi with
  | [a, b, c], hi =>
    cases hi
    have ha : a < 2 ^ w := hlt (w, a) (by simp [RecordRow.three])
    have hb : b < 2 ^ v := hlt (v, b) (by simp [RecordRow.three])
    have hc : c < 2 ^ u := hlt (u, c) (by simp [RecordRow.three])
    simp [h, RecordRow.three, Nat.mod_eq_of_lt ha, Nat.mod_eq_of_lt hb, Nat.mod_eq_of_lt hc]

theorem makesItsRecord_of_mem_hostRows : ∀ row ∈ hostRows, row.MakesItsRecord := by
  simp only [hostRows, List.forall_mem_cons]
  exact ⟨.one fun _ => rfl, .one fun _ => rfl, .two fun _ _ => rfl, .two fun _ _ => rfl, .one fun _ => rfl,
    .two fun _ _ => rfl, .plain rfl, nofun⟩

theorem makesItsRecord_of_mem_engineRows : ∀ row ∈ engineRows, row.MakesItsRecord := by
  simp only [engineRows, List.forall_mem_cons]
  exact ⟨.plain rfl, .one fun _ => rfl, .one fun _ => rfl, .plain rfl, nofun⟩

theorem makesItsRecord_of_mem_registerRows : ∀ row ∈ registerRows, row.MakesItsRecord := by
  simp only [registerRows, List.forall_mem_cons]
  exact ⟨.one fun _ => rfl, .two fun _ _ => rfl, .one fun _ => rfl, .plain rfl, .one fun _ => rfl, .plain rfl,
    .one fun _ => rfl, .one fun _ => rfl, .plain rfl, .plain rfl, .one fun _ => rfl, nofun⟩

theorem makesItsRecord_of_mem_memoryRows : ∀ row ∈ memoryRows, row.MakesItsRecord := by
  simp only [memoryRows, List.forall_mem_cons]
  exact ⟨.one fun _ => rfl, .two fun _ _ => rfl, .one fun _ => rfl, .two fun _ _ => rfl, .one fun _ => rfl, nofun⟩

theorem makesItsRecord_of_mem_unitRows : ∀ row ∈ unitRows, row.MakesItsRecord := by
  simp only [unitRows, List.forall_mem_cons]
  exact ⟨.one fun _ => rfl, .two fun _ _ => rfl, .three fun _ _ _ => rfl, .two fun _ _ => rfl, .one fun _ => rfl,
    .plain rfl, .plain rfl, .plain rfl, nofun⟩

theorem makesItsRecord_of_mem_recordTable {row : RecordRow} (h : row ∈ recordTable) : row.MakesItsRecord := by
  simp only [recordTable, List.mem_append] at h
  rcases h with (((h | h) | h) | h) | h
  · exact makesItsRecord_of_mem_hostRows row h
  · exact makesItsRecord_of_mem_engineRows row h
  · exact makesItsRecord_of_mem_registerRows row h
  · exact makesItsRecord_of_mem_memoryRows row h
  · exact makesItsRecord_of_mem_unitRows row h

/-- The fields unpacked from a number lie in a record as that number. -/
theorem encodeFields_unpackFields (sel : Byte) {ws : List Nat} {n : Nat} (h : n < 2 ^ ws.sum) :
    encodeFields sel (ws.zip (unpackFields ws n)) = sel :: natToBytes (byteCount ws.sum) n := by
  rw [encodeFields, List.map_fst_zip (length_unpackFields ws n).ge, packFields_unpackFields ws n h]

/-- What a row of the table reads after its selector is the rest of the instruction's record. -/
theorem RecordRow.eq_encode_of_read {row : RecordRow} {bs rest : List Byte} {i : Instr} (hm : row ∈ recordTable)
    (h : row.read bs = .ok (i, rest)) : row.selector :: bs = encode i ++ rest ∧ i.wellFormed = true := by
  obtain ⟨n, hn, hmake, hwf, rfl⟩ := RecordRow.read_eq_ok h
  rw [makesItsRecord_of_mem_recordTable hm _ i hmake (unpackFields_lt _ n), encodeFields_unpackFields _ hn]
  exact ⟨rfl, hwf⟩

/-- Bytes that decode are RESTORE's selector and a snapshot, or are read by a row of the table that has their selector. -/
theorem decodeRecord_eq_ok {bs rest : List Byte} {i : Instr} (h : decodeRecord bs = .ok (i, rest)) :
    (∃ snap tail, bs = restoreSelector :: tail ∧ i = .restore snap ∧ getSnapshot tail = some (snap, rest)) ∨
      ∃ row tail, bs = row.selector :: tail ∧ row ∈ recordTable ∧ row.read tail = .ok (i, rest) := by
  cases bs with
  | nil => cases h
  | cons sel tail =>
    simp only [decodeRecord] at h
    split at h
    case isTrue hsel =>
      subst hsel
      split at h
      case h_1 snap _ hs => cases h; exact .inl ⟨snap, tail, rfl, rfl, hs⟩
      case h_2 => cases h
    case isFalse =>
      split at h
      case h_1 row hrow =>
        have hsel : row.selector = sel := by simpa using List.find?_some hrow
        exact .inr ⟨row, tail, by rw [hsel], List.mem_of_find?_eq_some hrow, h⟩
      case h_2 => cases h

/-- Settles O2: the snapshot read is the one written, and the row read is the operation's own. -/
theorem decodedBytesAreTheRecord : Obligations.DecodedBytesAreTheRecord := by
  intro bs rest i h
  rcases decodeRecord_eq_ok h with ⟨snap, tail, rfl, rfl, hs⟩ | ⟨row, tail, rfl, hm, hr⟩
  · obtain ⟨htail, hwf⟩ := getSnapshot_eq_some hs
    exact ⟨congrArg (restoreSelector :: ·) htail, hwf⟩
  · exact RecordRow.eq_encode_of_read hm hr

/-! ## What the table has no row for -/

theorem decodeRecord_unknownSelector {sel : Byte} (hr : sel ≠ restoreSelector)
    (ht : ∀ row ∈ recordTable, row.selector ≠ sel) (bs : List Byte) :
    decodeRecord (sel :: bs) = .error (.unknownSelector sel) := by
  have hf : recordTable.find? (fun row => row.selector == sel) = none :=
    List.find?_eq_none.mpr fun row hrow he => ht row hrow (eq_of_beq he)
  simp [decodeRecord, hr, hf]

/-- What is no operation record in the table's numbering is a CPU word (R100). -/
theorem decodeTableWord_cpuWord {nbits w : Nat} (h : isRecordWord nbits w = false) :
    decodeTableWord nbits w = some (.cpuWord (BitVec.ofNat 16 w)) := by
  simp [decodeTableWord, h, decodeCpuWord]

end Sys2Proof

namespace Sys2Proof.Machine

/-! ## Refused selectors (R102) -/

/-- A step is refused where the waiting bytes are no record (R102 to R104). -/
theorem step_badRecord {s : State} {sel : Byte} {bs : List Byte} {e : DecodeError} (hs : s.inbox = sel :: bs)
    (h : decodeRecord (sel :: bs) = .error e) : step s = .refused (.badRecord e) := by
  simp [step, hs, h]

/-- Settles O3: RESTORE's selector and every row's are among the 36. -/
theorem otherSelectorsAreRefused : Obligations.OtherSelectorsAreRefused := by
  intro sel bs hsel
  have hr : sel ≠ restoreSelector := by
    rintro rfl
    exact hsel (by decide)
  have ht : ∀ row ∈ recordTable, row.selector ≠ sel := by
    rintro row hrow rfl
    apply hsel
    clear hsel hr
    revert row
    decide
  have hd := decodeRecord_unknownSelector hr ht bs
  exact ⟨hd, fun s hs => step_badRecord hs hd⟩

/-! ## Refused operand values (R103) -/

theorem levelOperandOk_eq_false {l : BitVec 3} (h : 6 ≤ l.toNat) : levelOperandOk l = false :=
  decide_eq_false (by omega)

theorem fieldOperandOk_eq_false {f : BitVec 5} (h : 17 ≤ f.toNat) : fieldOperandOk f = false :=
  decide_eq_false (by omega)

theorem levelOf_eq_none {l : BitVec 3} (h : levelOperandOk l = false) : levelOf l = none := by
  revert l
  decide

theorem dbgField_eq_none {f : BitVec 5} (h : fieldOperandOk f = false) : dbgField f = none :=
  dbgField_none (by simp only [fieldOperandOk, decide_eq_false_iff_not] at h; omega)

theorem onChannel_refused {c : BitVec 3} (h : channelOperandOk c = false) (x : Fin 7 → Res Result) :
    onChannel c x = .refused .refusedOperand := by
  obtain rfl : c = 7 := by simpa [channelOperandOk] using h
  rfl

/-- An operation with a refused operand value is refused for it, but for AGG_LINE of source 2, which R291 refuses as
internal. -/
theorem action_illFormed {i : Instr} {s : State} (hr : ∀ snap, i ≠ .restore snap)
    (h : i.wellFormed = false) (hs : s.resetDone = true) :
    action i s = .refused .refusedOperand ∨
      (∃ b, i = .aggLine 2 b) ∧ action i s = .refused .sourceIsInternal := by
  cases i with
  | restore snap => exact absurd rfl (hr snap)
  | aggLine src b =>
    obtain rfl : src = 2 := by simpa [Instr.wellFormed, sourceOperandOk] using h
    exact .inr ⟨⟨b, rfl⟩, rfl⟩
  | signalInt l b => exact .inl (by simp only [action, levelOf_eq_none h])
  | intEntry l => exact .inl (by simp only [action, afterReset_of _ hs, levelOf_eq_none h])
  | dbgRead f => exact .inl (by simp only [action, dbgField_eq_none h])
  | dbgWrite f v => exact .inl (by simp only [action, dbgField_eq_none h])
  | dmaWriteParam c slot v => exact .inl (onChannel_refused h _)
  | dmaReadParam c slot => exact .inl (onChannel_refused h _)
  | dmaTrigger c => exact .inl (onChannel_refused h _)
  | jcRead j =>
    obtain rfl : j = 3 := by simpa [Instr.wellFormed, jumpOperandOk] using h
    exact .inl rfl
  | _ => cases h

/-- Settles O4: the operand values listed are ill formed, and the decoder and the operation refuse what is ill formed. -/
theorem operandsThatNameNothingAreRefused : Obligations.OperandsThatNameNothingAreRefused := by
  intro i hi
  have hr : ∀ snap, i ≠ .restore snap := by
    rintro snap rfl
    simp at hi
  have hwf : i.wellFormed = false := by
    rcases hi with ⟨l, b, rfl, h⟩ | ⟨l, rfl, h⟩ | ⟨b, rfl⟩ | ⟨f, rfl, h⟩ | ⟨f, v, rfl, h⟩ | ⟨sl, v, rfl⟩ | ⟨sl, rfl⟩ |
      rfl | rfl
    · exact levelOperandOk_eq_false h
    · exact levelOperandOk_eq_false h
    · rfl
    · exact fieldOperandOk_eq_false h
    · exact fieldOperandOk_eq_false h
    · rfl
    · rfl
    · rfl
    · rfl
  refine ⟨decodeRecord_encode_illFormed hr hwf, fun s hs => ?_⟩
  rw [exec_unfaulted i hs.unfaulted]
  rcases action_illFormed hr hwf hs.reset with h | ⟨hagg, h⟩
  · exact .inl (by rw [h]; rfl)
  · exact .inr ⟨hagg, by rw [h]; rfl⟩

/-! ## Records written out (R100, R102) -/

/-- Settles O5: the five written-out records are those the encoder gives, and 0x1020 is wider than the row of
its low byte. -/
theorem writtenOutRecordsDecode : Obligations.WrittenOutRecordsDecode :=
  ⟨recordsDecodeToTheirInstruction (.signalInt 3 1) [] rfl nofun,
   recordsDecodeToTheirInstruction (.frWrite 0x0800) [] rfl nofun,
   recordsDecodeToTheirInstruction (.acWrite 2 0xBEEF) [] rfl nofun,
   recordsDecodeToTheirInstruction (.dmaWriteParam 3 1 0x0010) [] rfl nofun,
   recordsDecodeToTheirInstruction (.memWrite8 0x04001 0x12) [] rfl nofun,
   decodeTableWord_cpuWord (by decide)⟩

end Sys2Proof.Machine
end

section
/-! The statements about the execution engine: the instruction and its program, the step, the run and the wait state
(spec/40_engine.md). -/

namespace Sys2Proof.Machine

/-! ## The engine's operations on a running machine -/

theorem Running.frame {s t : State} (h : Frame s t) (hr : Running s) : Running t :=
  ⟨h.resetDone.trans hr.reset, h.fault.trans hr.unfaulted⟩

theorem Running.stepFrame {s t : State} (h : StepFrame s t) (hr : Running s) : Running t :=
  ⟨h.resetDone.trans hr.reset, h.fault.trans hr.unfaulted⟩

theorem exec_instr {s : State} (h : Running s) (w : Word) : exec (.instr w) s = (runInstr w s).outcome Result.cycles :=
  performAfterReset_running h.unfaulted h.reset

theorem exec_cpuWord {s : State} (h : Running s) (w : Word) :
    exec (.cpuWord w) s = (runCpuWord w s).outcome Result.cycles :=
  performAfterReset_running h.unfaulted h.reset

theorem exec_step {s : State} (h : Running s) : exec .step s = (engineStep s).outcome Result.cycles :=
  performAfterReset_running h.unfaulted h.reset

theorem exec_run {s : State} (h : Running s) (b : BitVec 32) :
    exec (.run b) s = (runLoop b.toInt.toNat b.toInt s).outcome Result.budget :=
  performAfterReset_running h.unfaulted h.reset

/-- A faulted machine is refused every operation but DBG_READ and SAVE (spec/60_exceptions.md R303). -/
theorem exec_faulted {i : Instr} {s : State} (hd : ∀ f, i ≠ .dbgRead f) (hs : i ≠ .save)
    (h : s.fault.isSome = true) :
    exec i s = .refused .faultedMachine :=
  (exec_eq hd hs s).trans (if_pos h)

/-! ## The step (R132) -/

/-- Settles O7: the fetch leaves the machine running, so that CPU_WORD of the word it answers is performed. -/
theorem stepExecutesTheWordAtPc : Obligations.StepExecutesTheWordAtPc := by
  intro s hi
  have hstep : step s = exec .step s := by simp only [step, hi, exec]
  refine ⟨hstep, fun hs ha hw w t hf => ?_⟩
  change fetchWord s.pc (emit (.debugHook s.pc) s) = .ok w t at hf
  have hfr := Sound.fetchWord s.pc (emit (.debugHook s.pc) s)
  rw [hf] at hfr
  have ht : Running t := (hs.frame (.emit (.debugHook s.pc) s)).frame hfr
  rw [hstep, exec_step hs, engineStep_fetch ha hw, hf, Res.bind_ok, exec_cpuWord ht]

/-! ## Unmodelled words (R140) -/

theorem runInstr_unmodelled {w : Word} {s : State} (h : isaExec s.cfg s.pc w = none) :
    runInstr w s = raise (.unmodelled s.pc w) s := by
  simp only [runInstr, h]

/-- Settles O43: INSTR and CPU_WORD raise the fault before they change anything, and a faulted machine is refused
STEP and RUN. -/
theorem unmodelledWordsFault : Obligations.UnmodelledWordsFault := by
  rintro w s _ hs hw rfl
  have hr : runInstr w s = .fault (.raised (.unmodelled s.pc w) { s with fault := some (.unmodelled s.pc w) }) :=
    (runInstr_unmodelled hw).trans (raise_unfaulted hs.unfaulted _)
  refine ⟨?_, ?_, exec_faulted nofun nofun rfl, fun _ => exec_faulted nofun nofun rfl⟩
  · rw [exec_instr hs, hr]; rfl
  · rw [exec_cpuWord hs, runCpuWord, hr]; rfl

/-! ## The wait state (R150 to R152) -/

/-- Settles O38: a step of such a machine is an idle step, and a run is nothing but idle steps. -/
theorem waitingMachineIdles : Obligations.WaitingMachineIdles := by
  intro b s hs hw ha
  constructor
  · obtain ⟨n, hn, he⟩ := costOf_eq s.cfg.idleCycles s
    exact ⟨n, by rw [exec_step hs, engineStep_idle ha hw, he]; rfl, hn⟩
  · intro hi
    obtain ⟨r, n, he, hr, hb⟩ := runLoop_idle hw ha hi (Int.self_le_toNat b.toInt)
    exact ⟨r, n, by rw [exec_run hs, he]; rfl, hr, hb⟩

theorem writeField_waiting (f : DbgField) (v : Word) (s : State) : (writeField f v s).waiting = s.waiting := by
  cases f <;> rfl

/-- Of the host's writes only RESET and RESTORE end the wait state. -/
theorem hostWrite_waiting {i : Instr} {s t : State} {v : Result} (hw : isHostWrite i = true)
    (hreset : ∀ strap, i ≠ .reset strap) (hrestore : ∀ snap, i ≠ .restore snap) (h : action i s = .ok v t) :
    t.waiting = s.waiting := by
  cases i with
  | reset strap => exact absurd rfl (hreset strap)
  | restore snap => exact absurd rfl (hrestore snap)
  | signalInt =>
    simp only [action] at h
    split at h
    · cases h
    · split at h <;> cases h
      rfl
  | aggLine =>
    simp only [action] at h
    split at h <;> cases h
    rfl
  | dbgWrite =>
    simp only [action] at h
    split at h <;> cases h
    exact writeField_waiting _ _ s
  | _ => cases hw

theorem afterReset_eq_ok {α : Type} {x : State → Res α} {s t : State} {v : α} (h : afterReset x s = .ok v t) :
    x s = .ok v t := by
  unfold afterReset at h
  split at h
  · exact h
  · cases h

/-- Of the engine's steps only an entry, which RUN may take too, ends the wait state (R152). -/
theorem engineAction_waiting {i : Instr} {s t : State} {v : Result} (he : isEngineStep i = true)
    (hentry : ∀ l, i ≠ .intEntry l) (hrun : ∀ b, i ≠ .run b) (hstep : i = .step → arbitrate s = none)
    (hw : s.waiting = true) (h : action i s = .ok v t) : t.waiting = true := by
  cases i with
  | intEntry l => exact absurd rfl (hentry l)
  | run b => exact absurd rfl (hrun b)
  | step =>
    simp only [action] at h
    obtain ⟨n, hn⟩ := Res.with_eq_ok (afterReset_eq_ok h)
    exact engineStep_waiting (hstep rfl) hw hn
  | instr w =>
    simp only [action] at h
    obtain ⟨n, hn⟩ := Res.with_eq_ok (afterReset_eq_ok h)
    exact runInstr_waiting hn hw
  | cpuWord w =>
    simp only [action] at h
    obtain ⟨n, hn⟩ := Res.with_eq_ok (afterReset_eq_ok h)
    exact runCpuWord_waiting hn hw
  | _ => cases he

/-- An instruction that is none of those named leaves a waiting machine waiting. -/
theorem exec_waiting {i : Instr} {s t : State} (hreset : ∀ strap, i ≠ .reset strap)
    (hrestore : ∀ snap, i ≠ .restore snap) (hentry : ∀ l, i ≠ .intEntry l) (hrun : ∀ b, i ≠ .run b)
    (hstep : i = .step → arbitrate s = none) (hw : s.waiting = true) (h : exec i s = .next t) : t.waiting = true := by
  obtain ⟨v, u, ha, rfl⟩ := exec_eq_next h
  show u.waiting = true
  cases hh : isHostWrite i with
  | true => exact (hostWrite_waiting hh hreset hrestore ha).trans hw
  | false =>
    cases he : isEngineStep i with
    | true => exact engineAction_waiting he hentry hrun hstep hw ha
    | false =>
      have hf := Sound.action hh he s
      rw [ha] at hf
      exact Frame.waiting hf hw

/-- Settles O39: any other instruction, and STEP with no level requested and enabled, would leave the machine waiting. -/
theorem waitEndsOnlyByEntryOrReset : Obligations.WaitEndsOnlyByEntryOrReset := by
  intro i s t hw h ht
  by_contra hn
  simp only [not_or, not_exists, not_and] at hn
  obtain ⟨hreset, hrestore, hentry, hrun, hstep⟩ := hn
  have hnone : i = .step → arbitrate s = none := fun hi => Option.eq_none_iff_forall_ne_some.mpr (hstep hi)
  rw [exec_waiting hreset hrestore hentry hrun hnone hw h] at ht
  cases ht

/-! ## The run (R133) -/

/-- States that are alike but for what the last operation returned differ in nothing where they agree on that too. -/
theorem State.eq_of_setResult {s t : State} {v w : Result} (h : { s with result := v } = { t with result := w })
    (hr : s.result = t.result) : s = t ∧ v = w := by
  cases s
  cases t
  simp only [State.mk.injEq] at h hr ⊢
  simp [h, hr]

/-- The step that a STEP of a running machine performed. -/
theorem engineStep_of_exec_step {s t : State} {n : Nat} (hs : Running s)
    (h : exec .step s = .next { t with result := .cycles n }) (hr : t.result = s.result) : engineStep s = .ok n t := by
  rw [exec_step hs] at h
  obtain ⟨m, u, he, hu⟩ := Res.outcome_eq_next.mp h
  have hf := StepSound.engineStep s
  rw [he] at hf
  obtain ⟨rfl, hm⟩ := State.eq_of_setResult hu (hr.trans (StepFrame.result hf).symm)
  cases hm
  exact he

theorem runLoop_step {fuel n : Nat} {b : Int} {s t : State} (hb : 0 < b) (h : engineStep s = .ok n t) :
    runLoop (fuel + 1) b s = runLoop fuel (b - n) t := by
  simp only [runLoop, Int.not_le.mpr hb, if_false, h]

theorem runLoop_fault {fuel : Nat} {b : Int} {s left : State} {r : FaultReason} (hb : 0 < b)
    (h : engineStep s = .fault (.raised r left)) :
    runLoop (fuel + 1) b s = .fault (.raised r { left with result := .budget b }) := by
  simp only [runLoop, Int.not_le.mpr hb, if_false, h]

/-- A budget that a step leaves positive is again a budget of 32 bits. -/
theorem toInt_ofInt_sub {b : BitVec 32} {n : Nat} (h : (n : Int) < b.toInt) :
    (BitVec.ofInt 32 (b.toInt - n)).toInt = b.toInt - n := by
  have hb := BitVec.toInt_lt (x := b)
  apply BitVec.toInt_ofInt_eq_self <;> omega

theorem Res.outcome_eq_refused {α : Type} {x : Res α} {res : α → Result} {r : Refusal} :
    x.outcome res = .refused r ↔ x = .refused r := by
  cases x <;> simp [Res.outcome]

/-- Settles O40: a positive budget has the fuel for one step, and the fuel left is as good as the budget left. -/
theorem runTakesStepsUntilTheBudgetIsSpent : Obligations.RunTakesStepsUntilTheBudgetIsSpent := by
  intro b s hs hc
  have hfuel : 0 < b.toInt → ∃ k, b.toInt.toNat = k + 1 := fun hb => ⟨b.toInt.toNat - 1, by omega⟩
  refine ⟨fun hb => ?_, fun hb n t h hr => ?_, fun hb r left h => ?_, fun h => ?_⟩
  · rw [exec_run hs, runLoop_done hb]; rfl
  · have he := engineStep_of_exec_step hs h hr
    have hn := engineStep_cost hc he
    have hf := StepSound.engineStep s
    rw [he] at hf
    obtain ⟨k, hk⟩ := hfuel hb
    refine ⟨hn, fun hle => ?_, fun hlt => ?_⟩
    · rw [exec_run hs, hk, runLoop_step hb he, runLoop_done (by omega)]; rfl
    · have hct : configOk t.cfg = true := by rw [StepFrame.cfg hf]; exact hc
      rw [exec_run hs, hk, runLoop_step hb he, exec_run (hs.stepFrame hf), toInt_ofInt_sub hlt,
        runLoop_fuel hct (by omega) (Int.self_le_toNat _)]
  · rw [exec_step hs, Res.outcome_eq_fault] at h
    obtain ⟨k, hk⟩ := hfuel hb
    rw [exec_run hs, hk, runLoop_fault hb h]; rfl
  · rw [exec_run hs, Res.outcome_eq_refused] at h
    exact runLoop_ends hc (Int.self_le_toNat _) h

/-! ## An instruction and its program (R136 to R141) -/

/-- Where a program's expressions are evaluated at its start (R136). -/
def programScope (w : Word) (s : State) : Scope := { pc := s.pc, word := w, vals := [] }

theorem runInstr_program {w : Word} {p : Prog IsaPrim Nat} {s : State} (h : isaExec s.cfg s.pc w = some p) :
    runInstr w s =
      (runProg performInstr p (programScope w s) (beginInstr s)).bind fun r t => .ok r.1 (endInstr t) := by
  simp only [runInstr, h, programScope]

/-- An instruction completes where its program ends. -/
theorem runInstr_ok {w : Word} {p : Prog IsaPrim Nat} {n : Nat} {sc : Scope} {s t : State}
    (h : isaExec s.cfg s.pc w = some p)
    (hr : runProg performInstr p (programScope w s) (beginInstr s) = .ok (n, sc) t) :
    runInstr w s = .ok n (endInstr t) := by
  rw [runInstr_program h, hr]; rfl

theorem exec_instr_ok {w : Word} {n : Nat} {s t : State} (hs : Running s) (h : runInstr w s = .ok n t) :
    exec (.instr w) s = .next { t with result := .cycles n } := by
  rw [exec_instr hs, h]; rfl

/-- CPU_WORD is the instruction with its cost (R134). -/
theorem runCpuWord_ok {w : Word} {n : Nat} {s t : State} (h : runInstr w s = .ok n t) :
    runCpuWord w s = .ok (cycleCost n t).1 { t with draws := t.draws + n } := by
  rw [runCpuWord, h, Res.bind_ok, costOf, (cycleCost_eq n t).1]

theorem exec_cpuWord_ok {w : Word} {n : Nat} {s t : State} (hs : Running s) (h : runInstr w s = .ok n t) :
    exec (.cpuWord w) s = .next { t with draws := t.draws + n, result := .cycles (cycleCost n t).1 } := by
  rw [exec_cpuWord hs, runCpuWord_ok h]; rfl

theorem Frame.lengthCounted (p : IsaPrim) (s : State) : Frame s (lengthCounted p s) := by
  cases p with
  | fetch k => exact Frame.ilen _ s
  | _ => exact Frame.refl s

/-- A call of a program, told by the outcome of the operation of the primitive's name (R139): the program goes on in the
state the operation leaves, with its result, or stops where it stops. -/
theorem runProg_call_exec (p : IsaPrim) (k : Prog IsaPrim Nat) (sc : Scope) {s : State} (hs : Running s) :
    (∀ t, exec (primitiveInstr p sc s) (lengthCounted p s) = .next t →
      runProg performInstr (.call p k) sc s =
        runProg performInstr k { sc with vals := sc.vals ++ [resultWord t.result] } { t with result := s.result }) ∧
    (∀ f, exec (primitiveInstr p sc s) (lengthCounted p s) = .fault f → runProg performInstr (.call p k) sc s = .fault f) ∧
    (∀ r, exec (primitiveInstr p sc s) (lengthCounted p s) = .refused r →
      runProg performInstr (.call p k) sc s = .refused r) := by
  obtain ⟨hw, he⟩ := primitiveInstr_plain p sc s
  have hl := Frame.lengthCounted p s
  rw [runProg_call p k sc hs.reset, ← hl.result]
  exact action_bind (hs.frame hl).unfaulted hw he _

/-- Settles O41: a call is its operation, and an instruction completes where its program ends. -/
theorem instructionsRunTheirProgram : Obligations.InstructionsRunTheirProgram := by
  refine ⟨fun p k sc s hs => runProg_call_exec p k sc hs, fun w p n sc s t hs h hr => ?_⟩
  have hi : runInstr w s = .ok n (endInstr t) := runInstr_ok h hr
  exact ⟨endInstr t, rfl, exec_instr_ok hs hi, _, exec_cpuWord_ok hs hi, (cycleCost_eq n _).2⟩

/-! ## The parts of a program that move PC (R137, R138, R172) -/

theorem exec_fetch_ram {a : Word} {s : State} (h : s.fault = none) (hd : decodeAddr s.cfg a = .external)
    (hk : memKind s.cfg a = .ram) : exec (.fetch a) s = .next { s with result := .word (s.mem.readWord a) } := by
  rw [exec_fetch_eq_memRead16 hd, exec_memRead16_ram h hd hk]

/-- A program goes on after the fetch of a further word in RAM with that word, counted (R137). -/
theorem runProg_fetch_ram {k : Nat} (q : Prog IsaPrim Nat) (sc : Scope) {s : State} (hs : Running s)
    (hd : decodeAddr s.cfg (s.pc + BitVec.ofNat 16 k) = .external)
    (hk : memKind s.cfg (s.pc + BitVec.ofNat 16 k) = .ram) :
    runProg performInstr (.call (.fetch k) q) sc s =
      runProg performInstr q { sc with vals := sc.vals ++ [s.mem.readWord (s.pc + BitVec.ofNat 16 k)] }
        (lengthCounted (.fetch k) s) :=
  (runProg_call_exec (.fetch k) q sc hs).1 _ (exec_fetch_ram (s := lengthCounted (.fetch k) s) hs.unfaulted hd hk)

/-- The first further word of an instruction counts (R137). -/
theorem lengthCounted_fetch_beginInstr (k : Nat) (s : State) :
    lengthCounted (.fetch k) (beginInstr s) = { beginInstr s with ilen := 1 + k } := by
  simp only [lengthCounted, beginInstr_ilen, Nat.max_eq_right (Nat.le_add_right 1 k)]

/-- The state after an instruction that writes accumulator j and goes on to the next word. -/
def afterAcWrite (j v : Word) (s : State) : State :=
  endInstr (writeAc (acIndex (j.setWidth 2)) (.val v) (beginInstr s))

theorem runInstr_acWrite {w v j : Word} {n : Nat} {s : State}
    (h : isaExec s.cfg s.pc w = some (.call (.acWrite (.lit j) (.lit v)) (.done n))) :
    runInstr w s = .ok n (afterAcWrite j v s) :=
  runInstr_ok (sc := { programScope w s with vals := [0] }) h rfl

/-- The accumulators after a program's write of the one that the low two bits of j name. -/
theorem writeAc_lowBits_get (j : Word) (c : Cell) (s : State) (i : Fin 4) :
    (writeAc (acIndex (j.setWidth 2)) c s).ac.get i = if i.val = j.toNat % 4 then c else s.ac.get i := by
  rw [writeAc_get]
  simp only [acIndex, Fin.ext_iff, BitVec.toNat_setWidth]

/-- A step of the engine that executes word w in RAM. -/
theorem engineStep_ram {w : Word} {s : State} (ha : arbitrate s = none) (hw : s.waiting = false)
    (hd : decodeAddr s.cfg s.pc = .external) (hk : memKind s.cfg s.pc = .ram) (hm : s.mem.readWord s.pc = w) :
    engineStep s = runCpuWord w (emit (.debugHook s.pc) s) := by
  have hf : fetchWord s.pc (emit (.debugHook s.pc) s) = .ok (s.mem.readWord s.pc) (emit (.debugHook s.pc) s) :=
    fetchWord_ram hd hk
  rw [engineStep_fetch ha hw, hf, Res.bind_ok, hm]

/-- An instruction that writes an accumulator, in INSTR, CPU_WORD and a step of the engine, whose debug hook changes
neither the instruction nor its cost. -/
theorem acWriteProgram_movesPc {w v j : Word} {n : Nat} {s : State} (hs : Running s)
    (h : isaExec s.cfg s.pc w = some (.call (.acWrite (.lit j) (.lit v)) (.done n))) :
    exec (.instr w) s = .next { afterAcWrite j v s with result := .cycles n } ∧
    ∃ m, n ≤ m ∧ exec (.cpuWord w) s = .next { afterAcWrite j v s with draws := s.draws + n, result := .cycles m } ∧
      (decodeAddr s.cfg s.pc = .external → memKind s.cfg s.pc = .ram → s.mem.readWord s.pc = w →
        arbitrate s = none → s.waiting = false →
        exec .step s = .next { afterAcWrite j v s with
          draws := s.draws + n, trace := s.trace ++ [.debugHook s.pc], result := .cycles m }) := by
  have hi := runInstr_acWrite h
  refine ⟨exec_instr_ok hs hi, _, (cycleCost_eq n _).2, exec_cpuWord_ok hs hi, fun hd hk hm ha hw => ?_⟩
  have hhook : runInstr w (emit (.debugHook s.pc) s) = .ok n (afterAcWrite j v (emit (.debugHook s.pc) s)) :=
    runInstr_acWrite h
  have hcost : (cycleCost n (afterAcWrite j v (emit (.debugHook s.pc) s))).1 = (cycleCost n (afterAcWrite j v s)).1 :=
    cycleCost_fst n rfl
  rw [exec_step hs, engineStep_ram ha hw hd hk hm, runCpuWord_ok hhook, hcost]
  rfl

/-- An instruction that calls one primitive and writes its result to an accumulator, told by the outcome of the
operation of the primitive's name (R139). -/
theorem exec_instr_onePrimitive {w j : Word} {n : Nat} {p : IsaPrim} {s : State} (hs : Running s)
    (h : isaExec s.cfg s.pc w = some (.call p (.call (.acWrite (.lit j) (.var 0)) (.done n)))) :
    (∀ t, exec (primitiveInstr p (programScope w s) s) (lengthCounted p (beginInstr s)) = .next t →
      exec (.instr w) s = .next
        { endInstr (writeAc (acIndex (j.setWidth 2)) (.val (resultWord t.result)) t) with result := .cycles n }) ∧
    (∀ f, exec (primitiveInstr p (programScope w s) s) (lengthCounted p (beginInstr s)) = .fault f →
      exec (.instr w) s = .fault f) ∧
    (∀ r, exec (primitiveInstr p (programScope w s) s) (lengthCounted p (beginInstr s)) = .refused r →
      exec (.instr w) s = .refused r) := by
  have hsame : primitiveInstr p (programScope w s) s = primitiveInstr p (programScope w s) (beginInstr s) := by
    cases p <;> rfl
  have hb : Running (beginInstr s) := hs.stepFrame (.beginInstr s)
  obtain ⟨hnext, hfault, hrefused⟩ := runProg_call_exec p _ (programScope w s) hb
  rw [hsame, exec_instr hs, runInstr_program h]
  refine ⟨fun t ht => ?_, fun f hf => ?_, fun r hr => ?_⟩
  · rw [hnext t ht]; rfl
  · rw [hfault f hf]; rfl
  · rw [hrefused r hr]; rfl

/-- Settles O42: the programs that write an accumulator or call PC_WRITE run to their end, and a fetched word written to an
accumulator is the one-primitive program of FETCH. -/
theorem programsMoveThePc : Obligations.ProgramsMoveThePc := by
  intro w v j k n s hs
  refine ⟨fun h => ?_, fun h hd hk => ?_, fun h hd hk => ?_, ?_⟩
  · exact ⟨afterAcWrite j v s, rfl, writeAc_lowBits_get j _ (beginInstr s), acWriteProgram_movesPc hs h⟩
  · have hb : Running (beginInstr s) := hs.stepFrame (.beginInstr s)
    rw [exec_instr hs, runInstr_program h, runProg_fetch_ram _ _ hb hd hk]; rfl
  · have hexec := exec_fetch_ram (s := { beginInstr s with ilen := 1 + k }) hs.unfaulted hd hk
    have hnext := (exec_instr_onePrimitive hs h).1
    rw [lengthCounted_fetch_beginInstr] at hnext
    exact ⟨_, hnext _ hexec, writeAc_lowBits_get j _ { beginInstr s with ilen := 1 + k }, rfl⟩
  · rintro p _ _ h rfl rfl
    obtain ⟨hnext, hfault, hrefused⟩ := exec_instr_onePrimitive hs h
    exact ⟨fun t ht => ⟨_, hnext t ht, writeAc_lowBits_get j _ t, rfl⟩, hfault, hrefused⟩

end Sys2Proof.Machine
end

section
/-! The statements about the register file: the flag register, the hardware stack as a ring of ten, the accumulators and
the debugger's fields (spec/41_register_file.md). -/

namespace Sys2Proof.Machine

/-! ## The register file's operations on a machine that can go on -/

theorem exec_frWrite (v : Word) {s : State} (h : s.fault = none) :
    exec (.frWrite v) s = .next { setFlags v s with result := .none } :=
  exec_unfaulted (.frWrite v) h

theorem exec_acWrite (i : BitVec 2) (v : Word) {s : State} (h : s.fault = none) :
    exec (.acWrite i v) s = .next { writeAc (acIndex i) (.val v) s with result := .none } :=
  exec_unfaulted (.acWrite i v) h

theorem exec_acRead (i : BitVec 2) {s : State} (h : s.fault = none) :
    exec (.acRead i) s = (readAc (acIndex i) s).outcome Result.word :=
  perform_unfaulted h

theorem exec_spWrite (v : Byte) {s : State} (h : s.fault = none) :
    exec (.spWrite v) s = .next { s with sp := clamp v, result := .none } :=
  exec_unfaulted (.spWrite v) h

/-- The state after STACK_PUSH. -/
def afterPush (v : Word) (s : State) : State := { push v s with result := .none }

theorem exec_stackPush (v : Word) {s : State} (h : Running s) : exec (.stackPush v) s = .next (afterPush v s) :=
  performAfterReset_running h.unfaulted h.reset

theorem exec_stackPop {s : State} (h : Running s) : exec .stackPop s = (pop s).outcome Result.word :=
  performAfterReset_running h.unfaulted h.reset

/-! ## The flag register (R163) -/

/-- The callbacks of a write are one for each bit of 11..14 that changes, with its new level. -/
theorem mem_flagOuts {old v : Word} {e : Event} :
    e ∈ flagOuts old v ↔ ∃ k : Fin 4, v.getLsbD (11 + k.val) ≠ old.getLsbD (11 + k.val) ∧
      e = .flagOut k (v.getLsbD (11 + k.val)) := by
  change e ∈ (List.finRange 4).filterMap _ ↔ _
  simp only [List.mem_filterMap, List.mem_finRange, true_and, ite_eq_iff, reduceCtorEq, and_false, false_or,
    Option.some.injEq, ne_eq, eq_comm (a := e)]

/-- They come in ascending order of their bits. -/
theorem flagOuts_ascending (old v : Word) :
    (flagOuts old v).Pairwise fun a b => ∀ j k x y, a = .flagOut j x → b = .flagOut k y → j < k := by
  change ((List.finRange 4).filterMap _).Pairwise _
  rw [List.pairwise_filterMap]
  refine (List.pairwise_lt_finRange 4).imp fun {p q} hpq a ha b hb j k x y haj hbk => ?_
  simp only [ite_eq_iff, reduceCtorEq, and_false, false_or, Option.some.injEq] at ha hb
  obtain ⟨-, rfl⟩ := ha
  obtain ⟨-, rfl⟩ := hb
  cases haj
  cases hbk
  exact hpq

/-- Settles O13: the events FR_WRITE adds are the callbacks of its bits that change. -/
theorem flagWriteCallsBackAndCommits : Obligations.FlagWriteCallsBackAndCommits := by
  intro v s h
  exact ⟨flagOuts s.fr v, exec_frWrite v h, fun _ => mem_flagOuts, flagOuts_ascending s.fr v⟩

/-! ## The stack (R165 to R173) -/

/-- Settles O15: SP_WRITE leaves the clamp of its operand. -/
theorem stackPointerWriteClamps : Obligations.StackPointerWriteClamps := by
  intro v s h
  exact ⟨clamp v, exec_spWrite v h, clamp_toNat v⟩

theorem afterPush_eq (v : Word) (s : State) :
    afterPush v s = { s with
      sp := clamp (s.sp.setWidth 8 + 1), stk := s.stk.setIfInBounds s.sp.toNat (.val v), pending := wrapPending 9#4 s,
      result := .none } := by
  rw [afterPush, push_eq]

theorem Running.afterPush (v : Word) {s : State} (h : Running s) : Running (afterPush v s) := by
  rw [afterPush_eq]; exact ⟨h.reset, h.unfaulted⟩

theorem afterPush_sp (v : Word) {s : State} (h : StackPointerInRange s) :
    (afterPush v s).sp.toNat = (s.sp.toNat + 1) % 10 := by
  rw [afterPush_eq]; exact clamp_succ s.sp h

/-- Settles O16: the slot written is the one SP names. -/
theorem pushStoresAndMovesUp : Obligations.PushStoresAndMovesUp := by
  intro v s hs hsp
  refine ⟨afterPush v s, exec_stackPush v hs, afterPush_sp v hsp, fun j => ?_, ?_, ?_⟩ <;> rw [afterPush_eq]
  · exact stk_get_setIfInBounds s.stk s.sp.toNat (.val v) j
  · rfl

theorem exec_stackPop_val {s : State} {w : Word} (hs : Running s)
    (h : stkSlot s (clamp (s.sp.setWidth 8 - 1)) = .val w) :
    exec .stackPop s = .next { popPointer s with result := .word w } := by
  rw [exec_stackPop hs, pop_val h]; rfl

theorem exec_stackPop_undef {s : State} (hs : Running s) (h : stkSlot s (clamp (s.sp.setWidth 8 - 1)) = .undef) :
    exec .stackPop s =
      .fault (.raised (.readUndefined .stk ((clamp (s.sp.setWidth 8 - 1)).setWidth 16))
        { popPointer s with fault := some (.readUndefined .stk ((clamp (s.sp.setWidth 8 - 1)).setWidth 16)) }) := by
  have hf : (popPointer s).fault = none := (Frame.popPointer s).fault.trans hs.unfaulted
  rw [exec_stackPop hs, pop_undef h, raise_unfaulted hf, popPointer_eq]; rfl

/-- Settles O17: the slot read is the one the moved SP names. -/
theorem popMovesDownAndReturns : Obligations.PopMovesDownAndReturns := by
  intro s hs hsp
  refine ⟨clamp (s.sp.setWidth 8 - 1), popPointer s, clamp_pred s.sp hsp, popPointer_eq s, fun j hj => ?_⟩
  have hslot : stkSlot s (clamp (s.sp.setWidth 8 - 1)) = s.stk.get j := stkSlot_of_val s _ j hj
  refine ⟨fun w hw => exec_stackPop_val hs (hslot.trans hw), fun hu => ?_⟩
  rw [hj, BitVec.ofNat_toNat]
  exact exec_stackPop_undef hs (hslot.trans hu)

/-! ## The ring of ten (R173) -/

/-- A slot's number as a byte is the one SP has. -/
theorem exists_slot_of_lt {p : Byte} (h : p.toNat < 10) : ∃ q : BitVec 4, q.toNat = p.toNat ∧ p = q.setWidth 8 :=
  ⟨p.setWidth 4, by simp only [BitVec.toNat_setWidth]; omega,
    BitVec.eq_of_toNat_eq (by simp only [BitVec.toNat_setWidth]; omega)⟩

/-- SP_WRITE of a slot's number and one, up and down, moves around the ring. -/
theorem exec_spWrite_neighbours {s : State} (hf : s.fault = none) {p : Byte} (hp : p.toNat < 10) :
    ∃ q r : BitVec 4,
      exec (.spWrite (p + 1)) s = .next { s with sp := q, result := .none } ∧ q.toNat = (p.toNat + 1) % 10 ∧
      exec (.spWrite (p - 1)) s = .next { s with sp := r, result := .none } ∧ r.toNat = (p.toNat + 9) % 10 := by
  obtain ⟨q, hq, rfl⟩ := exists_slot_of_lt hp
  rw [← hq] at hp ⊢
  exact ⟨_, _, exec_spWrite _ hf, clamp_succ q (by omega), exec_spWrite _ hf, clamp_pred q (by omega)⟩

/-- A push followed by a pop returns the pushed word and restores SP. -/
theorem exec_stackPop_afterPush (v : Word) {s : State} (hs : Running s) (hsp : StackPointerInRange s) :
    ∃ u, exec .stackPop (afterPush v s) = .next u ∧ u.result = .word v ∧ u.sp = s.sp ∧
      u.stk = (afterPush v s).stk := by
  obtain ⟨hslot, hback⟩ := stkSlot_push v s hsp
  refine ⟨_, exec_stackPop_val (hs.afterPush v) hslot, rfl, ?_, ?_⟩ <;> rw [popPointer_eq]
  exact hback

/-- State `t` is what the pushes of `ws`, at most ten of them, leave of state `s`: SP is as many slots further up the ring,
L1 is requested where that passes its end, and the slots from the old SP on hold the words. -/
structure PushedFrom (s : State) (ws : List Word) (t : State) : Prop where
  running : Running t
  sp      : t.sp.toNat = (s.sp.toNat + ws.length) % 10
  pending : t.pending = if s.sp.toNat + ws.length < 10 then s.pending else { s.pending with l1 := true }
  slots   : ∀ k, k < ws.length → t.stk[(s.sp.toNat + k) % 10]? = (ws[k]?).map Cell.val

theorem PushedFrom.nil {s : State} (hs : Running s) (hsp : StackPointerInRange s) : PushedFrom s [] s where
  running := hs
  sp := (Nat.mod_eq_of_lt (Nat.lt_succ_of_le hsp)).symm
  pending := (if_pos (Nat.lt_succ_of_le hsp)).symm
  slots := nofun

/-- One more push, where not all ten slots are taken. -/
theorem PushedFrom.push {s t : State} {ws : List Word} (v : Word) (h : PushedFrom s ws t) (hsp : StackPointerInRange s)
    (hlen : ws.length < 10) : PushedFrom s (ws ++ [v]) (afterPush v t) := by
  have hs : s.sp.toNat ≤ 9 := hsp
  have ht := h.sp
  have htop : t.sp = 9#4 ↔ t.sp.toNat = 9 := BitVec.toNat_inj.symm
  refine ⟨h.running.afterPush v, ?_, ?_, fun k hk => ?_⟩
  · have hin : StackPointerInRange t := by unfold StackPointerInRange; omega
    rw [afterPush_sp v hin, ht, List.length_append, List.length_singleton]
    omega
  · rw [afterPush_eq, List.length_append, List.length_singleton]
    simp only [wrapPending, h.pending, htop, ht]
    rcases Nat.lt_trichotomy (s.sp.toNat + ws.length) 9 with hbefore | hwrap | hafter
    · rw [if_neg (by omega), if_pos (by omega), if_pos (by omega)]
    · rw [if_pos (by omega), if_pos (by omega), if_neg (by omega)]
    · rw [if_neg (by omega), if_neg (by omega), if_neg (by omega)]
  · rw [afterPush_eq]
    simp only [Vector.getElem?_setIfInBounds, ht]
    rw [List.length_append, List.length_singleton] at hk
    by_cases hlast : k = ws.length
    · subst hlast
      simp [Nat.mod_lt]
    · rw [if_neg (by omega), h.slots k (by omega), List.getElem?_append_left (by omega)]

/-- Ten pushes go once around the ring. -/
theorem PushedFrom.ten {s t : State} {ws : List Word} (h : PushedFrom s ws t) (hsp : StackPointerInRange s)
    (hlen : ws.length = 10) :
    t.sp = s.sp ∧ t.pending = { s.pending with l1 := true } ∧
      ∀ k : Fin 10, t.stk[(s.sp.toNat + k.val) % 10]? = (ws[k.val]?).map Cell.val := by
  have hs : s.sp.toNat ≤ 9 := hsp
  have hround := h.sp
  refine ⟨BitVec.eq_of_toNat_eq (by omega), ?_, fun k => h.slots k (by omega)⟩
  rw [h.pending, if_neg (by omega)]

/-- Pushes one after another, at most ten of them. -/
theorem pushedFrom_of_foldlM {f : State → Word → Option State}
    (hf : ∀ (v : Word) (u : State), Running u → f u v = some (afterPush v u))
    {s : State} (hs : Running s) (hsp : StackPointerInRange s) (ws : List Word) (hlen : ws.length ≤ 10) :
    ∃ t, ws.foldlM f s = some t ∧ PushedFrom s ws t := by
  induction ws using List.reverseRecOn with
  | nil => exact ⟨s, rfl, .nil hs hsp⟩
  | append_singleton ws v ih =>
    rw [List.length_append, List.length_singleton] at hlen
    obtain ⟨t, ht, hp⟩ := ih (by omega)
    refine ⟨afterPush v t, ?_, hp.push v hsp (by omega)⟩
    simp [List.foldlM_append, ht, hf v t hp.running]

/-- Settles O18: SP_WRITE, a push with its pop, and ten pushes, which go once around the ring. -/
theorem stackPointerIsARingOfTen : Obligations.StackPointerIsARingOfTen := by
  intro s hs hsp
  refine ⟨fun p hp => exec_spWrite_neighbours hs.unfaulted hp, fun v => ?_, fun ws hws => ?_⟩
  · obtain ⟨u, hpop, hkept⟩ := exec_stackPop_afterPush v hs hsp
    exact ⟨afterPush v s, u, exec_stackPush v hs, hpop, hkept⟩
  · refine (pushedFrom_of_foldlM (fun v u hu => ?_) hs hsp ws hws.le).imp
      fun t ⟨ht, hp⟩ => ⟨ht, hp.ten hsp hws⟩
    simp only [exec_stackPush v hu]

/-! ## The accumulators (R160, R161, R171) -/

theorem acIndex_inj {i j : BitVec 2} : acIndex i = acIndex j ↔ i = j := by
  simp only [acIndex, Fin.mk.injEq, BitVec.toNat_inj]

theorem exec_acRead_val {i : BitVec 2} {w : Word} {s : State} (hf : s.fault = none)
    (h : s.ac.get (acIndex i) = .val w) : exec (.acRead i) s = .next { s with result := .word w } := by
  rw [exec_acRead i hf, readAc, h]; rfl

theorem exec_acRead_undef {i : BitVec 2} {s : State} (hf : s.fault = none) (h : s.ac.get (acIndex i) = .undef) :
    exec (.acRead i) s = .fault (.raised (.readUndefined .ac (i.setWidth 16))
      { s with fault := some (.readUndefined .ac (i.setWidth 16)) }) := by
  rw [exec_acRead i hf, readAc, h, ← BitVec.ofNat_toNat]
  exact congrArg (Res.outcome · Result.word) (raise_unfaulted hf _)

/-- Settles O19: the operands name four different accumulators. -/
theorem accumulatorsReadBack : Obligations.AccumulatorsReadBack := by
  intro i v s hf
  refine ⟨⟨_, exec_acWrite i v hf, rfl, fun j => ?_⟩, fun w => exec_acRead_val hf, exec_acRead_undef hf⟩
  simpa only [acIndex_inj] using writeAc_get (acIndex i) (acIndex j) (.val v) s

/-! ## The debugger's fields (R180, R181) -/

/-- A debugger read of a field that a number names, on a faulted machine too. -/
theorem exec_dbgRead_field {f : BitVec 5} {d : DbgField} (h : dbgField f = some d) (s : State) :
    exec (.dbgRead f) s = (readField d s).outcome Result.cell := by
  rw [exec_dbgRead]; simp only [action, h, Res.finish_with]

theorem exec_dbgWrite_field {f : BitVec 5} {d : DbgField} (h : dbgField f = some d) (v : Word) {s : State}
    (hf : s.fault = none) : exec (.dbgWrite f v) s = .next { writeField d v s with result := .none } := by
  rw [exec_unfaulted _ hf]; simp only [action, h, Res.finish]

theorem readField_pc {s : State} (h : s.resetDone = true) : readField .pc s = .ok (.val s.pc) s := if_pos h

theorem readField_sp {s : State} (h : s.resetDone = true) : readField .sp s = .ok (.val (s.sp.setWidth 16)) s :=
  if_pos h

/-- A number above 16 names no field. -/
theorem exec_dbg_refused {f : BitVec 5} (h : 17 ≤ f.toNat) (v : Word) (s : State) :
    exec (.dbgRead f) s = .refused .refusedOperand ∧
      (s.fault = none → exec (.dbgWrite f v) s = .refused .refusedOperand) := by
  have hd := dbgField_none h
  constructor
  · rw [exec_dbgRead]; simp only [action, hd, Res.finish]
  · intro hf
    rw [exec_unfaulted _ hf]; simp only [action, hd, Res.finish]

theorem acIndex_ofNat (i : Fin 4) : acIndex (BitVec.ofNat 2 i.val) = i :=
  Fin.ext (Nat.mod_eq_of_lt i.isLt)

/-- The stack after a debugger write of a slot. -/
theorem writeField_stk_get (j k : Fin 10) (v : Word) (s : State) :
    (writeField (.stk j) v s).stk.get k = if k = j then .val v else s.stk.get k := by
  have hj : (BitVec.ofNat 4 j.val).toNat = j.val := Nat.mod_eq_of_lt (by omega)
  change (s.stk.setIfInBounds (BitVec.ofNat 4 j.val).toNat (.val v)).get k = _
  rw [stk_get_setIfInBounds, hj]
  simp only [Fin.ext_iff]

/-- Settles O20: each number names its field, whose read and write are those of the field. -/
theorem debuggerWritesThenReads : Obligations.DebuggerWritesThenReads := by
  intro f v s
  refine ⟨fun h => exec_dbg_refused h v s, ?_, ?_, fun i hi => ?_, ?_, fun j hj => ?_⟩
  · rintro rfl
    have hd : dbgField 0 = some .pc := rfl
    exact ⟨fun hr => by rw [exec_dbgRead_field hd, readField_pc hr]; rfl, exec_dbgWrite_field hd v⟩
  · rintro rfl
    have hd : dbgField 1 = some .fr := rfl
    exact ⟨exec_dbgRead_field hd s, fun hf => (exec_dbgWrite_field hd v hf).trans (exec_frWrite v hf).symm⟩
  · have hd := dbgField_ac hi
    refine ⟨exec_dbgRead_field hd s, fun hf => ?_⟩
    rw [exec_dbgWrite_field hd v hf, exec_acWrite _ v hf, acIndex_ofNat]; rfl
  · rintro rfl
    have hd : dbgField 6 = some .sp := rfl
    refine ⟨fun hr => ⟨s.sp.setWidth 16, BitVec.toNat_setWidth_of_le (by decide), ?_⟩, fun hf => ?_⟩
    · rw [exec_dbgRead_field hd, readField_sp hr]; rfl
    · rw [exec_dbgWrite_field hd v hf, exec_spWrite _ hf, ← BitVec.setWidth_eq_extractLsb' (by decide)]; rfl
  · have hd := dbgField_stk hj
    exact ⟨exec_dbgRead_field hd s, fun hf =>
      ⟨_, exec_dbgWrite_field hd v hf, rfl, fun k => writeField_stk_get j k v s⟩⟩

/-! ## The primitives that only read, and PC_WRITE -/

theorem exec_spRead {s : State} (h : Running s) :
    exec .spRead s = .next { s with result := .word (s.sp.setWidth 16) } :=
  performAfterReset_running h.unfaulted h.reset

/-- JC_READ of an input that is there draws its level (spec/40_engine.md R142). -/
theorem exec_jcRead {j : BitVec 2} (hj : j.toNat ≤ 2) {s : State} (h : s.fault = none) :
    exec (.jcRead j) s = .next { s with draws := s.draws + 1, result := .bool (Config.drawBool s.draws) } := by
  have hne : j ≠ 3#2 := fun e => absurd hj (by rw [e]; decide)
  have hdraw : readJump j s = drawBool s := if_neg hne
  refine (perform_unfaulted h).trans ?_
  rw [hdraw]; rfl

/-- Settles O14: each primitive by its action. -/
theorem plainPrimitivesComplete : Obligations.PlainPrimitivesComplete := by
  intro v j s hs
  exact ⟨exec_unfaulted .frRead hs.unfaulted,
    ⟨_, exec_spRead hs, BitVec.toNat_setWidth_of_le (by decide)⟩,
    exec_unfaulted .idle hs.unfaulted,
    exec_unfaulted (.pcWrite v) hs.unfaulted,
    fun hj => ⟨_, exec_jcRead hj hs.unfaulted⟩⟩

end Sys2Proof.Machine
end

section
/-! The statements about the peripheral register bank: what an offset names, what the registers and the EXTRA_REGS entries
read as and do when written, and the chip-select and wait actions (spec/42_peripheral_bank.md). -/

namespace Sys2Proof.Machine

/-! ## What an offset names (R106, R200) -/

/-- Where no entry of EXTRA_REGS has the offset, the base table is looked up. -/
theorem lookup_of_noEntry {cfg : Config} {off : Word} (h : ∀ e ∈ cfg.extraRegs, e.off ≠ off) :
    lookup cfg off = ((baseRegs cfg).find? fun r => regOffset cfg r == off).elim .unmapped .base := by
  rw [lookup, findExtra_none.mpr h]
  cases (baseRegs cfg).find? fun r => regOffset cfg r == off <;> rfl

/-- The search of the base table ends without a register exactly where no base register has the offset. -/
theorem find_baseRegs_eq_none {cfg : Config} {off : Word} :
    (baseRegs cfg).find? (fun r => regOffset cfg r == off) = none ↔ ∀ r, ¬ OffsetIs cfg r off := by
  simp only [List.find?_eq_none, offsetIs_iff, beq_iff_eq, not_and]

/-- An unmapped offset is that of no entry. -/
theorem noEntry_of_lookup_unmapped {cfg : Config} {off : Word} (h : lookup cfg off = .unmapped) :
    ∀ e ∈ cfg.extraRegs, e.off ≠ off := by
  rw [← findExtra_none (n := 0)]
  cases hx : findExtra off 0 cfg.extraRegs with
  | none => rfl
  | some ke => simp [lookup, hx] at h

theorem lookup_eq_unmapped {cfg : Config} {off : Word} :
    lookup cfg off = .unmapped ↔ (∀ r, ¬ OffsetIs cfg r off) ∧ ∀ e ∈ cfg.extraRegs, e.off ≠ off := by
  refine ⟨fun h => ?_, fun ⟨hr, he⟩ => ?_⟩
  · have he := noEntry_of_lookup_unmapped h
    refine ⟨find_baseRegs_eq_none.mp ?_, he⟩
    rw [lookup_of_noEntry he] at h
    cases hf : (baseRegs cfg).find? fun r => regOffset cfg r == off with
    | none => rfl
    | some r => simp [hf] at h
  · rw [lookup_of_noEntry he, find_baseRegs_eq_none.mpr hr]; rfl

/-- The one base register at an offset without an entry is what the offset names. -/
theorem lookup_eq_base {cfg : Config} {off : Word} {r : Reg} (hr : OffsetIs cfg r off)
    (hu : ∀ q, OffsetIs cfg q off → q = r) (he : ∀ e ∈ cfg.extraRegs, e.off ≠ off) : lookup cfg off = .base r := by
  rw [lookup_of_noEntry he]
  cases hf : (baseRegs cfg).find? fun r => regOffset cfg r == off with
  | none => exact absurd hr (find_baseRegs_eq_none.mp hf r)
  | some q =>
    have hq : OffsetIs cfg q off := offsetIs_iff.mpr ⟨List.mem_of_find?_eq_some hf, by simpa using List.find?_some hf⟩
    rw [hu q hq]; rfl

/-- Construction demands that the offsets of the base registers differ (spec/00_scope.md R14). -/
theorem configOk_baseOffsets_nodup {cfg : Config} (h : configOk cfg = true) :
    ((baseRegs cfg).map (regOffset cfg)).Nodup := by
  rw [← allDistinct_iff]
  simp only [configOk, Bool.and_eq_true] at h
  tauto

/-- Construction demands that they lie below PERIPH_SIZE (R14). -/
theorem configOk_baseOffset_lt {cfg : Config} (h : configOk cfg = true) {r : Reg} (hr : r ∈ baseRegs cfg) :
    (regOffset cfg r).toNat < cfg.periphSize := by
  have hall : ∀ o ∈ (baseRegs cfg).map (regOffset cfg) ++ cfg.extraRegs.map ExtraReg.off, o.toNat < cfg.periphSize := by
    simp only [configOk, Bool.and_eq_true, List.all_eq_true, decide_eq_true_eq] at h
    tauto
  exact hall _ (List.mem_append_left _ (List.mem_map_of_mem hr))

theorem configOk_offset_unique {cfg : Config} (h : configOk cfg = true) {off : Word} {q r : Reg}
    (hq : OffsetIs cfg q off) (hr : OffsetIs cfg r off) : q = r := by
  obtain ⟨hqm, hqo⟩ := offsetIs_iff.mp hq
  obtain ⟨hrm, hro⟩ := offsetIs_iff.mp hr
  exact List.inj_on_of_nodup_map (configOk_baseOffsets_nodup h) hqm hrm (hqo.trans hro.symm)

theorem configOk_offset_lt {cfg : Config} (h : configOk cfg = true) {off : Word} {r : Reg} (hr : OffsetIs cfg r off) :
    off.toNat < cfg.periphSize := by
  obtain ⟨hm, rfl⟩ := offsetIs_iff.mp hr
  exact configOk_baseOffset_lt h hm

/-! ## The bank's operations on an unfaulted machine (R201, R202) -/

theorem exec_periphRead_ok {off w : Word} {s t : State} (h : s.fault = none) (hr : readPeriph off s = .ok w t) :
    exec (.periphRead off) s = .next { t with result := .word w } := by
  simp only [exec_unfaulted _ h, action, hr, Res.with, Res.bind_ok, Res.finish]

theorem exec_periphWrite_ok {off v : Word} {s t : State} (h : s.fault = none) (hw : writePeriph off v s = .ok () t) :
    exec (.periphWrite off v) s = .next { t with result := .none } := by
  simp only [exec_unfaulted _ h, action, hw, Res.with, Res.bind_ok, Res.finish]

/-- A read that is the read of a cell returns the cell's word, and faults while the cell is `Undefined`. -/
theorem exec_periphRead_cell {off : Word} {c : Cell} {s : State} (h : s.fault = none)
    (hr : readPeriph off s = readCell off c s) :
    (∀ w, c = .val w → exec (.periphRead off) s = .next { s with result := .word w }) ∧
    (c = .undef → exec (.periphRead off) s =
      .fault (.raised (.readUndefined .periph off) { s with fault := some (.readUndefined .periph off) })) := by
  constructor
  · rintro w rfl
    exact exec_periphRead_ok h hr
  · rintro rfl
    simp only [exec_unfaulted _ h, action, hr, readCell, raise_unfaulted h, Res.with, Res.bind_fault, Res.finish]

theorem exec_periphRead_base_ok {off w : Word} {r : Reg} {s t : State} (h : s.fault = none)
    (hl : lookup s.cfg off = .base r) (hr : readBase r off s = .ok w t) :
    exec (.periphRead off) s = .next { t with result := .word w } :=
  exec_periphRead_ok h ((readPeriph_base hl).trans hr)

theorem exec_periphWrite_base_ok {off v : Word} {r : Reg} {s t : State} (h : s.fault = none)
    (hl : lookup s.cfg off = .base r) (hw : writeBase r v s = .ok () t) :
    exec (.periphWrite off v) s = .next { t with result := .none } :=
  exec_periphWrite_ok h ((writePeriph_base hl).trans hw)

theorem readPeriph_unmapped {off : Word} {s : State} (h : lookup s.cfg off = .unmapped) :
    readPeriph off s = .ok s.cfg.unmappedSentinel s := by
  simp only [readPeriph, h]

theorem writePeriph_unmapped {off v : Word} {s : State} (h : lookup s.cfg off = .unmapped) :
    writePeriph off v s = .ok () s := by
  simp only [writePeriph, h]

/-- Settles O26: `lookup` finds the entry, else the base register, at the offset, and construction's checks give each base
register an offset of its own in the window. -/
theorem unmappedOffsetsAreInert : Obligations.UnmappedOffsetsAreInert := by
  refine ⟨fun off v s hf hl => ⟨?_, ?_⟩, fun cfg off => ⟨lookup_eq_unmapped, fun r hr => ⟨?_, fun hc => ?_⟩⟩⟩
  · exact exec_periphRead_ok hf (readPeriph_unmapped hl)
  · exact exec_periphWrite_ok hf (writePeriph_unmapped hl)
  · exact lookup_eq_base hr
  · exact ⟨configOk_offset_lt hc hr, fun q hq => configOk_offset_unique hc hq hr⟩

/-! ## Registers that hold a value (R201, R202, R205) -/

theorem getReg_setResult (q : Reg) (v : Result) (s : State) : getReg q { s with result := v } = getReg q s := by
  cases q <;> rfl

/-- Channel bits 7 name no channel (spec/43_dma.md R243). -/
theorem channelOf_low_seven {v : Word} (h : v.toNat % 8 = 7) : channelOf (v.setWidth 3) = none := by
  have h7 : (v.setWidth 3).toNat = 7 := by rw [BitVec.toNat_setWidth]; exact h
  simp [channelOf, h7]

/-- A write of DMA_TRIGGER with channel bits 7 only stores. -/
theorem writeBase_dmaTrigger_low_seven {v : Word} (h : v.toNat % 8 = 7) (s : State) :
    writeBase .dmaTrigger v s = .ok () (setReg .dmaTrigger (.val v) s) := by
  simp only [writeBase, triggerByWrite, channelOf_low_seven h]

/-- A write that starts no transfer stores in the register's cell, and what it then does touches no cell (R205). -/
theorem writeBase_stores {r : Reg} {v : Word} {s : State} (hk : baseKind r ≠ .computed)
    (hd : r = .dmaTrigger → v.toNat % 8 = 7) :
    ∃ t, writeBase r v s = .ok () t ∧ ∀ q, getReg q t = getReg q (setReg r (.val v) s) := by
  cases r with
  | rndStatus | dmaStatus | irqStatus => exact absurd rfl hk
  | dmaTrigger => exact ⟨_, writeBase_dmaTrigger_low_seven (hd rfl) s, fun _ => rfl⟩
  | csCtrl => exact ⟨_, rfl, fun q => getReg_csRecompute q _⟩
  | portA | portB | nandCmd | nandAddrLo | nandAddrHi | waitEnter | irqAck => exact ⟨_, rfl, fun q => by cases q <;> rfl⟩
  | bankCtrl | rsv | dmaP | irqEnable | extra => exact ⟨_, rfl, fun _ => rfl⟩

/-- The cell of a base register that an offset names and that is no computed one is there to be written. -/
theorem getReg_setReg_base {off : Word} {r : Reg} {c : Cell} {s : State} (hb : BankShaped s)
    (hl : lookup s.cfg off = .base r) (hk : baseKind r ≠ .computed) : getReg r (setReg r c s) = c := by
  obtain ⟨hrsv, hextra⟩ := mem_baseRegs.mp (lookup_base hl).1
  refine getReg_setReg_cell ?_ (fun k e => hb.rsv ▸ hrsv k e) (fun k e => absurd e (hextra k))
  rw [isComputed_base hextra]
  simpa using hk

theorem writeBase_frame {r : Reg} {v : Word} {s t : State} (h : writeBase r v s = .ok () t) : Frame s t := by
  have hs := Sound.writeBase r v s
  rwa [h] at hs

/-- The read of a base register that holds a value is the read of its cell. -/
theorem readPeriph_base_cell {off : Word} {r : Reg} {s : State} (hl : lookup s.cfg off = .base r)
    (hk : baseKind r ≠ .computed) (ha : r ≠ .portA) (hb : r ≠ .portB) :
    readPeriph off s = readCell off (getReg r s) s :=
  (readPeriph_base hl).trans (readBase_cell hk ha hb (lookup_base hl).2)

/-- A write of such a register through the window, as the state it leaves shows it to the next read. -/
theorem exec_periphWrite_stores {off v : Word} {r : Reg} {s : State} (h : s.fault = none)
    (hl : lookup s.cfg off = .base r) (hk : baseKind r ≠ .computed) (hd : r = .dmaTrigger → v.toNat % 8 = 7) :
    ∃ t, exec (.periphWrite off v) s = .next t ∧ t.fault = none ∧ t.cfg = s.cfg ∧
      ∀ q, getReg q t = getReg q (setReg r (.val v) s) := by
  obtain ⟨t, hw, ht⟩ := writeBase_stores (s := s) hk hd
  have hf := writeBase_frame hw
  exact ⟨_, exec_periphWrite_base_ok h hl hw, hf.fault.trans h, hf.cfg, fun q => (getReg_setResult q _ t).trans (ht q)⟩

/-- Settles O27: the write stores in the register's cell and touches no other, and the read is the read of that cell. -/
theorem registersReadBack : Obligations.RegistersReadBack := by
  intro off v r s hf hb hl hk hpa hpb
  refine ⟨fun hd => ?_, exec_periphRead_cell hf (readPeriph_base_cell hl hk hpa hpb)⟩
  obtain ⟨t, hw, htf, htc, ht⟩ := exec_periphWrite_stores hf hl hk hd
  have htl : lookup t.cfg off = .base r := htc ▸ hl
  refine ⟨t, hw, (exec_periphRead_cell htf (readPeriph_base_cell htl hk hpa hpb)).1 v ?_, fun q hq => ?_⟩
  · rw [ht, getReg_setReg_base hb hl hk]
  · rw [ht, getReg_setReg_other hq]

/-! ## What each write does (R205 to R218) -/

/-- IRQ_ACK clears the pending bits that the value sets (R209). -/
theorem ackSources_apend_bit (v : Word) (s : State) (k : Fin 4) :
    (ackSources v s).apend.getLsbD k.val = (s.apend.getLsbD k.val && !v.getLsbD k.val) := by
  simp [ackSources, k.isLt]

theorem exec_dmaWriteParam_channel (c : Fin 7) (slot : Slot) (v : Word) {s : State} (h : s.fault = none) :
    exec (.dmaWriteParam (BitVec.ofNat 3 c.val) (if slot = .p0 then 0 else 1) v) s =
      .next { writeParam c slot (.val v) s with result := .none } := by
  simp only [exec_unfaulted _ h, action, onChannel, channelOf_ofNat, slotOf_ite, Res.finish]

/-- Settles O28: each register's own rule in `writeBase`. -/
theorem registerWritesAct : Obligations.RegisterWritesAct := by
  intro off v s hf
  have write {r : Reg} {t : State} (hl : lookup s.cfg off = .base r) (hw : writeBase r v s = .ok () t) :
      exec (.periphWrite off v) s = .next { t with result := .none } := exec_periphWrite_base_ok hf hl hw
  refine ⟨fun hl => write hl rfl, fun k hl => write hl rfl, fun hl => write hl rfl, fun hl => write hl rfl,
    fun hl => write hl rfl, fun hl => write hl rfl, fun hl => write hl rfl, fun hl => write hl rfl,
    fun hl => write hl rfl, fun hl => ⟨_, write hl rfl, ackSources_apend_bit v s⟩, fun hl => write hl rfl, ?_,
    fun c slot hl => ?_⟩
  · rintro (hl | hl | hl) <;> exact write hl rfl
  · rw [write hl rfl, exec_dmaWriteParam_channel c slot v hf]

/-! ## What the computed registers and the ports return (R208, R210, R212) -/

theorem readBase_rndStatus_fixed (off : Word) {s : State} (h : s.cfg.nondetMode = .fixed) :
    readBase .rndStatus off s = .ok s.cfg.rndFixed s := by
  simp only [readBase, h]

theorem readBase_rndStatus_draw (off : Word) {s : State} (h : s.cfg.nondetMode = .draw) :
    readBase .rndStatus off s = drawWord s := by
  simp only [readBase, h]

/-- Settles O29: each register's own rule in `readBase`. -/
theorem computedRegistersRead : Obligations.ComputedRegistersRead := by
  intro off s hf
  refine ⟨fun hl => ?_, fun hl => ?_, fun hl hm => ?_, fun hl hm => ?_, ?_⟩
  · exact ⟨_, exec_periphRead_base_ok hf hl rfl, BitVec.toNat_setWidth_of_le (by decide)⟩
  · exact ⟨_, exec_periphRead_base_ok hf hl rfl, dmaStatusWord_bits s⟩
  · exact exec_periphRead_base_ok hf hl (readBase_rndStatus_fixed off hm)
  · exact ⟨_, exec_periphRead_base_ok hf hl (readBase_rndStatus_draw off hm)⟩
  · rintro (hl | hl) <;> exact ⟨_, exec_periphRead_base_ok hf hl rfl⟩

/-! ## The calls of EXTRA_REGS programs (R217) -/

/-- A call that is the operation of its name, told by the operation's outcome: the program goes on in the state the operation
leaves, with its result, or stops where it stops. -/
theorem runProg_call_of_operation {π ω : Type} {perf : π → Scope → State → Res Word} {p : π} {q : BankPrim}
    (c : Prog π ω) {sc : Scope} {u : State} {i : Instr} (hu : Running u)
    (hp : perf p sc u = performBank actionWrite q sc u) (hi : actionInstr q sc u = some i) :
    (∀ t, exec i u = .next t → runProg perf (.call p c) sc u =
      runProg perf c { sc with vals := sc.vals ++ [resultWord t.result] } { t with result := u.result }) ∧
    (∀ f, exec i u = .fault f → runProg perf (.call p c) sc u = .fault f) ∧
    (∀ r, exec i u = .refused r → runProg perf (.call p c) sc u = .refused r) := by
  have hcall : runProg perf (.call p c) sc u =
      (action i u).bind fun r t => runProg perf c { sc with vals := sc.vals ++ [resultWord r] } t := by
    simp only [runProg, hp, performBank_eq hu.reset hi, Res.bind_assoc, Res.bind_ok]
  obtain ⟨hw, he⟩ := actionInstr_plain hi
  rw [hcall]
  exact action_bind hu.unfaulted hw he _

/-! ## The writes of EXTRA_REGS entries (R217) -/

theorem writeExtra_computed {k : Nat} {e : ExtraReg} (off v : Word) (s : State) (h : e.kind = .computed) :
    writeExtra k e off v s = .ok () s := by
  simp only [writeExtra, writeExtraOver, h]

/-- An entry without further action only stores, whatever its actions would write over. -/
theorem writeExtraOver_done {wr : Word → Word → State → Res Unit} {k : Nat} {e : ExtraReg} (off v : Word) (s : State)
    (hk : e.kind ≠ .computed) (hw : e.write = .done ()) :
    writeExtraOver wr k e off v s = .ok () (setReg (.extra k) (.val v) s) := by
  rw [writeExtraOver_stores off v s hk, runWrite, hw]; rfl

/-- An entry's write completes in the state its action ends in. -/
theorem writeExtra_ok {k : Nat} {e : ExtraReg} {off v : Word} {sc : Scope} {s t : State} (hk : e.kind ≠ .computed)
    (h : runProg (performBank actionWrite) e.write { pc := off, word := v, vals := [] } (setReg (.extra k) (.val v) s) =
      .ok ((), sc) t) : writeExtra k e off v s = .ok () t := by
  rw [writeExtra, writeExtraOver_stores off v s hk, runWrite, h]; rfl

/-- An entry that holds a value has a cell to be written. -/
theorem getReg_setReg_entry {k : Nat} {e : ExtraReg} {c : Cell} {s : State} (hb : BankShaped s)
    (he : s.cfg.extraRegs[k]? = some e) (hk : e.kind ≠ .computed) :
    getReg (.extra k) (setReg (.extra k) c s) = c := by
  have hlt : k < s.cfg.extraRegs.length := (List.getElem?_eq_some_iff.mp he).1
  refine getReg_setReg_cell ?_ nofun fun j hj => ?_
  · rw [isComputed_extra he]; simpa using hk
  · cases hj
    rw [hb.extra]; exact hlt

/-- The write of the window word of a storage entry without further action, by the action of another, stores there. -/
theorem actionWrite_storageEntry {k : Nat} {e : ExtraReg} (v : Word) {s : State} (he : s.cfg.extraRegs[k]? = some e)
    (hm : ∀ j e', j < k → s.cfg.extraRegs[j]? = some e' → e'.off ≠ e.off) (hk : e.kind = .storage)
    (ho : e.off.toNat < s.cfg.periphSize) (hs : s.cfg.periphBase.toNat + s.cfg.periphSize ≤ 65536)
    (hw : e.write = .done ()) :
    actionWrite (s.cfg.periphBase + e.off) v s = .ok () (setReg (.extra k) (.val v) s) := by
  obtain ⟨wr, h⟩ := actionWrite_extra (v := v) (decodeAddr_window ho hs) (lookup_extra he rfl hm)
  rw [h, writeExtraOver_done _ _ _ (by simp [hk]) hw]

/-- A trigger entry whose action is one word write stores, and then that write is done. -/
theorem writeExtra_memWrite16 {k : Nat} {e : ExtraReg} {off v a : Word} {s t : State} (hk : e.kind ≠ .computed)
    (hw : e.write = .call (.isa (.memWrite16 (.lit a) .word)) (.done ()))
    (h : actionWrite a v (setReg (.extra k) (.val v) s) = .ok () t) : writeExtra k e off v s = .ok () t := by
  refine writeExtra_ok (sc := { pc := off, word := v, vals := [0] }) hk ?_
  simp only [hw, runProg, performBank, performIsa, evalExpr, h, Res.bind_ok, List.nil_append]

/-! ## The reads of EXTRA_REGS entries (R217) -/

theorem readExtra_storage {k : Nat} {e : ExtraReg} (off : Word) (s : State) (h : e.kind = .storage) :
    readExtra k e off s = readCell off (getReg (.extra k) s) s := by
  simp only [readExtra, readExtraOver, h]

/-- An entry that is no storage reads as what its read function gives, in the state that function ends in. -/
theorem readExtra_ok {k : Nat} {e : ExtraReg} {off : Word} {x : Expr} {sc : Scope} {s t : State} (hb : BankShaped s)
    (he : s.cfg.extraRegs[k]? = some e) (hk : e.kind ≠ .storage)
    (h : runProg (performRead actionRead (getReg (.extra k) s)) e.read { pc := off, word := 0, vals := [] } s =
      .ok (x, sc) t) : readExtra k e off s = .ok (evalExpr sc x) t := by
  rw [readExtra, readExtraOver_function off hb he hk, runRead, h]; rfl

/-- A read function of one call whose result is its value reads as that call. -/
theorem readExtra_oneCall {k : Nat} {e : ExtraReg} {p : ReadPrim} (off : Word) {s : State} (hb : BankShaped s)
    (he : s.cfg.extraRegs[k]? = some e) (hk : e.kind ≠ .storage) (hr : e.read = .call p (.done (.var 0))) :
    readExtra k e off s =
      performRead actionRead (getReg (.extra k) s) p { pc := off, word := 0, vals := [] } s := by
  rw [readExtra, readExtraOver_function off hb he hk, runRead, hr, runProg]
  cases performRead actionRead (getReg (.extra k) s) p { pc := off, word := 0, vals := [] } s <;> rfl

/-- A storage entry, and a trigger entry that gives its stored value, reads as its cell (R201). -/
theorem readExtra_cell {k : Nat} {e : ExtraReg} (off : Word) {s : State} (hb : BankShaped s)
    (he : s.cfg.extraRegs[k]? = some e)
    (hk : e.kind = .storage ∨ e.kind = .trigger ∧ e.read = .call .stored (.done (.var 0))) :
    readExtra k e off s = readCell off (getReg (.extra k) s) s := by
  obtain hk | ⟨hk, hr⟩ := hk
  · exact readExtra_storage off s hk
  · exact readExtra_oneCall off hb he (by simp [hk]) hr

theorem exec_periphRead_storageEntry {off w : Word} {k : Nat} {e : ExtraReg} {s : State} (h : s.fault = none)
    (hl : lookup s.cfg off = .extra k e) (hk : e.kind = .storage) (hw : getReg (.extra k) s = .val w) :
    exec (.periphRead off) s = .next { s with result := .word w } :=
  exec_periphRead_ok h (by rw [readPeriph_extra hl, readExtra_storage off s hk, hw]; rfl)

/-! ## The statements about EXTRA_REGS -/

/-- Settles O59: the offset names the entry, which reads as its cell or as what its read function gives. -/
theorem extraRegistersRead : Obligations.ExtraRegistersRead := by
  intro off k e s hf hb he ho hm
  have hread : readPeriph off s = readExtra k e off s := readPeriph_extra (lookup_extra he ho hm)
  refine ⟨fun hk => ?_, fun hk x hx => ?_, fun hk x sc t hr => ?_, fun hk hr => ?_, fun p q c cell sc u i hu hq hi => ?_⟩
  · exact exec_periphRead_cell hf (hread.trans (readExtra_cell off hb he hk))
  · exact exec_periphRead_ok hf (hread.trans (readExtra_ok hb he hk (by rw [hx, runProg])))
  · exact exec_periphRead_ok hf (hread.trans (readExtra_ok hb he hk hr))
  · exact ⟨_, exec_periphRead_ok hf (hread.trans (readExtra_oneCall off hb he hk hr))⟩
  · exact runProg_call_of_operation c hu (performRead_eq cell sc u hq) hi

/-- Settles O30: the offset names the entry, whose write stores and then acts. -/
theorem extraRegistersOverride : Obligations.ExtraRegistersOverride := by
  intro off v k e s hf hb he ho hm
  have hl : lookup s.cfg off = .extra k e := lookup_extra he ho hm
  have write {t : State} (h : writeExtra k e off v s = .ok () t) :
      exec (.periphWrite off v) s = .next { t with result := .none } :=
    exec_periphWrite_ok hf ((writePeriph_extra hl).trans h)
  have hstored : e.kind ≠ .computed → getReg (.extra k) (setReg (.extra k) (.val v) s) = .val v :=
    getReg_setReg_entry hb he
  refine ⟨fun hk => write (writeExtra_computed off v s hk), fun hk hw => ?_, fun hk sc t hr => ?_,
    fun hk k2 e2 hne he2 hk2 hm2 ho2 hs hw2 hw => ?_, fun p c sc u i hu hi => runProg_call_of_operation c hu rfl hi⟩
  · refine ⟨_, write (writeExtraOver_done off v s hk hw), hstored hk, rfl, fun hst => ?_⟩
    refine exec_periphRead_storageEntry (k := k) hf hl hst ?_
    rw [getReg_setResult, hstored hk]
  · exact write (writeExtra_ok hk (by rw [setReg_extra he hk]; exact hr))
  · have hkc : e.kind ≠ .computed := by simp [hk]
    have hk2c : e2.kind ≠ .computed := by simp [hk2]
    have hother : getReg (.extra k) (setReg (.extra k2) (.val v) (setReg (.extra k) (.val v) s)) = .val v := by
      rw [getReg_setReg_other (by simpa using hne.symm), hstored hkc]
    have hw' := writeExtra_memWrite16 (off := off) hkc hw
      (actionWrite_storageEntry (s := setReg (.extra k) (.val v) s) v he2 hm2 hk2 ho2 hs hw2)
    exact ⟨_, write hw', hother, getReg_setReg_entry hb.setExtra he2 hk2c, rfl⟩

/-! ## The configuration, the chip selects and the wait state (R221, R223; spec/40_engine.md R150) -/

/-- Settles O55: the step performs one instruction, which keeps the configuration. -/
theorem noStepChangesTheConfiguration : Obligations.NoStepChangesTheConfiguration := by
  intro s t h
  obtain ⟨i, rest, he⟩ := exists_exec_of_step_eq_next h
  exact (exec_keeps he).1

/-- CS_RECOMPUTE maps the defined control bits. -/
theorem csRecompute_val {w : Word} {s : State} (h : s.bank.csCtrl = .val w) :
    csRecompute s = emit (.csRemap (csMap s.cfg s.cfg.csBase w)) { s with csRegions := some (csMap s.cfg s.cfg.csBase w) } := by
  simp only [csRecompute, h]

/-- And free ones while CS_CTRL is `Undefined` (log entry 19). -/
theorem csRecompute_undef {s : State} (h : s.bank.csCtrl = .undef) :
    csRecompute s = emit (.csRemap (csMap s.cfg s.cfg.csBase (Config.freeCsCtrl s.draws)))
      { drawn s with csRegions := some (csMap s.cfg s.cfg.csBase (Config.freeCsCtrl s.draws)) } := by
  simp only [csRecompute, h, drawn_cfg]

/-- Settles O37: the control bits are CS_CTRL's, or a free draw. -/
theorem recomputeAndWaitEnter : Obligations.RecomputeAndWaitEnter := by
  intro s hf
  have hx : exec .csRecompute s = .next { csRecompute s with result := .none } := exec_unfaulted .csRecompute hf
  refine ⟨?_, exec_unfaulted .waitEnter hf⟩
  cases hc : s.bank.csCtrl with
  | val w =>
    rw [csRecompute_val hc] at hx
    exact ⟨w, s.draws, hx, fun _ hw => by cases hw; exact ⟨rfl, rfl⟩⟩
  | undef =>
    rw [csRecompute_undef hc] at hx
    exact ⟨_, _, hx, nofun⟩

end Sys2Proof.Machine
end

section
/-! The statements about the DMA controller: its parameter words, its trigger and the block that a transfer writes
(spec/43_dma.md). -/

namespace Sys2Proof.Machine

/-! ## The controller's operations on an unfaulted machine -/

/-- Channel 7 is refused (spec/30_encoding.md R103). -/
theorem exec_dmaParam_seven (sl : BitVec 1) (v : Word) {s : State} (hf : s.fault = none) :
    exec (.dmaWriteParam 7 sl v) s = .refused .refusedOperand ∧ exec (.dmaReadParam 7 sl) s = .refused .refusedOperand :=
  ⟨exec_unfaulted (.dmaWriteParam 7 sl v) hf, exec_unfaulted (.dmaReadParam 7 sl) hf⟩

theorem exec_dmaWriteParam {c : BitVec 3} {d : Fin 7} (hd : d.val = c.toNat) (sl : BitVec 1) (v : Word) {s : State}
    (hf : s.fault = none) :
    exec (.dmaWriteParam c sl v) s = .next { writeParam d (slotOf sl) (.val v) s with result := .none } := by
  simp only [exec_unfaulted _ hf, action, onChannel, channelOf_eq hd, Res.finish]

theorem exec_dmaReadParam {c : BitVec 3} {d : Fin 7} (hd : d.val = c.toNat) (sl : BitVec 1) {s : State}
    (hf : s.fault = none) : exec (.dmaReadParam c sl) s = ((readParam d (slotOf sl) s).with Result.word).finish := by
  simp only [exec_unfaulted _ hf, action, onChannel, channelOf_eq hd]

theorem exec_dmaTrigger {c : BitVec 3} {d : Fin 7} (hd : d.val = c.toNat) {s : State} (hf : s.fault = none) :
    exec (.dmaTrigger c) s = ((triggerChannel d s).with fun _ => Result.none).finish := by
  simp only [exec_unfaulted _ hf, action, onChannel, channelOf_eq hd]

theorem exec_dmaTrigger_ok {c : BitVec 3} {d : Fin 7} (hd : d.val = c.toNat) {s t : State} (hf : s.fault = none)
    (h : triggerChannel d s = .ok () t) : exec (.dmaTrigger c) s = .next { t with result := .none } := by
  rw [exec_dmaTrigger hd hf, h]; rfl

theorem exec_dmaTrigger_fault {c : BitVec 3} {d : Fin 7} (hd : d.val = c.toNat) {s : State} (hf : s.fault = none)
    {r : Fault} (h : triggerChannel d s = .fault r) : exec (.dmaTrigger c) s = .fault r := by
  rw [exec_dmaTrigger hd hf, h]; rfl

/-- A DMA_TRIGGER that completes named a channel, whose trigger completed. -/
theorem exists_triggerChannel_of_exec {c : BitVec 3} {s t : State} (h : exec (.dmaTrigger c) s = .next t) :
    ∃ (d : Fin 7) (u : State), d.val = c.toNat ∧ triggerChannel d s = .ok () u ∧ t = { u with result := .none } := by
  obtain ⟨v, u, ha, rfl⟩ := exec_eq_next h
  simp only [action, onChannel] at ha
  cases hc : channelOf c with
  | none => rw [hc] at ha; cases ha
  | some d =>
    rw [hc] at ha
    obtain ⟨_, w, hw, hv⟩ := Res.bind_eq_ok.mp ha
    cases hv
    exact ⟨d, u, channelOf_some hc, hw, rfl⟩

/-! ## Parameter words (R241, R242) -/

theorem paramCell_slotOf (s : State) (d : Fin 7) (sl : BitVec 1) :
    paramCell s d (slotOf sl) = if sl = 0 then (s.dma.get d).p0 else (s.dma.get d).p1 := by
  obtain rfl | rfl := BitVec.eq_zero_or_eq_one sl <;> rfl

theorem regOffset_dmaP_slotOf (cfg : Config) (d : Fin 7) (sl : BitVec 1) :
    regOffset cfg (.dmaP d (slotOf sl)) = if sl = 0 then cfg.offs.dmaP0.get d else cfg.offs.dmaP1.get d := by
  obtain rfl | rfl := BitVec.eq_zero_or_eq_one sl <;> rfl

theorem writeParam_slotOf (d : Fin 7) (sl : BitVec 1) (v : Cell) (s : State) :
    writeParam d (slotOf sl) v s =
      setChannel d (if sl = 0 then { s.dma.get d with p0 := v } else { s.dma.get d with p1 := v }) s := by
  obtain rfl | rfl := BitVec.eq_zero_or_eq_one sl <;> rfl

/-- The read of an `Undefined` parameter word faults with its register's offset. -/
theorem readParam_undef {d : Fin 7} {slot : Slot} {s : State} (hf : s.fault = none) (h : paramCell s d slot = .undef) :
    readParam d slot s = .fault (.raised (.readUndefined .periph (regOffset s.cfg (.dmaP d slot)))
      { s with fault := some (.readUndefined .periph (regOffset s.cfg (.dmaP d slot))) }) := by
  rw [readParam, h]; exact raise_unfaulted hf _

/-- Settles O31: the write replaces one word of its channel, and the read is the read of that word. -/
theorem dmaParametersRoundTrip : Obligations.DmaParametersRoundTrip := by
  intro c sl v s hf
  refine ⟨?_, fun d hd => ⟨⟨_, exec_dmaWriteParam hd sl v hf, ?_, fun e => ?_⟩, fun w hw => ?_, fun hu => ⟨_, rfl, ?_⟩⟩⟩
  · rintro rfl
    exact exec_dmaParam_seven sl v hf
  · rw [writeParam_slotOf]; rfl
  · rw [writeParam_slotOf]
    exact setChannel_get d e _ s
  · rw [← paramCell_slotOf] at hw
    rw [exec_dmaReadParam hd sl hf, readParam_val hw]; rfl
  · rw [← paramCell_slotOf] at hu
    rw [exec_dmaReadParam hd sl hf, readParam_undef hf hu, regOffset_dmaP_slotOf]; rfl

/-! ## Triggers (R243, R244) -/

/-- Settles O32: a busy channel rejects its trigger. -/
theorem busyTriggerIsRejected : Obligations.BusyTriggerIsRejected := fun _ _ _ hf hd hb =>
  exec_dmaTrigger_ok hd hf (triggerChannel_busy hb)

/-- The low bits of a value name the channel of their number. -/
theorem channelOf_low {v : Word} (h : v.toNat % 8 ≠ 7) :
    ∃ d : Fin 7, channelOf (v.setWidth 3) = some d ∧ d.val = (BitVec.ofNat 3 v.toNat).toNat :=
  have hd : v.toNat % 8 < 7 := by omega
  ⟨⟨v.toNat % 8, hd⟩, channelOf_eq (BitVec.toNat_setWidth 3 v).symm, (BitVec.toNat_ofNat v.toNat 3).symm⟩

/-- Settles O35: the value is stored first, and what its low bits name is then triggered. -/
theorem triggerRegisterNamesTheChannel : Obligations.TriggerRegisterNamesTheChannel := by
  intro off v s hf hl
  split
  next h7 => exact exec_periphWrite_base_ok hf hl (writeBase_dmaTrigger_low_seven h7 s)
  next hne =>
    obtain ⟨d, hc, hd⟩ := channelOf_low hne
    rw [exec_periphWrite_base hf hl, writeBase, triggerByWrite, hc]
    exact (exec_dmaTrigger (s := setReg .dmaTrigger (.val v) s) hd hf).symm

/-! ## Accepted triggers, forwards (R244, R245) -/

/-- A trigger of an idle channel does the transfer of the block its parameter words name. -/
theorem triggerChannel_block {c : Fin 7} {p0 p1 a : Word} {n : Nat} {s : State} (hb : (s.dma.get c).busy = false)
    (hn : NamesBlock s c p0 p1 a n) :
    triggerChannel c s = (transferWords c n a (emit (.nandRead c n) (beginTransfer c s))).bind fun _ t =>
      .ok () (endTransfer c t) := by
  rw [triggerChannel_idle hb, dmaTransfer_begin hn.first hn.second hn.addrLen hn.loHi]

/-- It completes where no word of the block is in the window, and has written the block. -/
theorem triggerChannel_external {c : Fin 7} {p0 p1 a : Word} {n : Nat} {s : State} (hm : MemoryCanonical s)
    (hb : (s.dma.get c).busy = false) (hn : NamesBlock s c p0 p1 a n)
    (hx : ∀ i, i < n → decodeAddr s.cfg (a + BitVec.ofNat 16 i) = .external) :
    ∃ m : Memory, BlockWritten s.cfg s.draws a n s.mem m ∧ triggerChannel c s = .ok () { s with
      mem := m, dma := s.dma.set c.val { s.dma.get c with done := true, err := false } c.isLt
      apend := s.apend ||| 0b0100#4, trace := s.trace ++ [.nandRead c n] ++ blockEvents s.cfg s.draws a n
      draws := s.draws + n } := by
  obtain ⟨m, ht, hw⟩ :=
    transferWords_external (c := c) (s := emit (.nandRead c n) (beginTransfer c s)) hm hx
  refine ⟨m, hw, ?_⟩
  rw [triggerChannel_block hb hn, ht]
  simp [endTransfer, aggDmaDone, beginTransfer, emit, setChannel, hb]

/-- It faults at the first word of the block in the window, with the words before it written. -/
theorem triggerChannel_window {c : Fin 7} {p0 p1 a off : Word} {n k : Nat} {s : State} (hf : s.fault = none)
    (hm : MemoryCanonical s) (hb : (s.dma.get c).busy = false) (hn : NamesBlock s c p0 p1 a n) (hk : k < n)
    (hx : ∀ i, i < k → decodeAddr s.cfg (a + BitVec.ofNat 16 i) = .external)
    (hwin : decodeAddr s.cfg (a + BitVec.ofNat 16 k) = .window off) :
    ∃ left : State, triggerChannel c s = .fault (.raised (.dmaIntoWindow c (a + BitVec.ofNat 16 k)) left) ∧
      BlockWritten s.cfg s.draws a k s.mem left.mem ∧ left.dma = (beginTransfer c s).dma ∧ left.apend = s.apend := by
  obtain ⟨m, ht, hw⟩ :=
    transferWords_window (c := c) (s := emit (.nandRead c n) (beginTransfer c s)) hk hm hf hx hwin
  rw [triggerChannel_block hb hn, ht]
  exact ⟨_, rfl, hw, rfl, rfl⟩

theorem paramCell_beginTransfer (c : Fin 7) (slot : Slot) (s : State) :
    paramCell (beginTransfer c s) c slot = paramCell s c slot := by
  cases slot <;> simp [paramCell, beginTransfer]

/-- A trigger that reads an `Undefined` first parameter word faults before it writes to memory. -/
theorem triggerChannel_p0_undef {c : Fin 7} {s : State} (hf : s.fault = none) (hb : (s.dma.get c).busy = false)
    (h0 : (s.dma.get c).p0 = .undef) :
    ∃ left : State, triggerChannel c s = .fault (.raised (.readUndefined .periph (s.cfg.offs.dmaP0.get c)) left) ∧
      left.mem = s.mem := by
  rw [triggerChannel_idle hb, dmaTransfer, readParam_undef (by exact hf) ((paramCell_beginTransfer c .p0 s).trans h0)]
  exact ⟨_, rfl, rfl⟩

/-- As does one that reads an `Undefined` second one. -/
theorem triggerChannel_p1_undef {c : Fin 7} {w : Word} {s : State} (hf : s.fault = none)
    (hb : (s.dma.get c).busy = false) (h0 : (s.dma.get c).p0 = .val w) (h1 : (s.dma.get c).p1 = .undef) :
    ∃ left : State, triggerChannel c s = .fault (.raised (.readUndefined .periph (s.cfg.offs.dmaP1.get c)) left) ∧
      left.mem = s.mem := by
  rw [triggerChannel_idle hb, dmaTransfer, readParam_val ((paramCell_beginTransfer c .p0 s).trans h0), Res.bind_ok,
    readParam_undef (by exact hf) ((paramCell_beginTransfer c .p1 s).trans h1)]
  exact ⟨_, rfl, rfl⟩

/-- Settles O33: the trigger does the transfer of its block, which completes outside the window. -/
theorem dmaTransferWritesTheBlock : Obligations.DmaTransferWritesTheBlock := by
  intro c d p0 p1 a n s hf hm hd hb h0 h1 hlen hlohi hx
  obtain ⟨m, hw, ht⟩ := triggerChannel_external hm hb ⟨h0, h1, hlen, hlohi⟩ hx
  exact ⟨_, exec_dmaTrigger_ok hd hf ht, hw.written, hw.kept, rfl, rfl, rfl, rfl, rfl⟩

/-- Settles O34: the transfer stops at the first word in the window, and the reads of the parameter words come before it. -/
theorem dmaIntoTheWindowFaults : Obligations.DmaIntoTheWindowFaults := by
  intro c d s hf hm hd hb
  refine ⟨fun p0 p1 a n k off h0 h1 hlen hlohi hk hx hwin => ?_, fun h0 => ?_, fun w h0 h1 => ?_⟩
  · obtain ⟨left, ht, hw, hdma, hap⟩ := triggerChannel_window hf hm hb ⟨h0, h1, hlen, hlohi⟩ hk hx hwin
    exact ⟨left, exec_dmaTrigger_fault hd hf ht, hw.written, hw.kept, hdma, hap⟩
  · exact (triggerChannel_p0_undef hf hb h0).imp fun left h => ⟨exec_dmaTrigger_fault hd hf h.1, h.2⟩
  · exact (triggerChannel_p1_undef hf hb h0 h1).imp fun left h => ⟨exec_dmaTrigger_fault hd hf h.1, h.2⟩

/-! ## What a trigger leaves alone (R247) -/

/-- The events of a block are of words of the block. -/
theorem exists_of_mem_blockEvents {cfg : Config} {draws n : Nat} {a : Word} {ev : Event}
    (h : ev ∈ blockEvents cfg draws a n) : ∃ i v, i < n ∧ ev = .memEvent (a + BitVec.ofNat 16 i) v := by
  obtain ⟨i, hi, he⟩ := List.mem_filterMap.mp h
  split at he
  · cases he
    exact ⟨i, _, List.mem_range.mp hi, rfl⟩
  · cases he

/-- A completion sets pending bit 2 and touches no other (spec/60_exceptions.md R292). -/
theorem dmaPending_other {k : Fin 4} (hk : k ≠ 2) (w : BitVec 4) :
    (w ||| 0b0100#4).getLsbD k.val = w.getLsbD k.val := by
  have hbit : ∀ j : Fin 4, j ≠ 2 → (0b0100#4).getLsbD j.val = false := by decide
  rw [BitVec.getLsbD_or, hbit k hk, Bool.or_false]

theorem triggerChannel_apend_other {c : Fin 7} {s t : State} (hm : MemoryCanonical s) (h : triggerChannel c s = .ok () t)
    {k : Fin 4} (hk : k ≠ 2) : t.apend.getLsbD k.val = s.apend.getLsbD k.val := by
  cases hb : (s.dma.get c).busy with
  | true => rw [triggerChannel_busy hb] at h; cases h; rfl
  | false =>
    obtain ⟨p0, p1, a, n, m, -, -, rfl⟩ := triggerChannel_accepted hm hb h
    exact dmaPending_other hk s.apend

/-- Settles O36: what every trigger leaves, and what the rejected and the accepted one do. -/
theorem dmaChannelsAreIndependent : Obligations.DmaChannelsAreIndependent := by
  intro c s t hm h
  obtain ⟨d, u, hd, hu, rfl⟩ := exists_triggerChannel_of_exec h
  obtain ⟨hframe, hother, hp0, hp1⟩ := triggerChannel_ok hu
  refine ⟨d, hd, hother, hp0, hp1, fun k hk => triggerChannel_apend_other hm hu hk, ?_, fun hb => ?_, fun hb => ?_⟩
  · rw [hframe]
  · rw [triggerChannel_busy hb] at hu
    cases hu
    exact ⟨rfl, rfl, rfl, rfl⟩
  · obtain ⟨p0, p1, a, n, m, hn, hw, rfl⟩ := triggerChannel_accepted hm hb hu
    exact ⟨p0, p1, a, n, _, hn.first, hn.second, hn.addrLen, hn.loHi,
      fun b hout => hw.kept b fun i hi e => absurd e (hout i hi), rfl, fun _ => exists_of_mem_blockEvents, rfl⟩

/-! ## Idle channels (R248) -/

/-- Every instruction but the host's writes leaves idle channels idle. -/
theorem exec_channelsIdle {i : Instr} {s t : State} (hw : isHostWrite i = false) (h : exec i s = .next t)
    (hs : ChannelsIdle s) : ChannelsIdle t := by
  obtain ⟨v, u, hu, rfl⟩ := exec_eq_next h
  have hf := StepSound.action hw s
  rw [hu] at hf
  exact (show StepFrame s u from hf).idle hs

/-- Settles O57: STEP and RUN are no writes of the host. -/
theorem engineStepsLeaveChannelsIdle : Obligations.EngineStepsLeaveChannelsIdle := fun _ _ _ hs =>
  ⟨fun h => exec_channelsIdle rfl h hs, fun h => exec_channelsIdle rfl h hs⟩

end Sys2Proof.Machine
end

section
/-! The statements about interrupts, faults and the order of the host's operations: arbitration, the interrupt entry and its
return, the edge-triggered latches, the vector, and what a faulted machine refuses (spec/60_exceptions.md). -/

namespace Sys2Proof.Machine

/-! ## The host's operations come first (R304) -/

/-- Settles O6: no bytes are no record, so that the inbox holds some. -/
theorem stepPerformsTheFirstRecord : Obligations.StepPerformsTheFirstRecord := by
  intro s i rest h
  cases hs : s.inbox with
  | nil => rw [hs] at h; cases h
  | cons b bs => rw [hs] at h; simp only [step, hs, h]

/-! ## Faults (R302, R303) -/

/-- After a RESET every debug-exported field is read. -/
theorem readField_ok (d : DbgField) {s : State} (h : s.resetDone = true) : ∃ c, readField d s = .ok c s := by
  cases d with
  | pc => exact ⟨_, readField_pc h⟩
  | sp => exact ⟨_, readField_sp h⟩
  | fr | ac | stk => exact ⟨_, rfl⟩

theorem exec_save_ok {s : State} (h : s.resetDone = true) :
    exec .save s = .next { s with result := .snapshot (takeSnapshot s) } := by
  rw [exec_save]; simp only [action, afterReset_of _ h, Res.finish]

/-- A debugger read answers a value or is refused. -/
theorem readField_ne_fault (d : DbgField) (s : State) (r : Fault) : readField d s ≠ .fault r := by
  cases hr : s.resetDone with
  | true => obtain ⟨c, hc⟩ := readField_ok d hr; simp [hc]
  | false => cases d <;> simp [readField, hr]

theorem exec_dbgRead_ne_fault (f : BitVec 5) (s : State) (r : Fault) : exec (.dbgRead f) s ≠ .fault r := by
  cases hd : dbgField f with
  | some d =>
    rw [exec_dbgRead_field hd, ne_eq, Res.outcome_eq_fault]
    exact readField_ne_fault d s r
  | none => rw [exec_dbgRead]; simp [action, hd, Res.finish]

theorem exec_save_ne_fault (s : State) (r : Fault) : exec .save s ≠ .fault r := by
  cases hr : s.resetDone with
  | true => rw [exec_save_ok hr]; simp
  | false => rw [exec_save]; simp [action, afterReset_before _ hr, Res.finish]

/-- The writes of the host reach no cell that may be `Undefined`. -/
theorem hostWrite_ne_fault {i : Instr} (hw : isHostWrite i = true) (s : State) (r : Fault) : action i s ≠ .fault r := by
  intro h
  cases i with
  | reset => cases h
  | signalInt =>
    simp only [action] at h
    split at h
    · cases h
    · split at h <;> cases h
  | aggLine | dbgWrite | restore => simp only [action] at h; split at h <;> cases h
  | _ => cases hw

/-- An action that faults on an unfaulted machine records its reason. -/
theorem action_fault {i : Instr} {s left : State} {r : FaultReason} (hf : s.fault = none)
    (h : action i s = .fault (.raised r left)) : left.fault = some r := by
  cases hw : isHostWrite i with
  | true => exact absurd h (hostWrite_ne_fault hw s _)
  | false =>
    have hs := StepSound.action hw s
    rw [h] at hs
    exact (show left.fault = s.fault.or (some r) from hs).trans (by rw [hf]; rfl)

/-- Settles O10: DBG_READ and SAVE do not fault, and every other instruction is refused on a faulted machine. -/
theorem faultsAreRecorded : Obligations.FaultsAreRecorded := by
  intro i s left r h
  have hd : ∀ f, i ≠ .dbgRead f := by rintro f rfl; exact exec_dbgRead_ne_fault f s _ h
  have hsave : i ≠ .save := by rintro rfl; exact exec_save_ne_fault s _ h
  cases hf : s.fault with
  | some r' => rw [exec_faulted hd hsave (by rw [hf]; rfl)] at h; cases h
  | none =>
    rw [exec_unfaulted i hf, Res.finish_eq_fault] at h
    exact ⟨rfl, action_fault hf h⟩

/-- Settles O8: what is not refused is a read of a field or of the snapshot, and a fault arises only where there was none. -/
theorem faultedMachineOnlyReads : Obligations.FaultedMachineOnlyReads := by
  intro i s hf
  refine ⟨fun hd hs => exec_faulted hd hs (Option.isSome_iff_ne_none.mpr hf), ?_, ?_, ?_⟩
  · rintro f rfl hle hr
    obtain ⟨d, hd⟩ := dbgField_some hle
    obtain ⟨c, hc⟩ := readField_ok d hr
    exact ⟨c, by rw [exec_dbgRead_field hd, hc]; rfl⟩
  · rintro rfl hr
    exact ⟨_, exec_save_ok hr⟩
  · rintro ⟨r, left⟩ h
    exact hf (faultsAreRecorded i s left r h).1

/-! ## Interrupt inputs (R271, R291) -/

/-- A latch is set or stays. -/
theorem ite_setPending (p : Pending) (l : Level) (c : Bool) :
    (if c then setPending p l true else p) = setPending p l (pendingOf p l || c) := by
  cases c <;> cases l <;> simp [setPending, pendingOf]

/-- SIGNAL_INT of a level with a pin. -/
theorem exec_signalInt {lf : BitVec 3} {l : Level} {old : Bool} (b : BitVec 1) {s : State} (hf : s.fault = none)
    (hl : levelOf lf = some l) (ho : lineOf s.line l = some old) :
    exec (.signalInt lf b) s = .next { s with
      line := setLine s.line l (b == 1), result := .none
      pending := setPending s.pending l (pendingOf s.pending l || (b == 1 && !old)) } := by
  rw [exec_unfaulted _ hf, ← ite_setPending]
  simp only [action, hl, ho, Res.finish, signalLine]
  rfl

/-- Settles O48: the operand names a level with a pin, one without or none. -/
theorem signalsLatchOnTheRisingEdge : Obligations.SignalsLatchOnTheRisingEdge := by
  intro lf b s hf
  refine ⟨?_, ?_, ?_, ?_, ?_, ?_⟩
  · rintro (rfl | rfl) <;> exact exec_unfaulted _ hf
  · rintro (rfl | rfl) <;> exact exec_unfaulted _ hf
  · rintro rfl; exact exec_signalInt (l := .l0) b hf rfl rfl
  · rintro rfl; exact exec_signalInt (l := .l3) b hf rfl rfl
  · rintro rfl; exact exec_signalInt (l := .l4) b hf rfl rfl
  · rintro rfl; exact exec_signalInt (l := .l5) b hf rfl rfl

/-- The pending bits after a rising edge of a source, or without one. -/
theorem driveSource_apend_bit (src : Fin 4) (old b : Bool) (s : State) (k : Fin 4) :
    (driveSource (BitVec.ofFin src) old b s).apend.getLsbD k.val =
      (s.apend.getLsbD k.val || (k == src && b && !old)) := by
  have hbit : ∀ src k : Fin 4, (1#4 <<< (BitVec.ofFin (w := 2) src).toNat).getLsbD k.val = (k == src) := by decide
  change (if b && !old then s.apend ||| 1#4 <<< (BitVec.ofFin (w := 2) src).toNat else s.apend).getLsbD k.val = _
  rw [Bool.and_assoc]
  cases b && !old with
  | true => rw [if_pos rfl, BitVec.getLsbD_or, hbit, Bool.and_true]
  | false => rw [if_neg Bool.false_ne_true, Bool.and_false, Bool.or_false]

theorem exec_aggLine {src : BitVec 2} {old : Bool} (b : BitVec 1) {s : State} (hf : s.fault = none)
    (ho : aggLineOf s.aline src = some old) :
    exec (.aggLine src b) s = .next { driveSource src old (b == 1) s with result := .none } := by
  rw [exec_unfaulted _ hf]
  simp only [action, ho, Res.finish]
  rfl

/-- Settles O49: the sources with a line are driven. -/
theorem sourcesLatchOnTheRisingEdge : Obligations.SourcesLatchOnTheRisingEdge := by
  intro b s hf
  exact ⟨exec_unfaulted (.aggLine 2 b) hf,
    ⟨_, exec_aggLine b hf rfl, driveSource_apend_bit 0 _ _ s⟩,
    ⟨_, exec_aggLine b hf rfl, driveSource_apend_bit 1 _ _ s⟩,
    ⟨_, exec_aggLine b hf rfl, driveSource_apend_bit 3 _ _ s⟩⟩

/-! ## The vector (R294, R295) -/

/-- The vector fetch names the first source pending and enabled, and takes no draw. -/
theorem aggVector_first {s : State} {en : Word} (he : s.bank.irqEnable = .val en) {k : Fin 4}
    (hp : s.apend.getLsbD k.val = true) (hk : en.getLsbD k.val = true)
    (hm : ∀ m : Fin 4, m < k → ¬ (s.apend.getLsbD m.val = true ∧ en.getLsbD m.val = true)) :
    aggVector s = (BitVec.ofNat 16 k.val, s) := by
  rw [← sourceEnables_val he] at hk hm
  exact aggVector_of_source (aggSource_eq_some hp hk hm)

/-- A source's number as a word. -/
theorem toNat_ofNat_source (k : Fin 4) : (BitVec.ofNat 16 k.val).toNat = k.val :=
  Nat.mod_eq_of_lt (by omega)

/-- Settles O50: the fetch changes the draws at most, and not where a source is named. -/
theorem vectorNamesTheFirstSource : Obligations.VectorNamesTheFirstSource := by
  intro s hf
  obtain ⟨n, hn⟩ := aggVector_state s
  refine ⟨(aggVector s).1, n, ?_, fun en he k hp hk hm => ?_⟩
  · rw [exec_unfaulted _ hf]
    simp only [action, hn, Res.finish]
  · have hv := aggVector_first he hp hk hm
    rw [hv] at hn ⊢
    exact ⟨toNat_ofNat_source k, (congrArg State.draws hn).symm⟩

/-! ## Arbitration (R273 to R276, R293) -/

/-- AGG_OUT is a source that is pending and enabled (R293). -/
theorem aggOut_iff (s : State) :
    aggOut s = true ↔ ∃ k : Fin 4, s.apend.getLsbD k.val = true ∧ (sourceEnables s).getLsbD k.val = true := by
  rw [aggOut, bne_iff_ne, ne_eq, BitVec.eq_of_getLsbD_eq_iff, not_forall]
  constructor
  · rintro ⟨k, hk⟩
    obtain ⟨hlt, hk⟩ := not_forall.mp hk
    exact ⟨⟨k, hlt⟩, by simpa [hlt] using hk⟩
  · rintro ⟨k, hp, he⟩
    refine ⟨k.val, fun h => ?_⟩
    have hk := h k.isLt
    simp [BitVec.getLsbD_setWidth, hp, he, -BitVec.getLsbD_eq_getElem] at hk

/-- The default of ARB_ORDER (R276). -/
def defaultOrder : List Level := [.l0, .l1, .l2, .l3, .l4, .l5]

theorem defaultOrder_ascending : defaultOrder.Pairwise fun a b => levelNumber a < levelNumber b := by decide

theorem mem_defaultOrder (m : Level) : m ∈ defaultOrder := by cases m <;> decide

/-- In the default order the level found is that of the lowest number that meets the condition. -/
theorem find_defaultOrder_eq_some {p : Level → Bool} {l : Level} :
    defaultOrder.find? p = some l ↔ p l = true ∧ ∀ m, levelNumber m < levelNumber l → ¬ p m = true := by
  have hsorted := defaultOrder_ascending
  have hall := mem_defaultOrder
  rw [List.find?_eq_some_iff_append]
  refine and_congr_right fun _ => ⟨?_, fun h => ?_⟩
  · rintro ⟨before, after, he, hb⟩ m hm
    rw [he] at hsorted hall
    rcases List.mem_append.mp (hall m) with hmb | hma
    · simpa using hb m hmb
    · rcases List.mem_cons.mp hma with rfl | hma
      · exact absurd hm (lt_irrefl _)
      · exact absurd hm (List.rel_of_pairwise_cons (List.pairwise_append.mp hsorted).2.1 hma).asymm
  · obtain ⟨before, after, he⟩ := List.append_of_mem (hall l)
    rw [he] at hsorted
    refine ⟨before, after, he, fun m hm => ?_⟩
    simpa using h m ((List.pairwise_append.mp hsorted).2.2 m hm l List.mem_cons_self)

theorem arbitrate_eq_some {s : State} {l : Level} :
    arbitrate s = some l ↔ requested s l = true ∧ enabled s l = true ∧
      ∃ before after, s.cfg.arbOrder = before ++ l :: after ∧
        ∀ m ∈ before, ¬ (requested s m = true ∧ enabled s m = true) := by
  rw [arbitrate, List.find?_eq_some_iff_append]
  simp only [Bool.not_eq_true', ← Bool.not_eq_true, Bool.and_eq_true, and_assoc]

theorem arbitrate_default {s : State} (h : s.cfg.arbOrder = defaultOrder) {l : Level} :
    arbitrate s = some l ↔ requested s l = true ∧ enabled s l = true ∧
      ∀ m, levelNumber m < levelNumber l → ¬ (requested s m = true ∧ enabled s m = true) := by
  rw [arbitrate, h, find_defaultOrder_eq_some]
  simp only [Bool.and_eq_true, and_assoc]

theorem arbitrate_default_none {s : State} (h : s.cfg.arbOrder = defaultOrder) :
    arbitrate s = none ↔ ∀ m, ¬ (requested s m = true ∧ enabled s m = true) := by
  rw [arbitrate, h, List.find?_eq_none]
  simp only [mem_defaultOrder, forall_const, Bool.and_eq_true]

/-- With IEN clear no level but L0 is enabled (R274, R275). -/
theorem enabled_of_masked {s : State} (h : s.fr.getLsbD s.cfg.ienBit.val = false) {l : Level} (hl : l ≠ .l0) :
    enabled s l = false := by
  cases l with
  | l0 => exact absurd rfl hl
  | _ => simp only [enabled, ieBit, h, Bool.false_and]

/-- Settles O44: arbitration is the search of ARB_ORDER, whose default ascends by the levels' numbers. -/
theorem lowestRequestedLevelWins : Obligations.LowestRequestedLevelWins := by
  intro s
  refine ⟨⟨rfl, rfl, rfl, rfl, rfl, fun w hw => ?_⟩, ⟨rfl, rfl, rfl, rfl, rfl, rfl⟩, fun _ => arbitrate_eq_some,
    fun horder => ?_⟩
  · rw [← sourceEnables_val hw]
    exact aggOut_iff s
  · have hl0 : s.pending.l0 = true → arbitrate s = some .l0 := fun hp =>
      (arbitrate_default horder).mpr ⟨hp, rfl, fun m hm => absurd hm (Nat.not_lt_zero _)⟩
    refine ⟨fun _ => arbitrate_default horder, arbitrate_default_none horder, fun hien => ?_, hl0⟩
    cases hp : s.pending.l0 with
    | true => exact hl0 hp
    | false =>
      refine (arbitrate_default_none horder).mpr fun m ⟨hr, he⟩ => ?_
      by_cases hm : m = .l0
      · subst hm
        exact Bool.false_ne_true (hp.symm.trans hr)
      · rw [enabled_of_masked hien hm] at he
        cases he

/-! ## Taking an interrupt (R277) -/

/-- What an entry fetches: the aggregator's vector for L2, and 0 for every other level. -/
def entryFetch (l : Level) (s : State) : Word × State :=
  match l with
  | .l2 => aggVector s
  | _ => (0#16, s)

theorem entryFetch_plain {l : Level} (h : l ≠ .l2) (s : State) : entryFetch l s = (0#16, s) := by
  cases l with
  | l2 => exact absurd rfl h
  | _ => rfl

theorem entryStart_eq (l : Level) (s : State) :
    entryStart l s = { s with
      sp := clamp (s.sp.setWidth 8 + 1), stk := s.stk.setIfInBounds s.sp.toNat (.val s.pc)
      fr := s.fr &&& ~~~ (frBit s.cfg.ienBit) ||| frOnes
      pending := wrapPending 9#4 { s with pending := setPending s.pending l false }, waiting := false
      trace := s.trace ++ flagOuts s.fr (s.fr &&& ~~~ (frBit s.cfg.ienBit)) } := by
  rw [entryStart, push_eq]; rfl

/-- An entry leaves the pending sources and their enables alone. -/
theorem aggSource_entryStart (l : Level) (s : State) : aggSource (entryStart l s) = aggSource s := by
  rw [entryStart_eq]; rfl

/-- What the vector fetch of an entry gives and takes is told by the state before the entry. -/
theorem aggVector_entryStart (l : Level) (s : State) :
    aggVector (entryStart l s) = ((aggVector s).1, { entryStart l s with draws := (aggVector s).2.draws }) := by
  simp only [aggVector, aggSource_entryStart]
  rw [entryStart_eq]
  cases aggSource s <;> rfl

/-- The whole state after an entry. -/
theorem takeInterrupt_eq (l : Level) (s : State) :
    takeInterrupt l s = { s with
      pc := intVector s.cfg l (entryFetch l s).1
      sp := clamp (s.sp.setWidth 8 + 1), stk := s.stk.setIfInBounds s.sp.toNat (.val s.pc)
      fr := s.fr &&& ~~~ (frBit s.cfg.ienBit) ||| frOnes
      pending := wrapPending 9#4 { s with pending := setPending s.pending l false }, waiting := false
      trace := s.trace ++ flagOuts s.fr (s.fr &&& ~~~ (frBit s.cfg.ienBit)) ++ [.intAck l (entryFetch l s).1]
      draws := (entryFetch l s).2.draws } := by
  by_cases hl : l = .l2
  · subst hl
    rw [takeInterrupt_agg, aggVector_entryStart, entryStart_eq]; rfl
  · rw [takeInterrupt_plain hl, entryFetch_plain hl, entryStart_eq]; rfl

theorem levelOf_eq {lf : BitVec 3} {l : Level} (h : levelNumber l = lf.toNat) : levelOf lf = some l := by
  cases l <;> revert lf <;> decide

/-- The state after INT_ENTRY. -/
def afterEntry (l : Level) (s : State) : State := { takeInterrupt l s with result := .none }

theorem Running.afterEntry (l : Level) {s : State} (h : Running s) : Running (afterEntry l s) :=
  have ht : Running (takeInterrupt l s) := h.stepFrame (.takeInterrupt l s)
  ⟨ht.reset, ht.unfaulted⟩

theorem afterEntry_cfg (l : Level) (s : State) : (afterEntry l s).cfg = s.cfg := (StepFrame.takeInterrupt l s).cfg

theorem exec_intEntry {lf : BitVec 3} {l : Level} (hl : levelOf lf = some l) {s : State} (hs : Running s) :
    exec (.intEntry lf) s = .next (afterEntry l s) := by
  rw [exec_unfaulted _ hs.unfaulted]
  simp only [action, afterReset_of _ hs.reset, hl, Res.finish, afterEntry]

/-- An entry that is the engine's whole step (R132). -/
theorem step_entry {s : State} {l : Level} (hs : Running s) (hi : s.inbox = []) (ha : arbitrate s = some l) :
    ∃ n, s.cfg.intEntryCycles ≤ n ∧ step s = .next { takeInterrupt l s with
      draws := (takeInterrupt l s).draws + s.cfg.intEntryCycles, result := .cycles n } := by
  obtain ⟨n, hn, hc⟩ := costOf_eq s.cfg.intEntryCycles (takeInterrupt l s)
  refine ⟨n, hn, ?_⟩
  rw [(stepExecutesTheWordAtPc s hi).1, exec_step hs, engineStep_entry ha, hc]; rfl

/-- Settles O45: the state after the entry is written out, and the cost of a step takes draws only. -/
theorem interruptEntryEffect : Obligations.InterruptEntryEffect := by
  intro lf l s hs hsp hlf
  have hentry := exec_intEntry (levelOf_eq hlf) hs
  have hstep := step_entry (l := l) hs
  rw [afterEntry, takeInterrupt_eq] at hentry
  rw [takeInterrupt_eq] at hstep
  refine ⟨_, (entryFetch l s).1, _, hentry, rfl, fun hl => ?_, ?_, fun hl => ?_, rfl, rfl, clamp_succ s.sp hsp,
    stk_get_setIfInBounds s.stk s.sp.toNat (.val s.pc), exec_frWrite _ hs.unfaulted, rfl, fun hb => flagOuts_clear hb s.fr,
    rfl, hstep⟩
  · rw [entryFetch_plain hl]; rfl
  · rintro rfl en he k hp hk hm
    have hv : entryFetch .l2 s = (BitVec.ofNat 16 k.val, s) := aggVector_first he hp hk hm
    rw [hv]
    exact ⟨toNat_ofNat_source k, rfl⟩
  · change (entryFetch l s).2.draws = s.draws
    rw [entryFetch_plain hl]

/-! ## Returning from one (R279) -/

/-- The state after INT_RETURN of a slot that holds w. -/
def afterReturn (w : Word) (s : State) : State :=
  { setFlags (s.fr ||| frBit s.cfg.ienBit) (writeNpc w (popPointer s)) with result := .none }

theorem afterReturn_eq (w : Word) (s : State) :
    afterReturn w s = { s with
      npc := some w, sp := clamp (s.sp.setWidth 8 - 1), fr := s.fr ||| frBit s.cfg.ienBit ||| frOnes
      pending := wrapPending 0#4 s, trace := s.trace ++ flagOuts s.fr (s.fr ||| frBit s.cfg.ienBit)
      result := .none } := by
  rw [afterReturn, popPointer_eq]; rfl

theorem afterReturn_ien (w : Word) (s : State) : (afterReturn w s).fr.getLsbD s.cfg.ienBit.val = true := by
  rw [afterReturn_eq]
  simp only [BitVec.getLsbD_or, frBit_getLsbD, decide_true, Bool.or_true, Bool.true_or]

theorem exec_intReturn {s : State} (h : Running s) :
    exec .intReturn s = ((returnFromInterrupt s).bind fun _ s => .ok () s).outcome noResult :=
  performAfterReset_running h.unfaulted h.reset

theorem exec_intReturn_val {s : State} {w : Word} (hs : Running s)
    (h : stkSlot s (clamp (s.sp.setWidth 8 - 1)) = .val w) : exec .intReturn s = .next (afterReturn w s) := by
  rw [exec_intReturn hs, returnFromInterrupt_val h]; rfl

theorem exec_intReturn_undef {s : State} (hs : Running s) (h : stkSlot s (clamp (s.sp.setWidth 8 - 1)) = .undef) :
    ∃ left, exec .intReturn s =
      .fault (.raised (.readUndefined .stk ((clamp (s.sp.setWidth 8 - 1)).setWidth 16)) left) := by
  have hf : (popPointer s).fault = none := (Frame.popPointer s).fault.trans hs.unfaulted
  rw [exec_intReturn hs, returnFromInterrupt, pop_undef h, raise_unfaulted hf, popPointer_eq]
  exact ⟨_, rfl⟩

/-- Settles O46: the slot read is the one the moved SP names. -/
theorem interruptReturnEffect : Obligations.InterruptReturnEffect := by
  intro s j hs hsp hj
  have hsp' : (clamp (s.sp.setWidth 8 - 1)).toNat = j.val := (clamp_pred s.sp hsp).trans hj.symm
  have hslot : stkSlot s (clamp (s.sp.setWidth 8 - 1)) = s.stk.get j := stkSlot_of_val s _ j hsp'.symm
  refine ⟨fun w hw => ?_, fun hu => ?_⟩
  · have hret := exec_intReturn_val hs (hslot.trans hw)
    rw [afterReturn_eq] at hret
    exact ⟨_, _, hret, rfl, hsp', rfl, exec_frWrite _ hs.unfaulted, rfl, fun hb => flagOuts_set hb s.fr, rfl, rfl⟩
  · rw [← hsp', BitVec.ofNat_toNat]
    exact exec_intReturn_undef hs (hslot.trans hu)

/-! ## There and back (R277, R279, R138) -/

/-- An entry leaves the interrupted address in the slot that a return pops, and a return moves SP back to it. -/
theorem stkSlot_afterEntry (l : Level) {s : State} (h : StackPointerInRange s) :
    stkSlot (afterEntry l s) (clamp ((afterEntry l s).sp.setWidth 8 - 1)) = .val s.pc ∧
      clamp ((afterEntry l s).sp.setWidth 8 - 1) = s.sp := by
  have hpush := stkSlot_push s.pc s h
  rw [push_eq] at hpush
  rw [afterEntry, takeInterrupt_eq]
  exact hpush

/-- An INT_ENTRY that completes has entered a level. -/
theorem exists_afterEntry_of_exec {lf : BitVec 3} {s t : State} (hs : Running s) (h : exec (.intEntry lf) s = .next t) :
    ∃ l, t = afterEntry l s := by
  cases hl : levelOf lf with
  | some l =>
    rw [exec_intEntry hl hs] at h
    cases h
    exact ⟨l, rfl⟩
  | none =>
    rw [exec_unfaulted _ hs.unfaulted] at h
    simp only [action, afterReset_of _ hs.reset, hl, Res.finish, reduceCtorEq] at h

/-- An instruction whose program is INT_RETURN takes PC from the stack. -/
theorem exec_instr_intReturn {w v : Word} {n : Nat} {s : State} (hs : Running s)
    (h : isaExec s.cfg s.pc w = some (.call .intReturn (.done n)))
    (hv : stkSlot s (clamp (s.sp.setWidth 8 - 1)) = .val v) :
    exec (.instr w) s = .next { endInstr (afterReturn v (beginInstr s)) with result := .cycles n } := by
  have hb : Running (beginInstr s) := hs.stepFrame (.beginInstr s)
  have hret : exec .intReturn (beginInstr s) = .next (afterReturn v (beginInstr s)) := exec_intReturn_val hb hv
  have hrun := (runProg_call_exec .intReturn (.done n) (programScope w s) hb).1 _ hret
  rw [exec_instr hs, runInstr_program h, hrun]; rfl

/-- Settles O47: the entry's push and the return's pop meet in one slot. -/
theorem returnUndoesTheEntry : Obligations.ReturnUndoesTheEntry := by
  intro lf s t hs hsp h
  obtain ⟨l, rfl⟩ := exists_afterEntry_of_exec hs h
  obtain ⟨hslot, hback⟩ := stkSlot_afterEntry l hsp
  have ht := hs.afterEntry l
  rw [← afterEntry_cfg l s]
  refine ⟨⟨_, exec_intReturn_val ht hslot, ?_, ?_, ?_, afterReturn_ien s.pc _⟩, fun w n hw =>
    ⟨_, exec_instr_intReturn ht hw hslot, ?_, rfl, ?_, afterReturn_ien s.pc (beginInstr (afterEntry l s)), rfl⟩⟩
  · rw [afterReturn_eq]
  · rw [afterReturn_eq]
  · rw [afterReturn_eq]; exact hback
  · rw [afterReturn_eq]; rfl
  · rw [afterReturn_eq]; exact hback

/-! ## The pending sources (R291) -/

theorem writeField_apend (d : DbgField) (v : Word) (s : State) : (writeField d v s).apend = s.apend := by
  cases d <;> rfl

theorem csRecompute_apend (s : State) : (csRecompute s).apend = s.apend := by
  unfold csRecompute
  cases s.bank.csCtrl <;> rfl

theorem writeExt_apend (a v : Word) (s : State) : (writeExt a v s).apend = s.apend := by rw [writeExt_eq]

theorem writeByte_apend {ba : BitVec 17} {b : Byte} {s t : State} (h : writeByte ba b s = .ok () t) :
    t.apend = s.apend := by
  unfold writeByte at h
  split at h
  · cases h
  · split at h <;> cases h <;> rfl

theorem writeParam_apend (c : Fin 7) (slot : Slot) (v : Cell) (s : State) :
    (writeParam c slot v s).apend = s.apend := by
  cases slot <;> rfl

theorem costOf_apend {n m : Nat} {s t : State} (h : costOf n s = .ok m t) : t.apend = s.apend := by
  obtain ⟨_, _, hc⟩ := costOf_eq n s
  rw [hc] at h; cases h; rfl

theorem returnFromInterrupt_apend {s t : State} {w : Word} (h : returnFromInterrupt s = .ok w t) :
    t.apend = s.apend := by
  obtain ⟨v, u, hp, hu⟩ := Res.bind_eq_ok.mp h
  cases hu
  exact (pop_apend hp : u.apend = s.apend)

/-- A step that executes no instruction leaves the pending sources (R277, spec/40_engine.md R151). -/
theorem engineStep_apend {s t : State} {n : Nat} (hn : arbitrate s = none → s.waiting = true)
    (h : engineStep s = .ok n t) : t.apend = s.apend := by
  cases ha : arbitrate s with
  | some l =>
    rw [engineStep_entry ha] at h
    exact (costOf_apend h).trans (takeInterrupt_apend l s)
  | none =>
    rw [engineStep_idle ha (hn ha)] at h
    exact costOf_apend h

theorem onChannel_eq_ok {c : BitVec 3} {x : Fin 7 → Res Result} {v : Result} {t : State}
    (h : onChannel c x = .ok v t) : ∃ d, x d = .ok v t := by
  unfold onChannel at h
  split at h
  · exact ⟨_, h⟩
  · cases h

/-- Whether an instruction sets the pending sources as a whole, writes a word to the bank or may execute a CPU word. -/
def mayAcknowledge (i : Instr) : Bool :=
  match i with
  | .reset _ | .restore _ | .periphWrite _ _ | .memWrite16 _ _ | .instr _ | .cpuWord _ | .run _ | .step => true
  | _ => false

/-- Every other instruction leaves a pending source pending. -/
theorem exec_apend_kept {i : Instr} (hi : mayAcknowledge i = false) {s t : State} (h : exec i s = .next t) {k : Fin 4}
    (hs : s.apend.getLsbD k.val = true) : t.apend.getLsbD k.val = true := by
  obtain ⟨v, u, ha, rfl⟩ := exec_eq_next h
  change u.apend.getLsbD k.val = true
  cases i with
  | reset | restore | periphWrite | memWrite16 | instr | cpuWord | run | step => cases hi
  | memRead16 | memRead8 | fetch | periphRead | dmaReadParam | acRead | frRead | spRead | dbgRead | jcRead
  | aggVectorFetch | save =>
    have hread := congrArg State.apend (readsChangeNothing _ _ _ (by simp) h)
    exact (congrArg (BitVec.getLsbD · k.val) hread).trans hs
  | idle | acWrite | pcWrite | frWrite | spWrite | waitEnter => cases ha; exact hs
  | signalInt l b =>
    simp only [action] at ha
    split at ha
    · cases ha
    · split at ha <;> cases ha
      exact hs
  | aggLine src b =>
    simp only [action] at ha
    split at ha <;> cases ha
    exact (driveSource_apend_bit src.toFin _ _ s k).trans (by rw [hs, Bool.true_or])
  | dbgWrite f v =>
    simp only [action] at ha
    split at ha <;> cases ha
    rwa [writeField_apend]
  | intEntry l =>
    simp only [action] at ha
    have ha := afterReset_eq_ok ha
    split at ha <;> cases ha
    rwa [takeInterrupt_apend]
  | stackPush v =>
    simp only [action] at ha
    cases afterReset_eq_ok ha
    rwa [push_eq]
  | stackPop =>
    simp only [action] at ha
    obtain ⟨_, hp⟩ := Res.with_eq_ok (afterReset_eq_ok ha)
    rwa [pop_apend hp]
  | intReturn =>
    simp only [action] at ha
    obtain ⟨_, hr⟩ := Res.with_eq_ok (afterReset_eq_ok ha)
    rwa [returnFromInterrupt_apend hr]
  | memWrite8 ba b =>
    obtain ⟨_, hw⟩ := Res.with_eq_ok ha
    rwa [writeByte_apend hw]
  | dmaWriteParam c slot v =>
    obtain ⟨d, hd⟩ := onChannel_eq_ok ha
    cases hd
    rwa [writeParam_apend]
  | dmaTrigger c =>
    obtain ⟨d, hd⟩ := onChannel_eq_ok ha
    obtain ⟨_, ht⟩ := Res.with_eq_ok hd
    exact triggerChannel_apend ht hs
  | csRecompute => cases ha; rwa [csRecompute_apend]

/-- Settles O60: a write of the bank is told by its register, and an engine step by what it does. -/
theorem sourcesStayPendingUntilAcknowledged : Obligations.SourcesStayPendingUntilAcknowledged := by
  intro i k s t h hs ht
  have lost {u : State} (hu : u.apend = s.apend) (hk : u.apend.getLsbD k.val = false) : False :=
    Bool.false_ne_true (hk.symm.trans (hu ▸ hs))
  cases hi : mayAcknowledge i with
  | false => exact (Bool.false_ne_true (ht.symm.trans (exec_apend_kept hi h hs))).elim
  | true =>
    obtain ⟨v, u, ha, rfl⟩ := exec_eq_next h
    change u.apend.getLsbD k.val = false at ht
    cases i with
    | reset strap => exact .inl ⟨strap, rfl⟩
    | restore snap => exact .inr (.inl ⟨snap, rfl⟩)
    | periphWrite off v =>
      obtain ⟨_, hw⟩ := Res.with_eq_ok ha
      exact .inr (.inr (.inl ⟨off, v, .inl rfl, writePeriph_apend hw hs ht⟩))
    | memWrite16 a v =>
      obtain ⟨_, hw⟩ := Res.with_eq_ok ha
      cases hd : decodeAddr s.cfg a with
      | window off =>
        rw [writeWord_window v hd] at hw
        exact .inr (.inr (.inl ⟨off, v, .inr ⟨a, rfl, hd⟩, writePeriph_apend hw hs ht⟩))
      | external =>
        rw [writeWord_external v hd] at hw
        cases hw
        exact (lost (writeExt_apend a v s) ht).elim
    | instr w => exact .inr (.inr (.inr (.inl ⟨w, rfl⟩)))
    | cpuWord w => exact .inr (.inr (.inr (.inr (.inl ⟨w, rfl⟩))))
    | run b => exact .inr (.inr (.inr (.inr (.inr (.inl ⟨b, rfl⟩)))))
    | step =>
      simp only [action] at ha
      obtain ⟨n, hn⟩ := Res.with_eq_ok (afterReset_eq_ok ha)
      by_cases hx : arbitrate s = none ∧ s.waiting = false
      · exact .inr (.inr (.inr (.inr (.inr (.inr ⟨rfl, hx⟩)))))
      · have hidle : arbitrate s = none → s.waiting = true := by simpa using hx
        exact (lost (engineStep_apend hidle hn) ht).elim
    | _ => cases hi

end Sys2Proof.Machine
end

section
/-! The statements about RESET, SAVE and RESTORE, and the boot-mode strap (spec/70_reset_and_hazards.md). -/

namespace Sys2Proof.Machine

/-! ## RESET (R320) -/

/-- RESET drives bits 11..14 low, so that exactly the outputs that were high are called back. -/
theorem flagOuts_frOnes (old : Word) :
    flagOuts old frOnes = [(0 : Fin 4), 1, 2, 3].filterMap
      fun k => if old.getLsbD (11 + k.val) then some (.flagOut k false) else none := by
  have low : ∀ k : Fin 4, frOnes.getLsbD (11 + k.val) = false := by decide
  refine List.filterMap_congr fun k _ => ?_
  rw [low k]
  cases old.getLsbD (11 + k.val) <;> rfl

theorem resetWith_dma_get (strap : BitVec 2) (s : State) (c : Fin 7) :
    (resetWith strap s).dma.get c = resetChannel s.cfg c := resetChannels_get s.cfg c

/-- A base register but IRQ_ENABLE is at its RESET_VALUE after RESET (R322). -/
theorem getReg_resetWith_base {r : Reg} {strap : BitVec 2} {s : State} (hm : r ∈ baseRegs s.cfg)
    (hk : baseKind r ≠ .computed) (hi : r ≠ .irqEnable) : getReg r (resetWith strap s) = resetValue s.cfg r := by
  obtain ⟨hrsv, hextra⟩ := mem_baseRegs.mp hm
  cases r with
  | rsv k =>
    show (resetBank s.cfg).rsv.getD k .undef = _
    simp [resetBank, hrsv k rfl]
  | dmaP c sl =>
    cases sl <;> simp only [getReg, paramCell, resetWith_dma_get, resetChannel]
  | extra k => exact absurd rfl (hextra k)
  | irqEnable => exact absurd rfl hi
  | rndStatus | dmaStatus | irqStatus => exact absurd rfl hk
  | _ => rfl

/-- And so is the register of each EXTRA_REGS entry. -/
theorem getReg_resetWith_extra {k : Nat} {s : State} (hk : k < s.cfg.extraRegs.length) (strap : BitVec 2) :
    getReg (.extra k) (resetWith strap s) = resetValue s.cfg (.extra k) := by
  show (resetBank s.cfg).extra.getD k .undef = _
  simp [resetBank, hk]

/-- Settles O11: the fields that RESET sets are written out, and the registers and the callbacks have their own lemmas. -/
theorem resetSetsTheStatedValues : Obligations.ResetSetsTheStatedValues := by
  intro strap s
  refine ⟨fun hf => exec_faulted nofun nofun (Option.isSome_iff_ne_none.mpr hf), fun hf =>
    ⟨_, exec_reset strap hf, rfl, rfl, rfl, rfl, rfl, rfl, rfl, rfl, rfl,
      fun c => ?_, fun r hm hk hi => ?_, fun k hk => ?_, ?_, rfl⟩⟩
  · have hc := resetWith_dma_get strap s c
    exact ⟨congrArg Channel.busy hc, congrArg Channel.done hc, congrArg Channel.err hc⟩
  · rw [getReg_setResult, getReg_resetWith_base hm hk hi]
  · rw [getReg_setResult, getReg_resetWith_extra hk]
  · exact congrArg (s.trace ++ ·) (flagOuts_frOnes s.fr)

/-! ## SAVE (R326) -/

/-- Settles O51: the snapshot is `takeSnapshot`, whose field 6 lists the cells of `savedRegs`. -/
theorem saveReturnsTheSnapshot : Obligations.SaveReturnsTheSnapshot := fun s =>
  ⟨fun hr => (nothingRunsBeforeReset s hr).2, fun hr =>
    ⟨takeSnapshot s, exec_save_ok hr, rfl, rfl, rfl, rfl, rfl, rfl, rfl, rfl, rfl, rfl, rfl, rfl, rfl, rfl, rfl,
      savedRegs s.cfg, rfl, savedRegs_nodup s.cfg, savedRegs_sorted s.cfg, fun _ => mem_savedRegs_iff⟩⟩

/-! ## RESTORE (R327, R328) -/

/-- The snapshots that RESTORE accepts. -/
theorem snapshotFits_iff {cfg : Config} {snap : Snapshot} :
    snapshotFits cfg snap = true ↔
      snap.sp.toNat ≤ 9 ∧ snap.fr &&& 0x8001 = 0x8001 ∧ snap.periph.length = (savedRegs cfg).length := by
  simp only [snapshotFits, Bool.and_eq_true, decide_eq_true_eq, beq_iff_eq, and_assoc]
  rfl

/-- A flag word with bits 0 and 15 high is committed as it is (spec/41_register_file.md R164). -/
theorem or_frOnes_of_hardwired {v : Word} (h : v &&& 0x8001 = 0x8001) : v ||| frOnes = v :=
  calc v ||| frOnes
    _ = v ||| v &&& 0x8001 := by rw [h]; rfl
    _ = v := BitVec.eq_of_getLsbD_eq fun i _ => by
      rw [BitVec.getLsbD_or, BitVec.getLsbD_and]; exact sup_inf_self

/-- The state after RESTORE of an accepted snapshot. -/
def afterRestore (snap : Snapshot) (s : State) : State :=
  { loadFields snap s with
    bank   := (loadSnapshot snap s).bank
    fr     := snap.fr
    trace  := s.trace ++ flagOuts s.fr snap.fr
    result := .none }

/-- FR is written as it stands in the snapshot, whose bits 0 and 15 are high already. -/
theorem exec_restore {snap : Snapshot} {s : State} (hf : s.fault = none) (h : snapshotFits s.cfg snap = true) :
    exec (.restore snap) s = .next (afterRestore snap s) := by
  obtain ⟨-, hones, -⟩ := snapshotFits_iff.mp h
  rw [exec_unfaulted _ hf]
  simp only [action, h, if_true, Res.finish]
  rw [loadSnapshot_bank, setFlags, or_frOnes_of_hardwired hones]
  rfl

theorem exec_restore_refused {snap : Snapshot} {s : State} (hf : s.fault = none) (h : snapshotFits s.cfg snap = false) :
    exec (.restore snap) s = .refused .illFormedSnapshot := by
  rw [exec_unfaulted _ hf]
  simp only [action, h, Bool.false_eq_true, if_false, Res.finish]

theorem getReg_afterRestore (r : Reg) (snap : Snapshot) (s : State) :
    getReg r (afterRestore snap s) = getReg r (loadSnapshot snap s) := by
  rw [loadSnapshot_bank]
  cases r <;> rfl

/-- The registers of field 6 read as the snapshot has them. -/
theorem map_getReg_afterRestore {snap : Snapshot} {s : State} (hb : BankShaped s) (h : snapshotFits s.cfg snap = true) :
    (savedRegs s.cfg).map (fun r => getReg r (afterRestore snap s)) = snap.periph := by
  simp only [getReg_afterRestore]
  exact loadSnapshot_regs hb h

/-- SAVE after RESTORE gives the snapshot that was restored. -/
theorem takeSnapshot_afterRestore {snap : Snapshot} {s : State} (hb : BankShaped s)
    (h : snapshotFits s.cfg snap = true) : takeSnapshot (afterRestore snap s) = snap :=
  congrArg (fun cells => { snap with periph := cells }) (map_getReg_afterRestore hb h)

/-- Settles O53: the state after an accepted snapshot is written out, and every other snapshot is refused. -/
theorem restoreSetsEveryField : Obligations.RestoreSetsEveryField := by
  intro snap s hf hb
  refine ⟨fun hsp hfr hlen => ?_, fun hbad => exec_restore_refused hf ?_⟩
  · have hfit := snapshotFits_iff.mpr ⟨hsp, hfr, hlen⟩
    exact ⟨_, exec_restore hf hfit, rfl, rfl, rfl, rfl, rfl, rfl, rfl, rfl, rfl, rfl, rfl, rfl, rfl, rfl, rfl,
      map_getReg_afterRestore hb hfit, rfl, rfl, rfl, rfl, rfl, rfl, rfl⟩
  · refine Bool.eq_false_iff.mpr fun hfit => ?_
    obtain ⟨hsp, hfr, hlen⟩ := snapshotFits_iff.mp hfit
    rcases hbad with h | h | h
    · omega
    · exact h hfr
    · exact h hlen

/-- Settles O52: the invariant makes the snapshot an accepted one, and SAVE after its RESTORE gives it back. -/
theorem restoreBringsBackTheSnapshot : Obligations.RestoreBringsBackTheSnapshot := by
  intro s s' snap hs hr hs' hf' hcfg hsave
  have hsnap : takeSnapshot s = snap := by
    rw [exec_save_ok hr] at hsave
    exact Result.snapshot.inj (congrArg State.result (Host.Outcome.next.inj hsave))
  subst hsnap
  have hfit : snapshotFits s'.cfg (takeSnapshot s) = true := hcfg ▸ snapshotFits_takeSnapshot hs
  refine ⟨_, exec_restore hf' hfit, ?_, rfl, ⟨_, rfl⟩, rfl⟩
  rw [exec_save_ok (s := afterRestore (takeSnapshot s) s') hr, takeSnapshot_afterRestore hs'.bank hfit]

/-! ## The boot-mode strap (R321) -/

/-- Settles O58: STEP is an engine step, which answers the same whatever the strap is. -/
theorem strapIsNeverRead : Obligations.StrapIsNeverRead := by
  intro s t m h
  obtain ⟨hf, hr, n, u, hu, rfl⟩ := performAfterReset_eq_next.mp (show execStep s = .next t from h)
  exact performAfterReset_eq_next.mpr ⟨hf, hr, n, withStrap m u, Blind.engineStep m s u n hu, rfl⟩

end Sys2Proof.Machine
end
